-- ==== Sys2Proof/Word.lean ====
section
/-! DEFINITION. The words of the LZW codec core and the names of its four units. -/

namespace Sys2Proof

/-- A byte, 0..255 (00_scope.md R13). -/
abbrev Byte := BitVec 8

/-- A 12-bit code, 0..4095 (00_scope.md R9, R13). -/
abbrev Code := BitVec 12

/-- A 32-bit command word, CSR value or count register (00_scope.md R11, 30_encoding.md R80). -/
abbrev Word := BitVec 32

/-- The 24-bit operand field of a command word (30_encoding.md R80). -/
abbrev Operand := BitVec 24

/-- The four units, each one agent (10_state.md R20). -/
inductive UnitId where
  | enc
  | dec
  | pack
  | unpk
  deriving DecidableEq, Repr

/-- One value of a type for each unit. -/
structure PerUnit (α : Type) where
  enc : α
  dec : α
  pack : α
  unpk : α
  deriving DecidableEq, Repr

namespace PerUnit

/-- The value of unit `u`. -/
def get {α : Type} (p : PerUnit α) : UnitId → α
  | .enc => p.enc
  | .dec => p.dec
  | .pack => p.pack
  | .unpk => p.unpk

/-- `p` with the value of unit `u` replaced. -/
def set {α : Type} (p : PerUnit α) (u : UnitId) (a : α) : PerUnit α :=
  match u with
  | .enc => { p with enc := a }
  | .dec => { p with dec := a }
  | .pack => { p with pack := a }
  | .unpk => { p with unpk := a }

end PerUnit

end Sys2Proof
end

