-- ==== Sys2Proof/Config.lean ====
section
/-! DEFINITION. The constants of the block (00_scope.md R9, R10), its OPEN parameters (00_scope.md R11)
and the free values: constants with no body, of which no proof can know the value. -/

namespace Sys2Proof

/-- The queue depths the spec leaves OPEN and a model takes as an argument (00_scope.md R11), each as the
distance from its lower bound, so that every value is a legal depth. A state carries them, and no step
writes them. -/
structure Params where
  encOqExtra : Nat
  decOqExtra : Nat
  packOqExtra : Nat
  unpkOqExtra : Nat
  cmdqExtra : Nat
  deriving DecidableEq, Repr

/-- The lower bound of P_u_OQ_DEPTH (00_scope.md R11). -/
def oqMin : UnitId → Nat
  | .enc => 2
  | .dec => 3841
  | .pack => 2
  | .unpk => 1

/-- The lower bound of P_CMDQ_DEPTH (00_scope.md R11). -/
def cmdqMin : Nat := 1

namespace Params

/-- How far P_u_OQ_DEPTH lies above its lower bound. -/
def oqExtra (p : Params) : UnitId → Nat
  | .enc => p.encOqExtra
  | .dec => p.decOqExtra
  | .pack => p.packOqExtra
  | .unpk => p.unpkOqExtra

/-- P_u_OQ_DEPTH (00_scope.md R11). -/
def oqDepth (p : Params) (u : UnitId) : Nat := oqMin u + p.oqExtra u

/-- P_CMDQ_DEPTH (00_scope.md R11). -/
def cmdqDepth (p : Params) : Nat := cmdqMin + p.cmdqExtra

/-- `n` items fit in u's output queue: `n ≤ P_u_OQ_DEPTH` (the lower bound is tried first, so that what
fits in every legal queue is decided without the OPEN value). -/
def oqFits (p : Params) (u : UnitId) (n : Nat) : Bool :=
  decide (n ≤ oqMin u) || decide (n ≤ p.oqDepth u)

/-- `n` commands fit in a command queue: `n ≤ P_CMDQ_DEPTH`. -/
def cmdqFits (p : Params) (n : Nat) : Bool :=
  decide (n ≤ cmdqMin) || decide (n ≤ p.cmdqDepth)

end Params

namespace Config

/-- `CODE_WIDTH` (00_scope.md R9). -/
def codeWidth : Nat := 12
/-- `FIRST_FREE` (00_scope.md R9). -/
def firstFree : Nat := 256
/-- `THRESHOLD` (00_scope.md R9). -/
def threshold : Nat := 4096
/-- `MAX_LIVE` (00_scope.md R9). -/
def maxLive : Nat := 3840
/-- `MAX_SYMBOL_LEN` (00_scope.md R10). -/
def maxSymbolLen : Nat := 3841
/-- The ID register's value (10_state.md R36). -/
def idValue : Word := 0x4C5A5701#32

/-- Free value: how far P_ENC_OQ_DEPTH lies above its lower bound (log 1). -/
opaque encOqExtra : Nat
/-- Free value: how far P_DEC_OQ_DEPTH lies above its lower bound (log 1). -/
opaque decOqExtra : Nat
/-- Free value: how far P_PACK_OQ_DEPTH lies above its lower bound (log 1). -/
opaque packOqExtra : Nat
/-- Free value: how far P_UNPK_OQ_DEPTH lies above its lower bound (log 1). -/
opaque unpkOqExtra : Nat
/-- Free value: how far P_CMDQ_DEPTH lies above its lower bound (log 1). -/
opaque cmdqExtra : Nat

/-- The depths at reset: each any number from its lower bound of 00_scope.md R11 up (log 1). -/
def params : Params := ⟨encOqExtra, decOqExtra, packOqExtra, unpkOqExtra, cmdqExtra⟩

/-- Free value: the first byte that reading the unspecified stored bits of an unbound DEC.dict entry
gives (10_state.md R34, log 8). No run reads it. -/
opaque unboundFirst : Code → Byte
/-- Free value: the further bytes of that reading (10_state.md R34, log 8). No run reads them. -/
opaque unboundRest : Code → List Byte

end Config

end Sys2Proof
end

