-- ==== Sys2Proof/Syntax.lean ====
section
/-! DEFINITION. The instructions: one constructor for each row of spec/opcode_table.json. -/

namespace Sys2Proof

/-- The thirteen commands of 30_encoding.md R81 and the CSR read of R96. Operand widths are those of R83. -/
inductive Instr where
  /-- 45_common.md R194 -/
  | nop
  /-- 41_encoder.md R121 -/
  | encStart
  /-- 41_encoder.md R122, R123 -/
  | encByte (c : BitVec 8)
  /-- 41_encoder.md R124 -/
  | encEnd
  /-- 42_decoder.md R141 -/
  | decStart
  /-- 42_decoder.md R142, R143; the operand is the whole field, so that values above 4095 can be given (R84) -/
  | decCode (k : BitVec 24)
  /-- 42_decoder.md R148 -/
  | decEnd
  /-- 43_bitpacker.md R161 -/
  | packStart
  /-- 43_bitpacker.md R162, R163 -/
  | packCode (k : BitVec 12)
  /-- 43_bitpacker.md R164 -/
  | packEnd
  /-- 44_bitunpacker.md R176 -/
  | unpkStart (n : BitVec 24)
  /-- 44_bitunpacker.md R177, R178, R179 -/
  | unpkByte (b : BitVec 8)
  /-- 44_bitunpacker.md R180 -/
  | unpkEnd
  /-- 45_common.md R196: a host move on the CSR read port, with its 8-bit address -/
  | csrRead (a : BitVec 8)
  deriving DecidableEq, Repr

end Sys2Proof
end

