-- ==== Sys2Proof/WellFormed.lean ====
section
/-! DEFINITION. Which instruction is well formed on which port (30_encoding.md R82, R96). The operand
ranges of R83 are the operand types of `Instr`, so an out-of-range operand cannot be written. -/

namespace Sys2Proof

/-- The ports that take an instruction: four command ports and the CSR read port (45_common.md R190). -/
inductive Port where
  | cmd (u : UnitId)
  | csr
  deriving DecidableEq, Repr

/-- The unit whose opcode an instruction has; none for the common `nop` and for the CSR read
(30_encoding.md R81). -/
def Instr.unit? : Instr → Option UnitId
  | .nop => none
  | .encStart => some .enc
  | .encByte _ => some .enc
  | .encEnd => some .enc
  | .decStart => some .dec
  | .decCode _ => some .dec
  | .decEnd => some .dec
  | .packStart => some .pack
  | .packCode _ => some .pack
  | .packEnd => some .pack
  | .unpkStart _ => some .unpk
  | .unpkByte _ => some .unpk
  | .unpkEnd => some .unpk
  | .csrRead _ => none

/-- `i` is well formed on port `p`: a command port takes its own unit's commands and `nop` (R82), the CSR
port takes the CSR read only (R96). -/
def Instr.wellFormed (p : Port) (i : Instr) : Bool :=
  match p, i with
  | .csr, .csrRead _ => true
  | .csr, _ => false
  | .cmd _, .csrRead _ => false
  | .cmd _, .nop => true
  | .cmd u, i => decide (i.unit? = some u)

end Sys2Proof
end

