-- ==== Sys2Proof/Decode.lean ====
section
/-! DEFINITION. Decoding a command word on a command port, total and rejecting by name (30_encoding.md R89),
decoding a CSR address (R96), and the encoder, written from the same tables (R80, R81, R83). -/

namespace Sys2Proof

/-- Why a command word is illegal on a port (30_encoding.md R85, R86, R87). -/
inductive DecodeError where
  | undefinedOpcode
  | wrongUnit
  | operand
  deriving DecidableEq, Repr

/-- What a command word is on a port (30_encoding.md R89). -/
inductive Decoded where
  | cmd (i : Instr)
  | illegal (e : DecodeError)
  deriving DecidableEq, Repr

/-- A row of the opcode map: the opcode, its must-be-zero operand bits, and the instruction its operand
gives. -/
structure OpRow where
  opcode : BitVec 8
  mbz : Operand
  build : Operand → Instr

/-- The opcode map (30_encoding.md R81) with the must-be-zero masks and operand fields of R83 and R89. -/
def opcodeMap : List OpRow :=
  [ ⟨0x00#8, 0xFFFFFF#24, fun _ => .nop⟩,
    ⟨0x10#8, 0xFFFFFF#24, fun _ => .encStart⟩,
    ⟨0x11#8, 0xFFFF00#24, fun o => .encByte (o.extractLsb' 0 8)⟩,
    ⟨0x12#8, 0xFFFFFF#24, fun _ => .encEnd⟩,
    ⟨0x20#8, 0xFFFFFF#24, fun _ => .decStart⟩,
    ⟨0x21#8, 0x000000#24, fun o => .decCode o⟩,
    ⟨0x22#8, 0xFFFFFF#24, fun _ => .decEnd⟩,
    ⟨0x30#8, 0xFFFFFF#24, fun _ => .packStart⟩,
    ⟨0x31#8, 0xFFF000#24, fun o => .packCode (o.extractLsb' 0 12)⟩,
    ⟨0x32#8, 0xFFFFFF#24, fun _ => .packEnd⟩,
    ⟨0x40#8, 0x000000#24, fun o => .unpkStart o⟩,
    ⟨0x41#8, 0xFFFF00#24, fun o => .unpkByte (o.extractLsb' 0 8)⟩,
    ⟨0x42#8, 0xFFFFFF#24, fun _ => .unpkEnd⟩ ]

/-- `unitid(u)`, the unit field of the unit's opcodes (30_encoding.md R80, R89). -/
def unitId : UnitId → BitVec 4
  | .enc => 1#4
  | .dec => 2#4
  | .pack => 3#4
  | .unpk => 4#4

/-- The opcode byte of a command word (30_encoding.md R80). -/
def opcodeOf (w : Word) : BitVec 8 := w.extractLsb' 24 8

/-- The operand field of a command word (30_encoding.md R80). -/
def operandOf (w : Word) : Operand := w.extractLsb' 0 24

/-- `decode(u, cmd)` of 30_encoding.md R89: the opcode first, then the unit, then the operand bits. -/
def decodeCmd (u : UnitId) (w : Word) : Decoded :=
  match opcodeMap.find? (fun r => r.opcode == opcodeOf w) with
  | none => .illegal .undefinedOpcode
  | some r =>
    if opcodeOf w ≠ 0x00#8 ∧ (opcodeOf w).extractLsb' 4 4 ≠ unitId u then .illegal .wrongUnit
    else if operandOf w &&& r.mbz ≠ 0#24 then .illegal .operand
    else .cmd (r.build (operandOf w))

/-- An address on the CSR read port (30_encoding.md R96): every address is a read. -/
def decodeCsr (a : BitVec 8) : Instr := .csrRead a

/-- The opcode of an instruction (30_encoding.md R81); a CSR read has none. -/
def Instr.opcode : Instr → BitVec 8
  | .nop => 0x00#8
  | .encStart => 0x10#8
  | .encByte _ => 0x11#8
  | .encEnd => 0x12#8
  | .decStart => 0x20#8
  | .decCode _ => 0x21#8
  | .decEnd => 0x22#8
  | .packStart => 0x30#8
  | .packCode _ => 0x31#8
  | .packEnd => 0x32#8
  | .unpkStart _ => 0x40#8
  | .unpkByte _ => 0x41#8
  | .unpkEnd => 0x42#8
  | .csrRead _ => 0x00#8

/-- The operand field of an instruction, zero-extended (30_encoding.md R83); for a CSR read the address
bits 7:0 of its port. -/
def Instr.operand : Instr → Operand
  | .encByte c => c.setWidth 24
  | .decCode k => k
  | .packCode k => k.setWidth 24
  | .unpkStart n => n
  | .unpkByte b => b.setWidth 24
  | .csrRead a => a.setWidth 24
  | .nop | .encStart | .encEnd | .decStart | .decEnd | .packStart | .packEnd | .unpkEnd => 0#24

/-- The word of an instruction, `(opcode << 24) | operand` (30_encoding.md R80, R97). A CSR read has no
command word; its word is its 8-bit address, zero-extended. -/
def encode (i : Instr) : Word := i.opcode ++ i.operand

/-- How many bits the instruction has on its port: a 32-bit command word, or an 8-bit CSR address. -/
def Instr.nbits : Instr → Nat
  | .csrRead _ => 8
  | .nop | .encStart | .encByte _ | .encEnd | .decStart | .decCode _ | .decEnd | .packStart | .packCode _
  | .packEnd | .unpkStart _ | .unpkByte _ | .unpkEnd => 32

/-- The command port that an opcode's unit field names; a word of the common opcode, or of no unit, is put
on ENC's port (log 17). -/
def portOf (w : Word) : UnitId :=
  if w.extractLsb' 28 4 = unitId .dec then .dec
  else if w.extractLsb' 28 4 = unitId .pack then .pack
  else if w.extractLsb' 28 4 = unitId .unpk then .unpk
  else .enc

/-- The instruction the decoder reads from a row's bits as spec/opcode_table.json numbers them: a row of 8
bits is a CSR address, any other a command word on the port its unit field names. -/
def decodeTableWord (nbits w : Nat) : Option Instr :=
  if nbits ≤ 8 then some (decodeCsr (BitVec.ofNat 8 w))
  else match decodeCmd (portOf (BitVec.ofNat 32 w)) (BitVec.ofNat 32 w) with
    | .cmd i => some i
    | .illegal _ => none

end Sys2Proof
end

