-- ==== Sys2Proof/Machine/State.lean ====
section
/-! DEFINITION. The state of the block as plain data (10_state.md), the host's side of its ports, the reset
state (10_state.md R44), and the reasons a step can stop. -/

namespace Sys2Proof.Machine

/-- A unit's run state (10_state.md R23, R24). -/
inductive Phase where
  | idle
  | opened
  | run
  | fault
  deriving DecidableEq, Repr

/-- An output item: a datum of the unit's width, or the end-of-stream mark (30_encoding.md R91, R92). -/
inductive Item (n : Nat) where
  | data (v : BitVec n)
  | eos
  deriving DecidableEq, Repr

/-- The faults of 60_exceptions.md R206, one constructor for each row. -/
inductive FaultKind where
  | undefinedOpcode
  | wrongUnit
  | operand
  | sequence
  | range
  | firstUnbound
  | empty
  | stale
  | excess
  | truncated
  | counter
  /-- recorded by a checking model only (40_dictionary.md R108); this model does not raise it (log 10) -/
  | reinsert
  deriving DecidableEq, Repr

/-- The fields every unit has (10_state.md R23), but for its output queue. -/
structure Ctl where
  phase : Phase
  done : Bool
  cause : BitVec 4
  detail : BitVec 4
  faultCmd : Word
  cmdq : List Word
  deriving DecidableEq, Repr

/-- A non-singleton binding: `code` is bound to the symbol of `pre` followed by `last`
(40_dictionary.md R101). -/
structure DictEntry where
  code : Code
  pre : Code
  last : Byte
  deriving DecidableEq, Repr

/-- A dictionary with its counter and epoch count: the synchronizer's state, of which ENC and DEC each
hold a copy (10_state.md R20, R25, R26). The bindings are listed by falling code (log 9). -/
structure Sync where
  nextCode : BitVec 13
  epoch : Word
  dict : List DictEntry
  deriving DecidableEq, Repr

/-- The encoder (10_state.md R23, R25). -/
structure EncUnit where
  ctl : Ctl
  oq : List (Item 12)
  w : Code
  sync : Sync
  inBytes : Word
  outCodes : Word
  deriving DecidableEq, Repr

/-- The decoder (10_state.md R23, R26). -/
structure DecUnit where
  ctl : Ctl
  oq : List (Item 8)
  prior : Code
  sync : Sync
  anom : Bool
  stale : Bool
  inCodes : Word
  outBytes : Word
  deriving DecidableEq, Repr

/-- The packer (10_state.md R23, R27). -/
structure PackUnit where
  ctl : Ctl
  oq : List (Item 8)
  hold : Bool
  nib : BitVec 4
  inCodes : Word
  outBytes : Word
  deriving DecidableEq, Repr

/-- UNPK.pos, the position in the current group (10_state.md R28); the code 3 never occurs (log 13). -/
inductive GroupPos where
  | byte0
  | byte1
  | byte2
  deriving DecidableEq, Repr

/-- The unpacker (10_state.md R23, R28). -/
structure UnpkUnit where
  ctl : Ctl
  oq : List (Item 12)
  expected : BitVec 24
  produced : BitVec 24
  pos : GroupPos
  acc : Byte
  inBytes : Word
  deriving DecidableEq, Repr

/-- The moves of the host (45_common.md R191, R196, R197) and the unit steps (R192). -/
inductive Move where
  /-- the handshake of the next offered word on u's command port -/
  | accept (u : UnitId)
  /-- the host takes the head item of u's output queue -/
  | drain (u : UnitId)
  /-- a read on the CSR port -/
  | csrRead (a : BitVec 8)
  /-- rst_n goes low -/
  | assertReset
  /-- rst_n goes high -/
  | deassertReset
  /-- Step(u) -/
  | unitStep (u : UnitId)
  deriving DecidableEq, Repr

/-- One CSR read as the host saw it. -/
structure CsrReading where
  addr : BitVec 8
  value : Word
  deriving DecidableEq, Repr

/-- The host's side of the ports: the words it holds on the command ports (log 5), what it has read (log 7),
and which move comes next (log 2). -/
structure HostSide where
  offered : PerUnit (List Word)
  encTaken : List (Item 12)
  decTaken : List (Item 8)
  packTaken : List (Item 8)
  unpkTaken : List (Item 12)
  csrReads : List CsrReading
  schedule : List Move
  deriving DecidableEq, Repr

/-- The whole state: four units, the pin rst_n (true: deasserted), the OPEN parameters, the host's side. -/
structure State where
  enc : EncUnit
  dec : DecUnit
  pack : PackUnit
  unpk : UnpkUnit
  rstN : Bool
  params : Params
  host : HostSide
  deriving DecidableEq, Repr

/-- The machine never stops with a fault: every fault of the spec is a record in its unit and the machine
goes on (60_exceptions.md R200, R204). So nothing raises one, and the type has no constructor (safe). -/
inductive Fault where
  deriving DecidableEq, Repr

/-- Why an instruction has no meaning. -/
inductive Refusal where
  /-- raised by `exec` for an instruction still without a meaning (safe); no arm raises it -/
  | notModelled (mnemonic : String)
  deriving DecidableEq, Repr

/-- The common fields after hardware reset (10_state.md R44). -/
def Ctl.reset : Ctl where
  phase := .idle
  done := false
  cause := 0#4
  detail := 0#4
  faultCmd := 0#32
  cmdq := []

/-- A dictionary after hardware reset: nothing bound beyond the singletons (10_state.md R44). -/
def Sync.reset : Sync where
  nextCode := 256#13
  epoch := 0#32
  dict := []

/-- 10_state.md R44 -/
def EncUnit.reset : EncUnit where
  ctl := Ctl.reset
  oq := []
  w := 0#12
  sync := Sync.reset
  inBytes := 0#32
  outCodes := 0#32

/-- 10_state.md R44 -/
def DecUnit.reset : DecUnit where
  ctl := Ctl.reset
  oq := []
  prior := 0#12
  sync := Sync.reset
  anom := false
  stale := false
  inCodes := 0#32
  outBytes := 0#32

/-- 10_state.md R44 -/
def PackUnit.reset : PackUnit where
  ctl := Ctl.reset
  oq := []
  hold := false
  nib := 0#4
  inCodes := 0#32
  outBytes := 0#32

/-- 10_state.md R44 -/
def UnpkUnit.reset : UnpkUnit where
  ctl := Ctl.reset
  oq := []
  expected := 0#24
  produced := 0#24
  pos := .byte0
  acc := 0#8
  inBytes := 0#32

/-- The host has offered, read and scheduled nothing. -/
def HostSide.reset : HostSide where
  offered := ⟨[], [], [], []⟩
  encTaken := []
  decTaken := []
  packTaken := []
  unpkTaken := []
  csrReads := []
  schedule := []

/-- The machine right after reset: every unit as 10_state.md R44 says, rst_n deasserted again (log 6), the
depths any legal ones (log 1). -/
def State.reset : State where
  enc := EncUnit.reset
  dec := DecUnit.reset
  pack := PackUnit.reset
  unpk := UnpkUnit.reset
  rstN := true
  params := Config.params
  host := HostSide.reset

end Sys2Proof.Machine
end

