-- ==== Sys2Proof/Machine/Ops.lean ====
section
/-! DEFINITION. The shared operations: taking a fault and returning from one (60_exceptions.md R204, R210),
the output and command queues, and access to a unit's common fields by its name. -/

namespace Sys2Proof.Machine

/-- The outcome of an instruction or a move. -/
abbrev Result := Host.Outcome State Fault Refusal

/-! ### Faults -/

/-- The cause code recorded with a fault (60_exceptions.md R205, R206). -/
def FaultKind.cause : FaultKind → BitVec 4
  | .undefinedOpcode | .wrongUnit | .operand | .sequence => 1#4
  | .range | .firstUnbound | .empty | .stale | .excess | .truncated => 2#4
  | .counter | .reinsert => 3#4

/-- The detail code recorded with a fault (60_exceptions.md R206). -/
def FaultKind.detail : FaultKind → BitVec 4
  | .undefinedOpcode => 1#4
  | .wrongUnit => 2#4
  | .operand => 3#4
  | .sequence => 4#4
  | .range => 1#4
  | .firstUnbound => 2#4
  | .empty => 3#4
  | .stale => 4#4
  | .excess => 5#4
  | .truncated => 6#4
  | .counter => 1#4
  | .reinsert => 2#4

/-- The fault of an illegal command word (60_exceptions.md R203). -/
def illegalKind : DecodeError → FaultKind
  | .undefinedOpcode => .undefinedOpcode
  | .wrongUnit => .wrongUnit
  | .operand => .operand

/-- Fault entry (60_exceptions.md R204): the record is written, the phase is FAULT, and `done` and the
command queue keep their values. -/
def Ctl.raise (c : Ctl) (k : FaultKind) (cmd : Word) : Ctl :=
  { c with phase := .fault, cause := k.cause, detail := k.detail, faultCmd := cmd }

/-- Whether a well-formed START executes: always but in FAULT with cause 3, DICTIONARY_OVERFLOW
(45_common.md R195, 60_exceptions.md R210). -/
def Ctl.canStart (c : Ctl) : Bool :=
  !(decide (c.phase = .fault) && decide (c.cause = 3#4))

/-- What START does to the common fields, which is also the return from a fault (60_exceptions.md R210,
10_state.md R45): the record and `done` are cleared, the command queue is kept. -/
def Ctl.restart (c : Ctl) (ph : Phase) : Ctl :=
  { c with phase := ph, done := false, cause := 0#4, detail := 0#4, faultCmd := 0#32 }

/-- What a successful END does to the common fields (41_encoder.md R124 and its three counterparts). -/
def Ctl.finish (c : Ctl) : Ctl :=
  { c with phase := .idle, done := true }

/-- What a command word does to a unit in which it is illegal: it is dropped in FAULT and faults in every
other phase (45_common.md R195). -/
def Ctl.takeIllegal (c : Ctl) (e : DecodeError) (cmd : Word) : Ctl :=
  if c.phase = .fault then c else c.raise (illegalKind e) cmd

/-! ### Queues and counts -/

/-- `emit` of 00_scope.md R15, for several items in order. -/
def emit {n : Nat} (oq : List (Item n)) (items : List (Item n)) : List (Item n) := oq ++ items

/-- A count register after `k` more data items, modulo 2^32 (10_state.md R40). -/
def bump (count : Word) (k : Nat) : Word := count + BitVec.ofNat 32 k

/-! ### A unit's fields by its name -/

namespace State

/-- The common fields of unit `u`. -/
def ctl (s : State) : UnitId → Ctl
  | .enc => s.enc.ctl
  | .dec => s.dec.ctl
  | .pack => s.pack.ctl
  | .unpk => s.unpk.ctl

/-- `s` with the common fields of unit `u` replaced. -/
def setCtl (s : State) (u : UnitId) (c : Ctl) : State :=
  match u with
  | .enc => { s with enc := { s.enc with ctl := c } }
  | .dec => { s with dec := { s.dec with ctl := c } }
  | .pack => { s with pack := { s.pack with ctl := c } }
  | .unpk => { s with unpk := { s.unpk with ctl := c } }

/-- OQ_LEVEL of unit `u` (10_state.md R38). -/
def oqLen (s : State) : UnitId → Nat
  | .enc => s.enc.oq.length
  | .dec => s.dec.oq.length
  | .pack => s.pack.oq.length
  | .unpk => s.unpk.oq.length

/-- `s` with the command queue of unit `u` replaced. -/
def setCmdq (s : State) (u : UnitId) (q : List Word) : State :=
  s.setCtl u { s.ctl u with cmdq := q }

/-- `s` with the words the host holds on u's command port replaced. -/
def setOffered (s : State) (u : UnitId) (q : List Word) : State :=
  { s with host := { s.host with offered := s.host.offered.set u q } }

/-- `s` with the schedule replaced. -/
def setSchedule (s : State) (l : List Move) : State :=
  { s with host := { s.host with schedule := l } }

/-- A word that is illegal on u's port (45_common.md R195). -/
def takeIllegal (s : State) (u : UnitId) (e : DecodeError) (cmd : Word) : State :=
  s.setCtl u ((s.ctl u).takeIllegal e cmd)

/-- Hardware reset (45_common.md R197): every field of every unit takes its reset value and rst_n is low.
The depths are fixed, and what the host holds and has read stays. -/
def hardwareReset (s : State) : State :=
  { s with enc := EncUnit.reset, dec := DecUnit.reset, pack := PackUnit.reset, unpk := UnpkUnit.reset,
           rstN := false }

/-- The host takes the first `k` items of u's output queue, in order (45_common.md R191). -/
def take (s : State) (u : UnitId) (k : Nat) : State :=
  match u with
  | .enc => { s with enc := { s.enc with oq := s.enc.oq.drop k },
                     host := { s.host with encTaken := s.host.encTaken ++ s.enc.oq.take k } }
  | .dec => { s with dec := { s.dec with oq := s.dec.oq.drop k },
                     host := { s.host with decTaken := s.host.decTaken ++ s.dec.oq.take k } }
  | .pack => { s with pack := { s.pack with oq := s.pack.oq.drop k },
                      host := { s.host with packTaken := s.host.packTaken ++ s.pack.oq.take k } }
  | .unpk => { s with unpk := { s.unpk with oq := s.unpk.oq.drop k },
                      host := { s.host with unpkTaken := s.host.unpkTaken ++ s.unpk.oq.take k } }

end State

end Sys2Proof.Machine
end

