-- ==== Sys2Proof/Machine/Operands.lean ====
section
/-! DEFINITION. The operand and data slices: bytes and codes, and the packed layout of
30_encoding.md R93 bit by bit. No operand is sign-extended, scaled or shifted (R83). -/

namespace Sys2Proof.Machine

/-- The code of the one-byte symbol [c] (40_dictionary.md R102). -/
def byteCode (c : Byte) : Code := c.setWidth 12

/-- The byte a singleton code names (40_dictionary.md R102). -/
def codeByte (k : Code) : Byte := k.setWidth 8

/-- The code in a DEC.CODE operand that is at most 4095 (30_encoding.md R84). -/
def operandCode (k : Operand) : Code := k.setWidth 12

/-- byte0 of a group: `code0[11:4]` (30_encoding.md R93). -/
def packByte0 (code0 : Code) : Byte := code0.extractLsb' 4 8

/-- The nibble PACK holds: `code0[3:0]` (43_bitpacker.md R162). -/
def heldNibble (code0 : Code) : BitVec 4 := code0.extractLsb' 0 4

/-- byte1 of a group: `(code0[3:0] << 4) | code1[11:8]` (30_encoding.md R93). -/
def packByte1 (nib : BitVec 4) (code1 : Code) : Byte := nib ++ code1.extractLsb' 8 4

/-- byte2 of a group: `code1[7:0]` (30_encoding.md R93). -/
def packByte2 (code1 : Code) : Byte := code1.extractLsb' 0 8

/-- The last byte of an odd final group: the nibble above four zero bits (30_encoding.md R93). -/
def padByte (nib : BitVec 4) : Byte := nib ++ 0#4

/-- code0 of a group: `(byte0 << 4) | byte1[7:4]` (44_bitunpacker.md R178). -/
def unpackCode0 (byte0 byte1 : Byte) : Code := byte0 ++ byte1.extractLsb' 4 4

/-- What UNPK carries of byte1: `byte1[3:0]`, zero-extended (44_bitunpacker.md R178). -/
def carriedNibble (byte1 : Byte) : Byte := (byte1.extractLsb' 0 4).setWidth 8

/-- code1 of a group: `(acc << 8) | byte2` in 12 bits (44_bitunpacker.md R179; log 15 for acc above 15). -/
def unpackCode1 (acc byte2 : Byte) : Code := acc.extractLsb' 0 4 ++ byte2

end Sys2Proof.Machine
end

