-- ==== Sys2Proof/Machine/Dictionary.lean ====
section
/-! DEFINITION. The dictionary primitives and the epoch-reset synchronizer (40_dictionary.md), once for ENC
and DEC alike (R117). -/

namespace Sys2Proof.Machine

/-- `bound(u, k)` (40_dictionary.md R103). -/
def Sync.bound (y : Sync) (k : Nat) : Bool := decide (k < y.nextCode.toNat)

/-- `Lookup(p, c)` (40_dictionary.md R105). -/
def lookup (d : List DictEntry) (p : Code) (c : Byte) : Option Code :=
  match d with
  | [] => none
  | e :: rest => if e.pre = p ∧ e.last = c then some e.code else lookup rest p c

/-- The entry stored under code `x`, if one is (10_state.md R34). -/
def entryAt (d : List DictEntry) (x : Code) : Option DictEntry :=
  match d with
  | [] => none
  | e :: rest => if e.code = x then some e else entryAt rest x

/-- `Insert(u, x, (p, c))` (40_dictionary.md R108): code `x` takes the entry, and the list stays in falling
order of codes. -/
def insertEntry (d : List DictEntry) (x p : Code) (c : Byte) : List DictEntry :=
  match d with
  | [] => [⟨x, p, c⟩]
  | e :: rest =>
    if e.code.toNat < x.toNat then ⟨x, p, c⟩ :: e :: rest
    else if e.code = x then ⟨x, p, c⟩ :: rest
    else e :: insertEntry rest x p c

/-- The canonical form of a dictionary: codes strictly falling (log 9). -/
def dictWf : List DictEntry → Bool
  | [] => true
  | [_] => true
  | e :: e' :: rest => decide (e'.code.toNat < e.code.toNat) && dictWf (e' :: rest)

/-- `symD(k)` and `symE(k)` (40_dictionary.md R104). A code's prefix is a smaller code (R111), so it is
looked for among the entries after its own; a code with no entry gives a free symbol (log 8). -/
def symbolOf (d : List DictEntry) (k : Code) : List Byte :=
  match d with
  | [] => if k.toNat < 256 then [codeByte k] else Config.unboundFirst k :: Config.unboundRest k
  | e :: rest =>
    if k.toNat < 256 then [codeByte k]
    else if e.code = k then symbolOf rest e.pre ++ [e.last]
    else symbolOf rest k

/-- `firstb(k)`, the first byte of the symbol of `k` (40_dictionary.md R104). -/
def firstByte (d : List DictEntry) (k : Code) : Byte :=
  match d with
  | [] => if k.toNat < 256 then codeByte k else Config.unboundFirst k
  | e :: rest =>
    if k.toNat < 256 then codeByte k
    else if e.code = k then firstByte rest e.pre
    else firstByte rest k

/-- `lenD(k)` (40_dictionary.md R104). -/
def symbolLen (d : List DictEntry) (k : Code) : Nat := (symbolOf d k).length

/-- `DictReset(u)` (40_dictionary.md R107). -/
def Sync.dictReset (y : Sync) : Sync := { y with nextCode := 256#13, dict := [] }

/-- The code the next insertion binds: `x` of 40_dictionary.md R106 as a 12-bit code. -/
def Sync.nextAsCode (y : Sync) : Code := y.nextCode.setWidth 12

/-- `SyncInsert(u, (p, c))`, the epoch-reset synchronizer (40_dictionary.md R106). -/
def Sync.insert (y : Sync) (p : Code) (c : Byte) : Sync :=
  let y' : Sync := { y with dict := insertEntry y.dict y.nextAsCode p c, nextCode := y.nextCode + 1#13 }
  if y'.nextCode = 4096#13 then { y'.dictReset with epoch := y'.epoch + 1#32 } else y'

/-- The DictionaryOverflow check (40_dictionary.md R110). -/
def Sync.overflow (y : Sync) : Bool := decide (Config.threshold ≤ y.nextCode.toNat)

/-- What START does to a dictionary: `reset()` and a zero epoch count (10_state.md R45). -/
def Sync.start (y : Sync) : Sync := { y.dictReset with epoch := 0#32 }

end Sys2Proof.Machine
end

