-- ==== Sys2Proof/Machine/Flags.lean ====
section
/-! DEFINITION. The flags and the STATUS register (10_state.md R29, R37). -/

namespace Sys2Proof.Machine

/-- STATUS.PHASE (10_state.md R23, R37). -/
def Phase.code : Phase → BitVec 2
  | .idle => 0#2
  | .opened => 1#2
  | .run => 2#2
  | .fault => 3#2

/-- UNPK.pos as two bits (10_state.md R28). -/
def GroupPos.code : GroupPos → BitVec 2
  | .byte0 => 0#2
  | .byte1 => 1#2
  | .byte2 => 2#2

/-- A flag as one bit. -/
def flagBit (b : Bool) : BitVec 1 := BitVec.ofBool b

/-- The STATUS register, from bit 31 down to bit 0 (10_state.md R37). -/
def statusWord (c : Ctl) (anom stale : Bool) : Word :=
  0#18 ++ flagBit stale ++ flagBit anom ++ c.detail ++ c.cause ++ 0#1 ++ flagBit c.done ++ c.phase.code

/-- DEC.anom after a step that decoded value `k` with next code `x` (42_decoder.md R145): set by an unbound
code other than `x`, never cleared. -/
def anomAfter (anom : Bool) (k x : Nat) : Bool := anom || decide (x < k)

/-- DEC.stale after a step (42_decoder.md R143, R147): set when the step made an epoch reset and its
codeword is no singleton, never cleared. -/
def staleAfter (stale : Bool) (epochBefore epochAfter : Word) (cw : Code) : Bool :=
  stale || (decide (epochAfter ≠ epochBefore) && decide (256 ≤ cw.toNat))

/-- `fault_o(u)` (45_common.md R199). -/
def faultOut (c : Ctl) : Bool := decide (c.phase = .fault)

end Sys2Proof.Machine
end

