-- ==== Sys2Proof/Machine/Csr.lean ====
section
/-! DEFINITION. The CSR space, a read-only view of the state (10_state.md R35 to R42), and the CSR read
(45_common.md R196). -/

namespace Sys2Proof.Machine

/-- A number on the 32-bit CSR data lines, modulo 2^32 (log 16). -/
def csrNat (n : Nat) : Word := BitVec.ofNat 32 n

/-- Every mapped CSR: its address and value (10_state.md R36, R37, R38, R39). -/
def csrMap (s : State) : List (BitVec 8 × Word) :=
  [ (0x00#8, Config.idValue),
    (0x01#8, csrNat Config.codeWidth),
    (0x02#8, csrNat Config.threshold),
    (0x03#8, csrNat Config.firstFree),
    (0x04#8, csrNat Config.maxSymbolLen),
    (0x05#8, csrNat (s.params.oqDepth .enc)),
    (0x06#8, csrNat (s.params.oqDepth .dec)),
    (0x07#8, csrNat (s.params.oqDepth .pack)),
    (0x08#8, csrNat (s.params.oqDepth .unpk)),
    (0x09#8, csrNat s.params.cmdqDepth),
    (0x10#8, statusWord s.enc.ctl false false),
    (0x11#8, s.enc.ctl.faultCmd),
    (0x12#8, csrNat s.enc.oq.length),
    (0x13#8, csrNat s.enc.ctl.cmdq.length),
    (0x14#8, s.enc.sync.nextCode.setWidth 32),
    (0x15#8, s.enc.w.setWidth 32),
    (0x16#8, s.enc.inBytes),
    (0x17#8, s.enc.outCodes),
    (0x18#8, s.enc.sync.epoch),
    (0x20#8, statusWord s.dec.ctl s.dec.anom s.dec.stale),
    (0x21#8, s.dec.ctl.faultCmd),
    (0x22#8, csrNat s.dec.oq.length),
    (0x23#8, csrNat s.dec.ctl.cmdq.length),
    (0x24#8, s.dec.sync.nextCode.setWidth 32),
    (0x25#8, s.dec.prior.setWidth 32),
    (0x26#8, s.dec.inCodes),
    (0x27#8, s.dec.outBytes),
    (0x28#8, s.dec.sync.epoch),
    (0x30#8, statusWord s.pack.ctl false false),
    (0x31#8, s.pack.ctl.faultCmd),
    (0x32#8, csrNat s.pack.oq.length),
    (0x33#8, csrNat s.pack.ctl.cmdq.length),
    (0x34#8, (flagBit s.pack.hold ++ s.pack.nib).setWidth 32),
    (0x35#8, s.pack.inCodes),
    (0x36#8, s.pack.outBytes),
    (0x40#8, statusWord s.unpk.ctl false false),
    (0x41#8, s.unpk.ctl.faultCmd),
    (0x42#8, csrNat s.unpk.oq.length),
    (0x43#8, csrNat s.unpk.ctl.cmdq.length),
    (0x44#8, s.unpk.expected.setWidth 32),
    (0x45#8, s.unpk.produced.setWidth 32),
    (0x46#8, s.unpk.inBytes),
    (0x47#8, (s.unpk.acc ++ 0#6 ++ s.unpk.pos.code).setWidth 32) ]

/-- The value at an address of a map; an address it does not list reads 0 (10_state.md R41). -/
def csrAt (m : List (BitVec 8 × Word)) (a : BitVec 8) : Word :=
  match m with
  | [] => 0#32
  | r :: rest => if r.1 = a then r.2 else csrAt rest a

/-- `csr[a]` (00_scope.md R15, 45_common.md R196). -/
def readCsr (s : State) (a : BitVec 8) : Word := csrAt (csrMap s) a

/-- The host has read `v` at address `a`. -/
def State.recordCsr (s : State) (a : BitVec 8) (v : Word) : State :=
  { s with host := { s.host with csrReads := s.host.csrReads ++ [⟨a, v⟩] } }

end Sys2Proof.Machine
end

