-- ==== Sys2Proof/Machine/Common.lean ====
section
/-! DEFINITION. The common command `nop` (45_common.md R194) and the CSR read (R196). -/

namespace Sys2Proof.Machine

/-- `nop`: nothing in any phase; the step that runs it only removes it from its queue (45_common.md R194). -/
def execNop (s : State) : Result := .next s

/-- ReadCSR(a): the host gets `csr[a]` of the current state and no state of the block changes
(45_common.md R196). -/
def execCsrRead (a : BitVec 8) (s : State) : Result := .next (s.recordCsr a (readCsr s a))

end Sys2Proof.Machine
end

