-- ==== Sys2Proof/Machine/Dec.lean ====
section
/-! DEFINITION. The decoder's commands (42_decoder.md R140 to R150). -/

namespace Sys2Proof.Machine

namespace DecUnit

/-- Fault entry of DEC (60_exceptions.md R204). -/
def fault (d : DecUnit) (k : FaultKind) (cmd : Word) : DecUnit := { d with ctl := d.ctl.raise k cmd }

/-- DEC.START (42_decoder.md R141). -/
def start (d : DecUnit) : DecUnit :=
  { d with ctl := d.ctl.restart .opened, sync := d.sync.start, prior := 0#12, anom := false, stale := false,
           inCodes := 0#32, outBytes := 0#32 }

/-- DEC.CODE in phase OPEN (42_decoder.md R142). -/
def firstCodeIn (d : DecUnit) (k : Operand) : DecUnit :=
  if 4095 < k.toNat then d.fault .range (encode (.decCode k))
  else if 256 ≤ k.toNat then d.fault .firstUnbound (encode (.decCode k))
  else
    { d with oq := emit d.oq [.data (codeByte (operandCode k))], prior := operandCode k, inCodes := 1#32,
             outBytes := 1#32, ctl := { d.ctl with phase := .run } }

/-- `cw`: the code that names the codeword of value `k` (42_decoder.md R143, R144, R145). -/
def codeword (d : DecUnit) (k : Operand) : Code :=
  if d.sync.bound k.toNat then operandCode k else d.sync.nextAsCode

/-- `s`: the codeword's bytes, the special case among them (42_decoder.md R143, R144, R145). -/
def codewordBytes (d : DecUnit) (k : Operand) : List Byte :=
  if d.sync.bound k.toNat then symbolOf d.sync.dict (operandCode k)
  else symbolOf d.sync.dict d.prior ++ [firstByte d.sync.dict d.prior]

/-- `s[0]`: the codeword's first byte (42_decoder.md R144, R145). -/
def codewordFirst (d : DecUnit) (k : Operand) : Byte :=
  if d.sync.bound k.toNat then firstByte d.sync.dict (operandCode k) else firstByte d.sync.dict d.prior

/-- The part of DEC.CODE in phase RUN after its checks (42_decoder.md R143). -/
def decodeOne (d : DecUnit) (k : Operand) : DecUnit :=
  let sync' := d.sync.insert d.prior (d.codewordFirst k)
  { d with sync := sync',
           oq := emit d.oq ((d.codewordBytes k).map .data),
           outBytes := bump d.outBytes (d.codewordBytes k).length,
           inCodes := bump d.inCodes 1,
           prior := d.codeword k,
           anom := anomAfter d.anom k.toNat d.sync.nextCode.toNat,
           stale := staleAfter d.stale d.sync.epoch sync'.epoch (d.codeword k) }

/-- DEC.CODE in phase RUN (42_decoder.md R143), the checks in the order of 60_exceptions.md R208. -/
def nextCodeIn (d : DecUnit) (k : Operand) : DecUnit :=
  if 4095 < k.toNat then d.fault .range (encode (.decCode k))
  else if d.stale then d.fault .stale (encode (.decCode k))
  else if d.sync.overflow then d.fault .counter (encode (.decCode k))
  else d.decodeOne k

/-- The Eos of a run (42_decoder.md R148, phase RUN). -/
def finishRun (d : DecUnit) : DecUnit := { d with oq := emit d.oq [.eos], ctl := d.ctl.finish }

/-- `dec.start` in every phase (42_decoder.md R140). -/
def onStart (d : DecUnit) : DecUnit := if d.ctl.canStart then d.start else d

/-- `dec.code k` in every phase (42_decoder.md R140, R149). -/
def onCode (d : DecUnit) (k : Operand) : DecUnit :=
  match d.ctl.phase with
  | .idle => d.fault .sequence (encode (.decCode k))
  | .opened => d.firstCodeIn k
  | .run => d.nextCodeIn k
  | .fault => d

/-- `dec.end` in every phase (42_decoder.md R140, R148, R149). -/
def onEnd (d : DecUnit) : DecUnit :=
  match d.ctl.phase with
  | .idle => d.fault .sequence (encode .decEnd)
  | .opened => d.fault .empty (encode .decEnd)
  | .run => d.finishRun
  | .fault => d

/-- Items `dec.code k` would emit (42_decoder.md R150). -/
def noutCode (d : DecUnit) (k : Operand) : Nat :=
  match d.ctl.phase with
  | .opened => if k.toNat < 256 then 1 else 0
  | .run =>
    if 4095 < k.toNat ∨ d.stale = true ∨ d.sync.overflow = true then 0
    else if d.sync.bound k.toNat then symbolLen d.sync.dict (operandCode k)
    else symbolLen d.sync.dict d.prior + 1
  | .idle => 0
  | .fault => 0

/-- Items `dec.end` would emit (42_decoder.md R150). -/
def noutEnd (d : DecUnit) : Nat := if d.ctl.phase = .run then 1 else 0

end DecUnit

/-- `dec.start` (42_decoder.md R141). -/
def execDecStart (s : State) : Result := .next { s with dec := s.dec.onStart }

/-- `dec.code k` (42_decoder.md R142, R143, R149). -/
def execDecCode (k : Operand) (s : State) : Result := .next { s with dec := s.dec.onCode k }

/-- `dec.end` (42_decoder.md R148, R149). -/
def execDecEnd (s : State) : Result := .next { s with dec := s.dec.onEnd }

end Sys2Proof.Machine
end

