-- ==== Sys2Proof/Machine/Enc.lean ====
section
/-! DEFINITION. The encoder's commands (41_encoder.md R120 to R129). -/

namespace Sys2Proof.Machine

namespace EncUnit

/-- Fault entry of ENC (60_exceptions.md R204). -/
def fault (e : EncUnit) (k : FaultKind) (cmd : Word) : EncUnit := { e with ctl := e.ctl.raise k cmd }

/-- ENC.START (41_encoder.md R121). -/
def start (e : EncUnit) : EncUnit :=
  { e with ctl := e.ctl.restart .opened, sync := e.sync.start, w := 0#12, inBytes := 0#32, outCodes := 0#32 }

/-- ENC.BYTE in phase OPEN (41_encoder.md R122). -/
def firstByteIn (e : EncUnit) (c : Byte) : EncUnit :=
  { e with w := byteCode c, inBytes := bump e.inBytes 1, ctl := { e.ctl with phase := .run } }

/-- ENC.BYTE in phase RUN (41_encoder.md R123). -/
def nextByteIn (e : EncUnit) (c : Byte) : EncUnit :=
  match lookup e.sync.dict e.w c with
  | some x => { e with inBytes := bump e.inBytes 1, w := x }
  | none =>
    if e.sync.overflow then e.fault .counter (encode (.encByte c))
    else
      { e with inBytes := bump e.inBytes 1, oq := emit e.oq [.data e.w], outCodes := bump e.outCodes 1,
               sync := e.sync.insert e.w c, w := byteCode c }

/-- The final code of a run and its Eos (41_encoder.md R124, phase RUN). -/
def finishRun (e : EncUnit) : EncUnit :=
  { e with oq := emit e.oq [.data e.w, .eos], outCodes := bump e.outCodes 1, ctl := e.ctl.finish }

/-- The Eos of an empty run (41_encoder.md R124, phase OPEN). -/
def finishEmpty (e : EncUnit) : EncUnit :=
  { e with oq := emit e.oq [.eos], ctl := e.ctl.finish }

/-- `enc.start` in every phase (41_encoder.md R120). -/
def onStart (e : EncUnit) : EncUnit := if e.ctl.canStart then e.start else e

/-- `enc.byte c` in every phase (41_encoder.md R120, R125). -/
def onByte (e : EncUnit) (c : Byte) : EncUnit :=
  match e.ctl.phase with
  | .idle => e.fault .sequence (encode (.encByte c))
  | .opened => e.firstByteIn c
  | .run => e.nextByteIn c
  | .fault => e

/-- `enc.end` in every phase (41_encoder.md R120, R125). -/
def onEnd (e : EncUnit) : EncUnit :=
  match e.ctl.phase with
  | .idle => e.fault .sequence (encode .encEnd)
  | .opened => e.finishEmpty
  | .run => e.finishRun
  | .fault => e

/-- Items `enc.byte c` would emit (41_encoder.md R129). -/
def noutByte (e : EncUnit) (c : Byte) : Nat :=
  if e.ctl.phase = .run ∧ lookup e.sync.dict e.w c = none ∧ e.sync.overflow = false then 1 else 0

/-- Items `enc.end` would emit (41_encoder.md R129). -/
def noutEnd (e : EncUnit) : Nat :=
  match e.ctl.phase with
  | .opened => 1
  | .run => 2
  | .idle => 0
  | .fault => 0

end EncUnit

/-- `enc.start` (41_encoder.md R121). -/
def execEncStart (s : State) : Result := .next { s with enc := s.enc.onStart }

/-- `enc.byte c` (41_encoder.md R122, R123, R125). -/
def execEncByte (c : Byte) (s : State) : Result := .next { s with enc := s.enc.onByte c }

/-- `enc.end` (41_encoder.md R124, R125). -/
def execEncEnd (s : State) : Result := .next { s with enc := s.enc.onEnd }

end Sys2Proof.Machine
end

