-- ==== Sys2Proof/Machine/Pack.lean ====
section
/-! DEFINITION. The packer's commands (43_bitpacker.md R160 to R166). -/

namespace Sys2Proof.Machine

namespace PackUnit

/-- Fault entry of PACK (60_exceptions.md R204). -/
def fault (p : PackUnit) (k : FaultKind) (cmd : Word) : PackUnit := { p with ctl := p.ctl.raise k cmd }

/-- PACK.START (43_bitpacker.md R161). -/
def start (p : PackUnit) : PackUnit :=
  { p with ctl := p.ctl.restart .run, hold := false, nib := 0#4, inCodes := 0#32, outBytes := 0#32 }

/-- PACK.CODE at an even position (43_bitpacker.md R162). -/
def evenCodeIn (p : PackUnit) (k : Code) : PackUnit :=
  { p with oq := emit p.oq [.data (packByte0 k)], nib := heldNibble k, hold := true,
           inCodes := bump p.inCodes 1, outBytes := bump p.outBytes 1 }

/-- PACK.CODE at an odd position (43_bitpacker.md R163). -/
def oddCodeIn (p : PackUnit) (k : Code) : PackUnit :=
  { p with oq := emit p.oq [.data (packByte1 p.nib k), .data (packByte2 k)], nib := 0#4, hold := false,
           inCodes := bump p.inCodes 1, outBytes := bump p.outBytes 2 }

/-- PACK.END with a held nibble (43_bitpacker.md R164). -/
def finishOdd (p : PackUnit) : PackUnit :=
  { p with oq := emit p.oq [.data (padByte p.nib), .eos], outBytes := bump p.outBytes 1, nib := 0#4,
           hold := false, ctl := p.ctl.finish }

/-- PACK.END with no held nibble (43_bitpacker.md R164). -/
def finishEven (p : PackUnit) : PackUnit :=
  { p with oq := emit p.oq [.eos], ctl := p.ctl.finish }

/-- `pack.start` in every phase (43_bitpacker.md R160). -/
def onStart (p : PackUnit) : PackUnit := if p.ctl.canStart then p.start else p

/-- `pack.code k` in every phase (43_bitpacker.md R160, R165). PACK never takes phase OPEN; there it faults
as in IDLE (log 11). -/
def onCode (p : PackUnit) (k : Code) : PackUnit :=
  match p.ctl.phase with
  | .idle => p.fault .sequence (encode (.packCode k))
  | .opened => p.fault .sequence (encode (.packCode k))
  | .run => if p.hold then p.oddCodeIn k else p.evenCodeIn k
  | .fault => p

/-- `pack.end` in every phase (43_bitpacker.md R160, R165; log 11). -/
def onEnd (p : PackUnit) : PackUnit :=
  match p.ctl.phase with
  | .idle => p.fault .sequence (encode .packEnd)
  | .opened => p.fault .sequence (encode .packEnd)
  | .run => if p.hold then p.finishOdd else p.finishEven
  | .fault => p

/-- Items `pack.code k`, and likewise `pack.end`, would emit (43_bitpacker.md R166). -/
def noutHold (p : PackUnit) : Nat :=
  if p.ctl.phase = .run then (if p.hold then 2 else 1) else 0

end PackUnit

/-- `pack.start` (43_bitpacker.md R161). -/
def execPackStart (s : State) : Result := .next { s with pack := s.pack.onStart }

/-- `pack.code k` (43_bitpacker.md R162, R163, R165). -/
def execPackCode (k : Code) (s : State) : Result := .next { s with pack := s.pack.onCode k }

/-- `pack.end` (43_bitpacker.md R164, R165). -/
def execPackEnd (s : State) : Result := .next { s with pack := s.pack.onEnd }

end Sys2Proof.Machine
end

