-- ==== Sys2Proof/Machine/Unpk.lean ====
section
/-! DEFINITION. The unpacker's commands (44_bitunpacker.md R175 to R182). -/

namespace Sys2Proof.Machine

namespace UnpkUnit

/-- Fault entry of UNPK (60_exceptions.md R204). -/
def fault (p : UnpkUnit) (k : FaultKind) (cmd : Word) : UnpkUnit := { p with ctl := p.ctl.raise k cmd }

/-- UNPK.START (44_bitunpacker.md R176). -/
def start (p : UnpkUnit) (n : BitVec 24) : UnpkUnit :=
  { p with ctl := p.ctl.restart .run, expected := n, produced := 0#24, pos := .byte0, acc := 0#8,
           inBytes := 0#32 }

/-- UNPK.BYTE at pos 0 (44_bitunpacker.md R177). -/
def byte0In (p : UnpkUnit) (b : Byte) : UnpkUnit :=
  if p.produced = p.expected then p.fault .excess (encode (.unpkByte b))
  else { p with acc := b, pos := .byte1, inBytes := bump p.inBytes 1 }

/-- UNPK.BYTE at pos 1 (44_bitunpacker.md R178). -/
def byte1In (p : UnpkUnit) (b : Byte) : UnpkUnit :=
  let last := decide (p.produced + 1#24 = p.expected)
  { p with oq := emit p.oq [.data (unpackCode0 p.acc b)],
           produced := p.produced + 1#24,
           inBytes := bump p.inBytes 1,
           acc := if last then 0#8 else carriedNibble b,
           pos := if last then .byte0 else .byte2 }

/-- UNPK.BYTE at pos 2 (44_bitunpacker.md R179). -/
def byte2In (p : UnpkUnit) (b : Byte) : UnpkUnit :=
  { p with oq := emit p.oq [.data (unpackCode1 p.acc b)],
           produced := p.produced + 1#24,
           inBytes := bump p.inBytes 1,
           acc := 0#8,
           pos := .byte0 }

/-- UNPK.BYTE in phase RUN. -/
def byteIn (p : UnpkUnit) (b : Byte) : UnpkUnit :=
  match p.pos with
  | .byte0 => p.byte0In b
  | .byte1 => p.byte1In b
  | .byte2 => p.byte2In b

/-- UNPK.END in phase RUN (44_bitunpacker.md R180). -/
def endIn (p : UnpkUnit) : UnpkUnit :=
  if p.pos ≠ .byte0 ∨ p.produced ≠ p.expected then p.fault .truncated (encode .unpkEnd)
  else { p with oq := emit p.oq [.eos], ctl := p.ctl.finish }

/-- `unpk.start N` in every phase (44_bitunpacker.md R175). -/
def onStart (p : UnpkUnit) (n : BitVec 24) : UnpkUnit := if p.ctl.canStart then p.start n else p

/-- `unpk.byte b` in every phase (44_bitunpacker.md R175, R181). UNPK never takes phase OPEN; there it
faults as in IDLE (log 11). -/
def onByte (p : UnpkUnit) (b : Byte) : UnpkUnit :=
  match p.ctl.phase with
  | .idle => p.fault .sequence (encode (.unpkByte b))
  | .opened => p.fault .sequence (encode (.unpkByte b))
  | .run => p.byteIn b
  | .fault => p

/-- `unpk.end` in every phase (44_bitunpacker.md R175, R181; log 11). -/
def onEnd (p : UnpkUnit) : UnpkUnit :=
  match p.ctl.phase with
  | .idle => p.fault .sequence (encode .unpkEnd)
  | .opened => p.fault .sequence (encode .unpkEnd)
  | .run => p.endIn
  | .fault => p

/-- Items `unpk.byte` would emit (44_bitunpacker.md R182). -/
def noutByte (p : UnpkUnit) : Nat :=
  if p.ctl.phase = .run ∧ p.pos ≠ .byte0 then 1 else 0

/-- Items `unpk.end` would emit (44_bitunpacker.md R182). -/
def noutEnd (p : UnpkUnit) : Nat :=
  if p.ctl.phase = .run ∧ p.pos = .byte0 ∧ p.produced = p.expected then 1 else 0

end UnpkUnit

/-- `unpk.start N` (44_bitunpacker.md R176). -/
def execUnpkStart (n : BitVec 24) (s : State) : Result := .next { s with unpk := s.unpk.onStart n }

/-- `unpk.byte b` (44_bitunpacker.md R177, R178, R179, R181). -/
def execUnpkByte (b : Byte) (s : State) : Result := .next { s with unpk := s.unpk.onByte b }

/-- `unpk.end` (44_bitunpacker.md R180, R181). -/
def execUnpkEnd (s : State) : Result := .next { s with unpk := s.unpk.onEnd }

end Sys2Proof.Machine
end

