-- ==== Sys2Proof/Machine/Dispatch.lean ====
section
/-! DEFINITION. Which meaning each instruction has: one arm for each constructor of `Instr`. -/

namespace Sys2Proof.Machine

-- 45_common.md R195: the phase is looked at in each meaning
def exec (i : Instr) (s : State) : Host.Outcome State Fault Refusal :=
  match i with
  | .nop => Sys2Proof.Machine.execNop s
  | .encStart => Sys2Proof.Machine.execEncStart s
  | .encByte c => Sys2Proof.Machine.execEncByte c s
  | .encEnd => Sys2Proof.Machine.execEncEnd s
  | .decStart => Sys2Proof.Machine.execDecStart s
  | .decCode k => Sys2Proof.Machine.execDecCode k s
  | .decEnd => Sys2Proof.Machine.execDecEnd s
  | .packStart => Sys2Proof.Machine.execPackStart s
  | .packCode k => Sys2Proof.Machine.execPackCode k s
  | .packEnd => Sys2Proof.Machine.execPackEnd s
  | .unpkStart n => Sys2Proof.Machine.execUnpkStart n s
  | .unpkByte b => Sys2Proof.Machine.execUnpkByte b s
  | .unpkEnd => Sys2Proof.Machine.execUnpkEnd s
  | .csrRead a => Sys2Proof.Machine.execCsrRead a s

end Sys2Proof.Machine
end

