-- ==== Sys2Proof/Machine/Ports.lean ====
section
/-! DEFINITION. The signals of the ports as functions of the state (45_common.md R190, R191, R199; log 20). -/

namespace Sys2Proof.Machine.State

/-- `cmd_valid` of u: the host holds a word on the port (45_common.md R191). -/
def cmdValid (s : State) (u : UnitId) : Bool := !(s.host.offered.get u).isEmpty

/-- `cmd_data` of u, when valid. -/
def cmdData (s : State) (u : UnitId) : Option Word := (s.host.offered.get u).head?

/-- `cmd_ready` of u: rst_n is deasserted and the command queue has room (45_common.md R191). -/
def cmdReady (s : State) (u : UnitId) : Bool :=
  s.rstN && s.params.cmdqFits ((s.ctl u).cmdq.length + 1)

/-- `out_valid` of u: rst_n is deasserted and the output queue holds an item (45_common.md R191). -/
def outValid (s : State) (u : UnitId) : Bool := s.rstN && decide (0 < s.oqLen u)

/-- `fault_o(u)` (45_common.md R199). -/
def faultO (s : State) (u : UnitId) : Bool := faultOut (s.ctl u)

/-- The lines `out_eos` and `out_data` for an item, in the port's width (30_encoding.md R91: an Eos has
data 0). -/
def outLines {n : Nat} : Item n → Bool × BitVec n
  | .data v => (false, v)
  | .eos => (true, 0#n)

end Sys2Proof.Machine.State
end

