-- ==== Sys2Proof/Machine/Moves.lean ====
section
/-! DEFINITION. The moves: the unit step with its hold rule and dispatch (45_common.md R192, R193, R195), the
handshakes (R191), the CSR read (R196), hardware reset (R197), and which move comes next (log 2, log 3). -/

namespace Sys2Proof.Machine

/-- `nout`: how many items an instruction would emit from the current state (41_encoder.md R129,
42_decoder.md R150, 43_bitpacker.md R166, 44_bitunpacker.md R182, 45_common.md R193). -/
def nout (i : Instr) (s : State) : Nat :=
  match i with
  | .nop => 0
  | .encStart => 0
  | .encByte c => s.enc.noutByte c
  | .encEnd => s.enc.noutEnd
  | .decStart => 0
  | .decCode k => s.dec.noutCode k
  | .decEnd => s.dec.noutEnd
  | .packStart => 0
  | .packCode _ => s.pack.noutHold
  | .packEnd => s.pack.noutHold
  | .unpkStart _ => 0
  | .unpkByte _ => s.unpk.noutByte
  | .unpkEnd => s.unpk.noutEnd
  | .csrRead _ => 0

namespace State

/-- `nout` of a command word on u's port; an illegal word emits nothing (45_common.md R193). -/
def noutWord (s : State) (u : UnitId) (cmd : Word) : Nat :=
  match decodeCmd u cmd with
  | .cmd i => nout i s
  | .illegal _ => 0

/-- The hold rule: the whole output of the step fits in u's output queue (45_common.md R193). -/
def hasRoom (s : State) (u : UnitId) (cmd : Word) : Bool :=
  s.params.oqFits u (s.oqLen u + s.noutWord u cmd)

/-- `Step(u)` is enabled (45_common.md R192). -/
def stepEnabled (s : State) (u : UnitId) : Bool :=
  match (s.ctl u).cmdq with
  | [] => false
  | cmd :: _ => s.rstN && s.hasRoom u cmd

/-- `Accept` is enabled for the word offered on u's port (45_common.md R191). -/
def acceptEnabled (s : State) (u : UnitId) : Bool := s.cmdReady u && s.cmdValid u

/-- The effect of an enabled `Accept`: the offered word joins the command queue (45_common.md R191). -/
def acceptWord (s : State) (u : UnitId) : State :=
  match s.host.offered.get u with
  | [] => s
  | w :: rest => (s.setCmdq u ((s.ctl u).cmdq ++ [w])).setOffered u rest

end State

/-- The command word `cmd`, already taken from u's queue, executes (45_common.md R195). -/
def execWord (u : UnitId) (cmd : Word) (s : State) : Result :=
  match decodeCmd u cmd with
  | .cmd i => exec i s
  | .illegal e => .next (s.takeIllegal u e cmd)

/-- `Step(u)`: the head command is removed and executes; a step that is not enabled changes nothing
(45_common.md R192, R193). -/
def runUnit (u : UnitId) (s : State) : Result :=
  if s.stepEnabled u then
    match (s.ctl u).cmdq with
    | [] => .next s
    | cmd :: rest => execWord u cmd (s.setCmdq u rest)
  else .next s

/-- A move. One that is not enabled changes nothing: the host waits, the unit holds (log 4). -/
def doMove (m : Move) (s : State) : Result :=
  match m with
  | .accept u => .next (if s.acceptEnabled u then s.acceptWord u else s)
  | .drain u => .next (if s.outValid u then s.take u 1 else s)
  | .csrRead a => exec (decodeCsr a) s
  | .assertReset => .next s.hardwareReset
  | .deassertReset => .next { s with rstN := true }
  | .unitStep u => runUnit u s

/-- Whether a unit step or a command-port handshake is enabled; the other moves are the host's to choose
and never come of themselves. -/
def State.ready (s : State) (m : Move) : Bool :=
  match m with
  | .unitStep u => s.stepEnabled u
  | .accept u => s.acceptEnabled u
  | .drain _ => false
  | .csrRead _ => false
  | .assertReset => false
  | .deassertReset => false

/-- The order in which moves are tried when the schedule is empty (log 3). -/
def autoMoves : List Move :=
  [ .unitStep .enc, .unitStep .dec, .unitStep .pack, .unitStep .unpk,
    .accept .enc, .accept .dec, .accept .pack, .accept .unpk ]

/-- The move made when the schedule is empty, if one is enabled (log 3). -/
def State.autoMove (s : State) : Option Move := autoMoves.find? (fun m => s.ready m)

/-- The next move: the schedule's, which is used up, or else one that is enabled; with none the block waits
for the host. -/
def moveNext (s : State) : Result :=
  match s.host.schedule with
  | m :: rest => doMove m (s.setSchedule rest)
  | [] =>
    match s.autoMove with
    | some m => doMove m s
    | none => .next s

/-- `s` with the word `cmd` at the head of u's queue and Step(u) the next move; if the step would hold, the
host drains u's output queue first (log 12). -/
def State.loadCmd (s : State) (u : UnitId) (cmd : Word) : State :=
  let s1 := { s with rstN := true }
  let s2 := if s1.hasRoom u cmd then s1 else s1.take u (s1.oqLen u)
  (s2.setCmdq u (cmd :: (s2.ctl u).cmdq)).setSchedule (.unitStep u :: s2.host.schedule)

/-- `s` with a read of CSR address `a` the next move (log 12). -/
def State.loadCsr (s : State) (a : BitVec 8) : State :=
  s.setSchedule (.csrRead a :: s.host.schedule)

end Sys2Proof.Machine
end

