-- ==== Sys2Proof/Machine/Step.lean ====
section
/-! DEFINITION. One step of the machine: the next move (log 2, log 3), and how an instruction is placed so
that it is the next thing the machine runs (log 12). -/

namespace Sys2Proof.Machine

/-- One step: one atomic move of one agent (00_scope.md R8, 45_common.md R192, R198). -/
def step (s : State) : Host.Outcome State Fault Refusal := moveNext s

/-- `s` with the instruction whose table bits are `w` placed where the very next step runs it: an 8-bit row
as the address of the next CSR read, a 32-bit row at the head of its unit's command queue. -/
def State.withFetchWord (s : State) (nbits w : Nat) : State :=
  if nbits ≤ 8 then s.loadCsr (BitVec.ofNat 8 w)
  else s.loadCmd (portOf (BitVec.ofNat 32 w)) (BitVec.ofNat 32 w)

end Sys2Proof.Machine
end

