-- ==== Sys2Proof/Machine/Assembler.lean ====
section
/-! DEFINITION. The assembler's lines and pseudo-instructions (30_encoding.md R97, R98). It is no part of the
machine: it says which words a host sends to which port. How the text is read where R97 and R98 leave it open is
log 21. -/

namespace Sys2Proof.Machine.Assembler

/-- The mnemonic of an instruction, as spec/opcode_table.json spells it. -/
def mnemonic : Instr → String
  | .nop => "nop"
  | .encStart => "enc.start"
  | .encByte _ => "enc.byte"
  | .encEnd => "enc.end"
  | .decStart => "dec.start"
  | .decCode _ => "dec.code"
  | .decEnd => "dec.end"
  | .packStart => "pack.start"
  | .packCode _ => "pack.code"
  | .packEnd => "pack.end"
  | .unpkStart _ => "unpk.start"
  | .unpkByte _ => "unpk.byte"
  | .unpkEnd => "unpk.end"
  | .csrRead _ => "csr.read"

/-- A mnemonic with no operand. -/
def plainInstr (m : List Char) : Option Instr :=
  [Instr.encStart, .encEnd, .decStart, .decEnd, .packStart, .packEnd, .unpkEnd].find?
    (fun i => (mnemonic i).toList == m)

/-- A mnemonic with an operand, in the range R97 gives it. -/
def operandInstr (m : List Char) (n : Nat) : Option Instr :=
  if m = "enc.byte".toList then (if n < 256 then some (.encByte (BitVec.ofNat 8 n)) else none)
  else if m = "dec.code".toList then (if n < 16777216 then some (.decCode (BitVec.ofNat 24 n)) else none)
  else if m = "pack.code".toList then (if n < 4096 then some (.packCode (BitVec.ofNat 12 n)) else none)
  else if m = "unpk.start".toList then (if n < 16777216 then some (.unpkStart (BitVec.ofNat 24 n)) else none)
  else if m = "unpk.byte".toList then (if n < 256 then some (.unpkByte (BitVec.ofNat 8 n)) else none)
  else none

/-- The value of a digit, decimal or hex in either case. -/
def digit (c : Char) : Option Nat :=
  if '0' ≤ c ∧ c ≤ '9' then some (c.toNat - '0'.toNat)
  else if 'a' ≤ c ∧ c ≤ 'f' then some (c.toNat - 'a'.toNat + 10)
  else if 'A' ≤ c ∧ c ≤ 'F' then some (c.toNat - 'A'.toNat + 10)
  else none

/-- Digits in a base, after those already read. -/
def digits (base : Nat) (acc : Nat) : List Char → Option Nat
  | [] => some acc
  | c :: rest =>
    match digit c with
    | some d => if d < base then digits base (acc * base + d) rest else none
    | none => none

/-- A number, decimal or `0x` hex (R97). -/
def number : List Char → Option Nat
  | [] => none
  | ['0', 'x'] => none
  | '0' :: 'x' :: rest => digits 16 0 rest
  | cs => digits 10 0 cs

/-- The port prefix of a `nop` or `.word` line (R97). -/
def portPrefix (t : List Char) : Option UnitId :=
  if t = "enc:".toList then some .enc
  else if t = "dec:".toList then some .dec
  else if t = "pack:".toList then some .pack
  else if t = "unpk:".toList then some .unpk
  else none

/-- The text of a line before its comment (R97: `;` starts a comment). -/
def uncomment (l : List Char) : List Char := l.takeWhile (fun c => c != ';')

/-- The words of a text, cut at blanks. -/
def tokens : List Char → List (List Char)
  | [] => []
  | c :: rest =>
    if c = ' ' ∨ c = '\t' then tokens rest
    else
      match rest, tokens rest with
      | c' :: _, t :: ts => if c' = ' ' ∨ c' = '\t' then [c] :: t :: ts else (c :: t) :: ts
      | _, ts => [c] :: ts

/-- A line with a port prefix: `nop` or a raw word. -/
def prefixedLine (u : UnitId) : List (List Char) → Option (UnitId × Word)
  | [m] => if m = "nop".toList then some (u, encode .nop) else none
  | [m, n] =>
    if m = ".word".toList then
      match number n with
      | some w => if w < 4294967296 then some (u, BitVec.ofNat 32 w) else none
      | none => none
    else none
  | _ => none

/-- The port and word of an instruction's line: the port its unit prefix names. -/
def sendTo (i : Instr) : Option (UnitId × Word) := i.unit?.map (fun u => (u, encode i))

/-- A line without a port prefix: `mnemonic [operand]`. -/
def plainLine : List (List Char) → Option (UnitId × Word)
  | [m] => (plainInstr m).bind sendTo
  | [m, n] => ((number n).bind (operandInstr m)).bind sendTo
  | _ => none

/-- One line of assembly: the port it is sent to and its word (R97); none where it is no line of a command. -/
def assembleLine (l : String) : Option (UnitId × Word) :=
  match tokens (uncomment l.toList) with
  | [] => none
  | t :: rest =>
    match portPrefix t with
    | some u => prefixedLine u rest
    | none => plainLine (t :: rest)

/-! ### Pseudo-instructions (R98) -/

/-- `enc.bytes` -/
def encBytes (bs : List Byte) : List Instr := bs.map .encByte
/-- `enc.run` -/
def encRun (bs : List Byte) : List Instr := .encStart :: (encBytes bs ++ [.encEnd])
/-- `dec.codes` -/
def decCodes (ks : List Operand) : List Instr := ks.map .decCode
/-- `dec.run` -/
def decRun (ks : List Operand) : List Instr := .decStart :: (decCodes ks ++ [.decEnd])
/-- `pack.codes` -/
def packCodes (ks : List Code) : List Instr := ks.map .packCode
/-- `pack.run` -/
def packRun (ks : List Code) : List Instr := .packStart :: (packCodes ks ++ [.packEnd])
/-- `unpk.bytes` -/
def unpkBytes (bs : List Byte) : List Instr := bs.map .unpkByte
/-- `unpk.run N; …` -/
def unpkRun (n : BitVec 24) (bs : List Byte) : List Instr := .unpkStart n :: (unpkBytes bs ++ [.unpkEnd])

/-! ### Pseudo-instruction lines (R98; log 21) -/

/-- The pieces of a text between the separators `sep` that stand outside a string. -/
def pieces (sep : Char) (inString : Bool) : List Char → List (List Char)
  | [] => [[]]
  | c :: rest =>
    if c = sep ∧ inString = false then [] :: pieces sep false rest
    else
      match pieces sep (if c = '"' then !inString else inString) rest with
      | p :: ps => (c :: p) :: ps
      | [] => [[c]]

/-- A text without the blanks at its ends. -/
def trim (l : List Char) : List Char :=
  let blank := fun c : Char => c == ' ' || c == '\t'
  ((l.dropWhile blank).reverse.dropWhile blank).reverse

/-- The ASCII values of a string operand's characters, one byte each (R98); a character outside ASCII has none. -/
def asciiValues (t : List Char) : Option (List Nat) :=
  if t.all (fun c => decide (c.toNat < 128)) then some (t.map (fun c => c.toNat)) else none

/-- One operand of a list: a number below `bound`, or, in a byte list, a string. -/
def operandValues (bytes : Bool) (bound : Nat) (t : List Char) : Option (List Nat) :=
  match t with
  | '"' :: rest =>
    match rest.reverse with
    | '"' :: body => if bytes then asciiValues body.reverse else none
    | _ => none
  | _ =>
    match number t with
    | some n => if n < bound then some [n] else none
    | none => none

/-- The values of all the operands, if each one has a value. -/
def allValues (bytes : Bool) (bound : Nat) : List (List Char) → Option (List Nat)
  | [] => some []
  | t :: rest => (operandValues bytes bound (trim t)).bind
      (fun v => (allValues bytes bound rest).map (fun vs => v ++ vs))

/-- A list of operands between commas; a blank text is the empty list. -/
def operandList (bytes : Bool) (bound : Nat) (l : List Char) : Option (List Nat) :=
  if trim l = [] then some [] else allValues bytes bound (pieces ',' false l)

/-- The text up to a comment that starts outside a string. -/
def beforeComment (l : List Char) : List Char := (pieces ';' false l).headD []

/-- What a pseudo-instruction's line stands for, given its mnemonic and the text after it. -/
def pseudoInstrs (m : List Char) (l : List Char) : Option (List Instr) :=
  let bytesOf := fun t => (operandList true 256 t).map (fun vs => vs.map (BitVec.ofNat 8))
  let codesOf := fun t => (operandList false 4096 t).map (fun vs => vs.map (BitVec.ofNat 12))
  let valuesOf := fun t => (operandList false 16777216 t).map (fun vs => vs.map (BitVec.ofNat 24))
  if m = "enc.bytes".toList then (bytesOf (beforeComment l)).map encBytes
  else if m = "enc.run".toList then (bytesOf (beforeComment l)).map encRun
  else if m = "dec.codes".toList then (valuesOf (beforeComment l)).map decCodes
  else if m = "dec.run".toList then (valuesOf (beforeComment l)).map decRun
  else if m = "pack.codes".toList then (codesOf (beforeComment l)).map packCodes
  else if m = "pack.run".toList then (codesOf (beforeComment l)).map packRun
  else if m = "unpk.bytes".toList then (bytesOf (beforeComment l)).map unpkBytes
  else if m = "unpk.run".toList then
    match pieces ';' false l with
    | n :: bs :: _ =>
      match operandValues false 16777216 (trim n), bytesOf bs with
      | some [k], some b => some (unpkRun (BitVec.ofNat 24 k) b)
      | _, _ => none
    | _ => none
  else none

/-- The ports and words of a list of instructions, if each one has a port. -/
def sendAll : List Instr → Option (List (UnitId × Word))
  | [] => some []
  | i :: rest => (sendTo i).bind (fun w => (sendAll rest).map (fun ws => w :: ws))

/-- One line of assembly, a pseudo-instruction among them: the ports and words it sends, in order (R97, R98). A
blank line, or one that is all comment, sends nothing. -/
def assemble (l : String) : Option (List (UnitId × Word)) :=
  let cs := trim l.toList
  if trim (uncomment cs) = [] then some []
  else
    let blank := fun c : Char => c == ' ' || c == '\t' || c == ';'
    let m := cs.takeWhile (fun c => !(blank c))
    match pseudoInstrs m (cs.drop m.length) with
    | some is => sendAll is
    | none => (assembleLine l).map (fun w => [w])

/-- A program: its lines one after another. -/
def assembleProgram : List String → Option (List (UnitId × Word))
  | [] => some []
  | l :: rest => (assemble l).bind (fun ws => (assembleProgram rest).map (fun more => ws ++ more))

end Sys2Proof.Machine.Assembler
end

