-- ==== Sys2Proof/Safety.lean ====
section
/-! DEFINITION. The terms claims use: the invariants the spec states (10_state.md R30, 40_dictionary.md R111,
41_encoder.md R126, 42_decoder.md R154), runs of instructions, and the reference streams of the source
(30_encoding.md R93, 41_encoder.md R130). Nothing here is part of the machine. -/

namespace Sys2Proof.Machine

/-! ### Invariants -/

/-- The faults every unit can record (60_exceptions.md R203). -/
def commonFaults : List FaultKind := [.undefinedOpcode, .wrongUnit, .operand, .sequence]

/-- The faults unit `u` can record in a run (60_exceptions.md R201, R203, R206). DICTIONARY_OVERFLOW is not
among them: no command sequence raises it (R202). -/
def recordableBy : UnitId → List FaultKind
  | .enc => commonFaults
  | .dec => commonFaults ++ [.range, .firstUnbound, .empty, .stale]
  | .pack => commonFaults
  | .unpk => commonFaults ++ [.excess, .truncated]

/-- The fault record is written exactly in FAULT and is one of the unit's own pairs (10_state.md R23,
60_exceptions.md R206); `done` is set only in IDLE or FAULT (10_state.md R29, 60_exceptions.md R204). -/
structure CtlInv (u : UnitId) (c : Ctl) : Prop where
  record : c.phase = .fault → ∃ k ∈ recordableBy u, c.cause = k.cause ∧ c.detail = k.detail
  noRecord : c.phase ≠ .fault → c.cause = 0#4 ∧ c.detail = 0#4 ∧ c.faultCmd = 0#32
  doneAfterEnd : c.done = true → c.phase = .idle ∨ c.phase = .fault

/-- The entries of `d` are bound to exactly the codes 256 .. n−1, each once, listed by falling code, and each
entry's prefix is a smaller code than its own (40_dictionary.md R103, R111). -/
def boundBelow : List DictEntry → Nat → Prop
  | [], n => n = 256
  | e :: rest, n => e.code.toNat + 1 = n ∧ e.pre.toNat < e.code.toNat ∧ boundBelow rest e.code.toNat

/-- 10_state.md R30 for ENC and DEC: `256 ≤ next_code ≤ 4095`, and the bound codes are exactly
0 .. next_code−1. -/
structure SyncInv (y : Sync) : Prop where
  low : 256 ≤ y.nextCode.toNat
  high : y.nextCode.toNat ≤ 4095
  entries : boundBelow y.dict y.nextCode.toNat

/-- No two entries have the same key (40_dictionary.md R111). -/
def keysDistinct (d : List DictEntry) : Prop :=
  d.Pairwise (fun a b => ¬(a.pre = b.pre ∧ a.last = b.last))

/-- ENC between steps (10_state.md R30, 40_dictionary.md R111, 41_encoder.md R126). -/
structure EncInv (e : EncUnit) : Prop where
  ctl : CtlInv .enc e.ctl
  sync : SyncInv e.sync
  keys : keysDistinct e.sync.dict
  wBound : e.ctl.phase = .run → e.w.toNat < e.sync.nextCode.toNat
  fresh : e.ctl.phase = .opened → e.sync.dict = []

/-- DEC between steps (10_state.md R30, 42_decoder.md R154, 70_reset_and_hazards.md R242). -/
structure DecInv (d : DecUnit) : Prop where
  ctl : CtlInv .dec d.ctl
  sync : SyncInv d.sync
  priorBound : d.ctl.phase = .run → d.stale = false → d.prior.toNat < d.sync.nextCode.toNat
  staleUnbound : d.stale = true → d.sync.nextCode.toNat ≤ d.prior.toNat
  fresh : d.ctl.phase = .opened → d.sync.dict = [] ∧ d.stale = false ∧ d.anom = false

/-- PACK between steps (10_state.md R24, R30). -/
structure PackInv (p : PackUnit) : Prop where
  ctl : CtlInv .pack p.ctl
  neverOpen : p.ctl.phase ≠ .opened
  nibClear : p.hold = false → p.nib = 0#4

/-- UNPK between steps (10_state.md R24, R28, R30, 44_bitunpacker.md R178). -/
structure UnpkInv (p : UnpkUnit) : Prop where
  ctl : CtlInv .unpk p.ctl
  neverOpen : p.ctl.phase ≠ .opened
  withinCount : p.produced.toNat ≤ p.expected.toNat
  atByte0 : p.pos = .byte0 → p.acc = 0#8 ∧ (p.produced.toNat % 2 = 0 ∨ p.produced = p.expected)
  atByte1 : p.pos = .byte1 → p.produced.toNat % 2 = 0 ∧ p.produced.toNat < p.expected.toNat
  atByte2 : p.pos = .byte2 →
    p.acc.toNat ≤ 15 ∧ p.produced.toNat % 2 = 1 ∧ p.produced.toNat < p.expected.toNat

/-- The whole block between steps: each unit's invariant, the queue bounds (10_state.md R31, R32), and the
reset values while rst_n is low (45_common.md R197). -/
structure Inv (s : State) : Prop where
  enc : EncInv s.enc
  dec : DecInv s.dec
  pack : PackInv s.pack
  unpk : UnpkInv s.unpk
  cmdqBound : ∀ u, (s.ctl u).cmdq.length ≤ s.params.cmdqDepth
  oqBound : ∀ u, s.oqLen u ≤ s.params.oqDepth u
  inReset : s.rstN = false →
    s.enc = EncUnit.reset ∧ s.dec = DecUnit.reset ∧ s.pack = PackUnit.reset ∧ s.unpk = UnpkUnit.reset

/-! ### Runs of instructions -/

/-- The instructions of a list executed one after another. -/
def execAll (is : List Instr) (s : State) : Result :=
  match is with
  | [] => .next s
  | i :: rest =>
    match exec i s with
    | .next t => execAll rest t
    | .fault r => .fault r
    | .refused r => .refused r

/-- `m` insertions of the synchronizer one after another. -/
def insertAll (y : Sync) : List (Code × Byte) → Sync
  | [] => y
  | e :: rest => insertAll (y.insert e.1 e.2) rest

/-- A second move after a first, if the first answers a state. -/
def andThen (r : Result) (f : State → Result) : Result :=
  match r with
  | .next t => f t
  | .fault x => .fault x
  | .refused x => .refused x

/-! ### Words, by the rules that name them -/

/-- The thirteen opcodes of 30_encoding.md R81 and R89. -/
def definedOpcodes : List (BitVec 8) :=
  [0x00#8, 0x10#8, 0x11#8, 0x12#8, 0x20#8, 0x21#8, 0x22#8, 0x30#8, 0x31#8, 0x32#8, 0x40#8, 0x41#8, 0x42#8]

/-- The undefined opcodes, by the ranges of 30_encoding.md R85. -/
def undefinedRange (op : BitVec 8) : Prop :=
  (0x01 ≤ op.toNat ∧ op.toNat ≤ 0x0F) ∨ (0x13 ≤ op.toNat ∧ op.toNat ≤ 0x1F) ∨
  (0x23 ≤ op.toNat ∧ op.toNat ≤ 0x2F) ∨ (0x33 ≤ op.toNat ∧ op.toNat ≤ 0x3F) ∨ 0x43 ≤ op.toNat

/-- `mbz_mask` of 30_encoding.md R89. -/
def mbzMask (op : BitVec 8) : Operand :=
  if op = 0x21#8 ∨ op = 0x40#8 then 0x000000#24
  else if op = 0x11#8 ∨ op = 0x41#8 then 0xFFFF00#24
  else if op = 0x31#8 then 0xFFF000#24
  else 0xFFFFFF#24

/-- The well-formed START words of a unit (41_encoder.md R121, 42_decoder.md R141, 43_bitpacker.md R161,
44_bitunpacker.md R176). -/
def startWord (u : UnitId) (w : Word) : Prop :=
  match u with
  | .enc => w = 0x10000000#32
  | .dec => w = 0x20000000#32
  | .pack => w = 0x30000000#32
  | .unpk => opcodeOf w = 0x40#8

/-- The phase a START puts its unit in (10_state.md R45). -/
def startPhase : UnitId → Phase
  | .enc => .opened
  | .dec => .opened
  | .pack => .run
  | .unpk => .run

/-- The four START commands. -/
def isStart : Instr → Bool
  | .encStart => true
  | .decStart => true
  | .packStart => true
  | .unpkStart _ => true
  | .nop => false
  | .encByte _ => false
  | .encEnd => false
  | .decCode _ => false
  | .decEnd => false
  | .packCode _ => false
  | .packEnd => false
  | .unpkByte _ => false
  | .unpkEnd => false
  | .csrRead _ => false

/-! ### Reference streams -/

/-- The packed byte stream of a code sequence, as 30_encoding.md R93 writes it. -/
def packedStream : List Code → List Byte
  | [] => []
  | [c] => [(c >>> 4).setWidth 8, (c <<< 4).setWidth 8]
  | c0 :: c1 :: rest =>
    (c0 >>> 4).setWidth 8 :: (((c0 <<< 4).setWidth 8) ||| ((c1 >>> 8).setWidth 8)) :: c1.setWidth 8 ::
      packedStream rest

/-- L(n), the length of the packed stream of n codes (30_encoding.md R94). -/
def packedLength (n : Nat) : Nat := (3 * n + 1) / 2

/-- The source's encoder (41_encoder.md R123, R124, R130): `w` is a byte string and the dictionary a map from
byte strings to codes. -/
structure SourceEncoder where
  w : List Byte
  next : Nat
  dict : List (List Byte × Nat)
  deriving DecidableEq, Repr

namespace SourceEncoder

/-- The code bound to a symbol: a byte's own code, or what the dictionary says. -/
def codeOf (m : SourceEncoder) (sym : List Byte) : Option Nat :=
  match sym with
  | [b] => some b.toNat
  | _ => (m.dict.find? (fun e => e.1 == sym)).map (fun e => e.2)

/-- One subsequent byte: the codes emitted and the encoder after it. -/
def byte (m : SourceEncoder) (c : Byte) : List (Option Nat) × SourceEncoder :=
  let wc := m.w ++ [c]
  match m.codeOf wc with
  | some _ => ([], { m with w := wc })
  | none =>
    if m.next + 1 = 4096 then ([m.codeOf m.w], { w := [c], next := 256, dict := [] })
    else ([m.codeOf m.w], { w := [c], next := m.next + 1, dict := (wc, m.next) :: m.dict })

/-- The bytes after the first, and the final flush. -/
def bytes (m : SourceEncoder) : List Byte → List (Option Nat)
  | [] => [m.codeOf m.w]
  | c :: rest => (m.byte c).1 ++ (m.byte c).2.bytes rest

/-- The source's `encode`. -/
def encodeBytes : List Byte → List (Option Nat)
  | [] => []
  | c :: rest => bytes { w := [c], next := 256, dict := [] } rest

end SourceEncoder

end Sys2Proof.Machine
end

