-- ==== Sys2Proof/Certificates/Slice0/Obligations.lean ====
section
/-! DEFINITION. The statements about the model. "log <n>" in a docstring is notes/assumptions/<n>.md. -/

open Sys2Proof Sys2Proof.Machine Sys2Proof.Machine.Assembler

/-! ### Encoding and dispatch -/

/-- Words written out from 30_encoding.md R80, R81, R83 (examples of R99) decode to what they stand for. -/
def Obligations.WrittenWordsDecodeToTheirInstructions : Prop :=
  decodeCmd .enc 0x10000000#32 = .cmd .encStart ∧
  decodeCmd .enc 0x11000041#32 = .cmd (.encByte 0x41#8) ∧
  decodeCmd .dec 0x21000100#32 = .cmd (.decCode 256#24) ∧
  decodeCmd .dec 0x21001000#32 = .cmd (.decCode 4096#24) ∧
  decodeCmd .pack 0x31000FFF#32 = .cmd (.packCode 4095#12) ∧
  decodeCmd .unpk 0x40000003#32 = .cmd (.unpkStart 3#24) ∧
  decodeCmd .pack 0x00000000#32 = .cmd .nop ∧
  decodeCmd .enc 0x11000141#32 = .illegal .operand ∧
  decodeCmd .enc 0x21000041#32 = .illegal .wrongUnit ∧
  decodeCmd .unpk 0x13000000#32 = .illegal .undefinedOpcode

/-- 30_encoding.md R80, R81, R83, R96: decoding the encoding of a well-formed instruction gives it back, on
every port that takes it and from the bits of its opcode-table row. -/
def Obligations.DecodeOfEncodeIsTheInstruction : Prop :=
  (∀ (u : UnitId) (i : Instr), i.wellFormed (.cmd u) = true → decodeCmd u (encode i) = .cmd i) ∧
  (∀ i : Instr, i.wellFormed .csr = true → decodeCsr ((encode i).setWidth 8) = i) ∧
  (∀ i : Instr, decodeTableWord i.nbits (encode i).toNat = some i)

/-- 30_encoding.md R83, R87: no bit of a legal word is dropped, so the word FAULT_CMD records is the word
that executed (60_exceptions.md R204, log 14). -/
def Obligations.DecodedWordIsTheEncodingOfItsInstruction : Prop :=
  ∀ (u : UnitId) (w : Word) (i : Instr), decodeCmd u w = .cmd i →
    encode i = w ∧ i.wellFormed (.cmd u) = true

/-- 30_encoding.md R89: decoding is total and its checks are made in the spec's order. -/
def Obligations.EveryWordDecodesInTheSpecsOrder : Prop :=
  (unitId .enc = 1#4 ∧ unitId .dec = 2#4 ∧ unitId .pack = 3#4 ∧ unitId .unpk = 4#4) ∧
  ∀ (u : UnitId) (w : Word),
    (decodeCmd u w = .illegal .undefinedOpcode ↔ opcodeOf w ∉ definedOpcodes) ∧
    (decodeCmd u w = .illegal .wrongUnit ↔
      opcodeOf w ∈ definedOpcodes ∧ opcodeOf w ≠ 0x00#8 ∧ (opcodeOf w).extractLsb' 4 4 ≠ unitId u) ∧
    (decodeCmd u w = .illegal .operand ↔
      opcodeOf w ∈ definedOpcodes ∧ (opcodeOf w = 0x00#8 ∨ (opcodeOf w).extractLsb' 4 4 = unitId u) ∧
      operandOf w &&& mbzMask (opcodeOf w) ≠ 0#24) ∧
    ((∃ i, decodeCmd u w = .cmd i) ↔
      opcodeOf w ∈ definedOpcodes ∧ (opcodeOf w = 0x00#8 ∨ (opcodeOf w).extractLsb' 4 4 = unitId u) ∧
      operandOf w &&& mbzMask (opcodeOf w) = 0#24) ∧
    (∀ i, decodeCmd u w = .cmd i → i.opcode = opcodeOf w ∧ i.operand = operandOf w)

/-- 30_encoding.md R85, R86, R87: an illegal word faults IllegalCommand with its detail, and writes nothing
but the record. (In phase FAULT it is dropped: `FaultPhaseDropsEveryWordButStart`.) -/
def Obligations.IllegalWordFaultsWithItsDetail : Prop :=
  ∀ (u : UnitId) (w : Word) (s : State), (s.ctl u).phase ≠ .fault →
    (undefinedRange (opcodeOf w) →
      execWord u w s = .next (s.setCtl u
        { s.ctl u with phase := .fault, cause := 1#4, detail := 1#4, faultCmd := w })) ∧
    (opcodeOf w ∈ definedOpcodes → opcodeOf w ≠ 0x00#8 → (opcodeOf w).extractLsb' 4 4 ≠ unitId u →
      execWord u w s = .next (s.setCtl u
        { s.ctl u with phase := .fault, cause := 1#4, detail := 2#4, faultCmd := w })) ∧
    (opcodeOf w ∈ definedOpcodes → (opcodeOf w = 0x00#8 ∨ (opcodeOf w).extractLsb' 4 4 = unitId u) →
      operandOf w &&& mbzMask (opcodeOf w) ≠ 0#24 →
      execWord u w s = .next (s.setCtl u
        { s.ctl u with phase := .fault, cause := 1#4, detail := 3#4, faultCmd := w }))

/-- 45_common.md R192, R195: an enabled unit step removes the head command and runs the instruction it
decodes to; a read on the CSR port runs the CSR read. The schedule is the model's own (log 2, log 3). -/
def Obligations.StepRunsTheDecodedInstruction : Prop :=
  (∀ (s : State) (u : UnitId) (rest : List Move) (w : Word) (ws : List Word),
    s.host.schedule = .unitStep u :: rest → s.rstN = true → (s.ctl u).cmdq = w :: ws →
    s.oqLen u + s.noutWord u w ≤ s.params.oqDepth u →
      (∀ i, decodeCmd u w = .cmd i → step s = exec i ((s.setSchedule rest).setCmdq u ws)) ∧
      (∀ e, decodeCmd u w = .illegal e →
        step s = .next (((s.setSchedule rest).setCmdq u ws).takeIllegal u e w))) ∧
  (∀ (s : State) (a : BitVec 8) (rest : List Move), s.host.schedule = .csrRead a :: rest →
    step s = exec (.csrRead a) (s.setSchedule rest)) ∧
  (∀ (s : State) (m : Move), s.host.schedule = [] → s.autoMove = some m → step s = doMove m s) ∧
  (∀ s : State, s.host.schedule = [] → s.autoMove = none → step s = .next s)

/-- 45_common.md R192, R193: when `Step(u)` is enabled, and that a step that is not enabled changes nothing. -/
def Obligations.HeldUnitStepChangesNothing : Prop :=
  ∀ (s : State) (u : UnitId),
    (s.stepEnabled u = true ↔ s.rstN = true ∧
      ∃ w ws, (s.ctl u).cmdq = w :: ws ∧ s.oqLen u + s.noutWord u w ≤ s.params.oqDepth u) ∧
    (s.stepEnabled u = false → runUnit u s = .next s)

/-- 45_common.md R193 with the tables 41_encoder.md R129, 42_decoder.md R150, 43_bitpacker.md R166,
44_bitunpacker.md R182: `nout` is exactly how many items the instruction emits, and it emits them on its own
unit's queue only. -/
def Obligations.NoutCountsTheItemsEmitted : Prop :=
  ∀ (i : Instr) (s t : State) (u : UnitId), exec i s = .next t →
    t.oqLen u = s.oqLen u + (if i.unit? = some u then nout i s else 0)

/-- 45_common.md R193 with 42_decoder.md R146: every unit's step can run once its output queue is empty. -/
def Obligations.EmptyOutputQueueLetsEveryStepRun : Prop :=
  ∀ (s : State) (u : UnitId), Inv s → s.rstN = true → s.oqLen u = 0 → (s.ctl u).cmdq ≠ [] →
    s.stepEnabled u = true

/-! ### Faults -/

/-- 60_exceptions.md R204: fault entry, in the unit step that raises it, writes the record and the phase and
nothing else; the command is off the queue, and `fault_o` rises. -/
def Obligations.FaultEntryWritesOnlyTheRecord : Prop :=
  ∀ (u : UnitId) (w : Word) (ws : List Word) (s t : State),
    (s.ctl u).cmdq = w :: ws → s.stepEnabled u = true → runUnit u s = .next t →
    (s.ctl u).phase ≠ .fault → (t.ctl u).phase = .fault →
    (∃ k : FaultKind, t = s.setCtl u
      { s.ctl u with phase := .fault, cause := k.cause, detail := k.detail, faultCmd := w, cmdq := ws }) ∧
    s.faultO u = false ∧ t.faultO u = true

/-- 41_encoder.md R125, 42_decoder.md R149, 43_bitpacker.md R165, 44_bitunpacker.md R181: a data or END
command in IDLE faults SEQUENCE, and in FAULT is dropped. -/
def Obligations.OutOfSequenceCommandFaultsSequence : Prop :=
  ∀ (i : Instr) (u : UnitId) (s : State), i.unit? = some u → isStart i = false →
    ((s.ctl u).phase = .idle → exec i s = .next (s.setCtl u
      { s.ctl u with phase := .fault, cause := 1#4, detail := 4#4, faultCmd := encode i })) ∧
    ((s.ctl u).phase = .fault → exec i s = .next s)

/-- 45_common.md R195, 60_exceptions.md R209: in FAULT every word is dropped but a well-formed START, and
that too when the cause is DICTIONARY_OVERFLOW. -/
def Obligations.FaultPhaseDropsEveryWordButStart : Prop :=
  ∀ (u : UnitId) (w : Word) (s : State), (s.ctl u).phase = .fault →
    (¬ startWord u w ∨ (s.ctl u).cause = 3#4) → execWord u w s = .next s

/-- 60_exceptions.md R210, R211: a step takes a unit out of FAULT only by hardware reset or by a well-formed
START, which clears the record; until then the record stays as it is. -/
def Obligations.OnlyStartOrResetLeavesFault : Prop :=
  ∀ (s t : State) (u : UnitId), step s = .next t → (s.ctl u).phase = .fault →
    ((t.ctl u).phase ≠ .fault →
      s.host.schedule.head? = some .assertReset ∨
      ((s.ctl u).cause ≠ 3#4 ∧ t.oqLen u = s.oqLen u ∧ ∃ w ws, (s.ctl u).cmdq = w :: ws ∧ startWord u w ∧
        t.ctl u = { phase := startPhase u, done := false, cause := 0#4, detail := 0#4, faultCmd := 0#32,
                    cmdq := ws })) ∧
    ((t.ctl u).phase = .fault →
      (t.ctl u).cause = (s.ctl u).cause ∧ (t.ctl u).detail = (s.ctl u).detail ∧
      (t.ctl u).faultCmd = (s.ctl u).faultCmd)

/-! ### Host moves and reset -/

/-- 45_common.md R191: the two handshakes, when each is enabled and what it does. That offered words are a list
in the host's side (log 5), and that what a Drain returns is appended to the host's lists (log 7), is the model's
choice. -/
def Obligations.HandshakesMoveOneWordOrItem : Prop :=
  (∀ (s : State) (u : UnitId),
    (s.acceptEnabled u = true ↔
      s.rstN = true ∧ (s.ctl u).cmdq.length < s.params.cmdqDepth ∧ s.host.offered.get u ≠ []) ∧
    (s.acceptEnabled u = false → doMove (.accept u) s = .next s) ∧
    (∀ w ws, s.acceptEnabled u = true → s.host.offered.get u = w :: ws →
      doMove (.accept u) s = .next
        ((s.setCtl u { s.ctl u with cmdq := (s.ctl u).cmdq ++ [w] }).setOffered u ws)) ∧
    (s.rstN = false ∨ s.oqLen u = 0 → doMove (.drain u) s = .next s)) ∧
  (∀ (s : State) (x : Item 12) (xs : List (Item 12)), s.rstN = true → s.enc.oq = x :: xs →
    doMove (.drain .enc) s = .next { s with enc := { s.enc with oq := xs },
                                            host := { s.host with encTaken := s.host.encTaken ++ [x] } }) ∧
  (∀ (s : State) (x : Item 8) (xs : List (Item 8)), s.rstN = true → s.dec.oq = x :: xs →
    doMove (.drain .dec) s = .next { s with dec := { s.dec with oq := xs },
                                            host := { s.host with decTaken := s.host.decTaken ++ [x] } }) ∧
  (∀ (s : State) (x : Item 8) (xs : List (Item 8)), s.rstN = true → s.pack.oq = x :: xs →
    doMove (.drain .pack) s = .next { s with pack := { s.pack with oq := xs },
                                             host := { s.host with packTaken := s.host.packTaken ++ [x] } }) ∧
  (∀ (s : State) (x : Item 12) (xs : List (Item 12)), s.rstN = true → s.unpk.oq = x :: xs →
    doMove (.drain .unpk) s = .next { s with unpk := { s.unpk with oq := xs },
                                             host := { s.host with unpkTaken := s.host.unpkTaken ++ [x] } })

/-- 10_state.md R44, 45_common.md R197: asserting rst_n gives every field of every unit its reset value; while
it is low no unit step and no handshake is enabled and no other move changes a unit; deasserting it is a move of
its own. That the host's side, the words it offers among it, stays is the model's choice (log 5). -/
def Obligations.HardwareResetGivesEveryFieldItsValue : Prop :=
  (∀ s : State, doMove .assertReset s = .next
    { s with
      enc := { ctl := { phase := .idle, done := false, cause := 0#4, detail := 0#4, faultCmd := 0#32, cmdq := [] },
               oq := [], w := 0#12, sync := { nextCode := 256#13, epoch := 0#32, dict := [] },
               inBytes := 0#32, outCodes := 0#32 }
      dec := { ctl := { phase := .idle, done := false, cause := 0#4, detail := 0#4, faultCmd := 0#32, cmdq := [] },
               oq := [], prior := 0#12, sync := { nextCode := 256#13, epoch := 0#32, dict := [] },
               anom := false, stale := false, inCodes := 0#32, outBytes := 0#32 }
      pack := { ctl := { phase := .idle, done := false, cause := 0#4, detail := 0#4, faultCmd := 0#32, cmdq := [] },
                oq := [], hold := false, nib := 0#4, inCodes := 0#32, outBytes := 0#32 }
      unpk := { ctl := { phase := .idle, done := false, cause := 0#4, detail := 0#4, faultCmd := 0#32, cmdq := [] },
                oq := [], expected := 0#24, produced := 0#24, pos := .byte0, acc := 0#8, inBytes := 0#32 }
      rstN := false }) ∧
  (∀ (s : State) (u : UnitId), s.rstN = false →
    s.stepEnabled u = false ∧ s.acceptEnabled u = false ∧ s.outValid u = false) ∧
  (∀ (m : Move) (s t : State), s.rstN = false → m ≠ .assertReset → doMove m s = .next t →
    t.enc = s.enc ∧ t.dec = s.dec ∧ t.pack = s.pack ∧ t.unpk = s.unpk) ∧
  (∀ s : State, doMove .deassertReset s = .next { s with rstN := true })

/-- The state a model starts from (70_reset_and_hazards.md R233) is that of 10_state.md R44 with no fault, and
satisfies the invariant. That rst_n is deasserted in it is the model's reading (log 6). -/
def Obligations.InvariantHoldsAtReset : Prop :=
  Inv State.reset ∧ State.reset.enc.ctl.phase = .idle ∧ State.reset.dec.ctl.phase = .idle ∧
  State.reset.pack.ctl.phase = .idle ∧ State.reset.unpk.ctl.phase = .idle ∧
  State.reset.enc.sync.nextCode = 256#13 ∧ State.reset.dec.sync.nextCode = 256#13 ∧
  State.reset.rstN = true

/-- 45_common.md R196: a CSR read returns the register's value in the current state, changes no state of the
block, and while rst_n is low returns the reset values. Where the host keeps what it read is log 7. -/
def Obligations.CsrReadReturnsTheCurrentValue : Prop :=
  (∀ (a : BitVec 8) (s : State), exec (.csrRead a) s =
    .next { s with host := { s.host with csrReads := s.host.csrReads ++ [⟨a, readCsr s a⟩] } }) ∧
  (∀ (a : BitVec 8) (s : State), Inv s → s.rstN = false →
    readCsr s a = readCsr { State.reset with params := s.params } a)

/-- 10_state.md R36, R38, R39: what each CSR reads (STATUS: `StatusFieldsStandWhereTheSpecPutsThem`). That depths
and levels read modulo 2^32 is the model's choice (log 16). -/
def Obligations.CsrAddressesReadTheirRegisters : Prop :=
  ∀ s : State,
    (readCsr s 0x00#8 = 0x4C5A5701#32 ∧ readCsr s 0x01#8 = 12#32 ∧ readCsr s 0x02#8 = 4096#32 ∧
      readCsr s 0x03#8 = 256#32 ∧ readCsr s 0x04#8 = 3841#32 ∧
      readCsr s 0x05#8 = BitVec.ofNat 32 (s.params.oqDepth .enc) ∧
      readCsr s 0x06#8 = BitVec.ofNat 32 (s.params.oqDepth .dec) ∧
      readCsr s 0x07#8 = BitVec.ofNat 32 (s.params.oqDepth .pack) ∧
      readCsr s 0x08#8 = BitVec.ofNat 32 (s.params.oqDepth .unpk) ∧
      readCsr s 0x09#8 = BitVec.ofNat 32 s.params.cmdqDepth) ∧
    (∀ (u : UnitId) (base : BitVec 8),
      (u = .enc ∧ base = 0x10#8 ∨ u = .dec ∧ base = 0x20#8 ∨ u = .pack ∧ base = 0x30#8 ∨
        u = .unpk ∧ base = 0x40#8) →
      readCsr s (base + 1#8) = (s.ctl u).faultCmd ∧
      readCsr s (base + 2#8) = BitVec.ofNat 32 (s.oqLen u) ∧
      readCsr s (base + 3#8) = BitVec.ofNat 32 (s.ctl u).cmdq.length) ∧
    (readCsr s 0x14#8 = s.enc.sync.nextCode.setWidth 32 ∧ readCsr s 0x15#8 = s.enc.w.setWidth 32 ∧
      readCsr s 0x16#8 = s.enc.inBytes ∧ readCsr s 0x17#8 = s.enc.outCodes ∧
      readCsr s 0x18#8 = s.enc.sync.epoch) ∧
    (readCsr s 0x24#8 = s.dec.sync.nextCode.setWidth 32 ∧ readCsr s 0x25#8 = s.dec.prior.setWidth 32 ∧
      readCsr s 0x26#8 = s.dec.inCodes ∧ readCsr s 0x27#8 = s.dec.outBytes ∧
      readCsr s 0x28#8 = s.dec.sync.epoch) ∧
    ((readCsr s 0x34#8).toNat = (if s.pack.hold then 16 else 0) + s.pack.nib.toNat ∧
      readCsr s 0x35#8 = s.pack.inCodes ∧ readCsr s 0x36#8 = s.pack.outBytes) ∧
    (readCsr s 0x44#8 = s.unpk.expected.setWidth 32 ∧ readCsr s 0x45#8 = s.unpk.produced.setWidth 32 ∧
      readCsr s 0x46#8 = s.unpk.inBytes ∧
      (readCsr s 0x47#8).extractLsb' 0 2 = s.unpk.pos.code ∧ (readCsr s 0x47#8).extractLsb' 2 6 = 0#6 ∧
      (readCsr s 0x47#8).extractLsb' 8 8 = s.unpk.acc ∧ (readCsr s 0x47#8).extractLsb' 16 16 = 0#16)

/-- 10_state.md R41: the unmapped addresses read 0. -/
def Obligations.UnmappedCsrReadsZero : Prop :=
  ∀ (s : State) (a : BitVec 8),
    ((0x0A ≤ a.toNat ∧ a.toNat ≤ 0x0F) ∨ (0x19 ≤ a.toNat ∧ a.toNat ≤ 0x1F) ∨
      (0x29 ≤ a.toNat ∧ a.toNat ≤ 0x2F) ∨ (0x37 ≤ a.toNat ∧ a.toNat ≤ 0x3F) ∨ 0x48 ≤ a.toNat) →
    readCsr s a = 0#32

/-- 10_state.md R37: the STATUS layout of every unit, its reserved bits 0. -/
def Obligations.StatusFieldsStandWhereTheSpecPutsThem : Prop :=
  ∀ (s : State) (u : UnitId) (base : BitVec 8),
    (u = .enc ∧ base = 0x10#8 ∨ u = .dec ∧ base = 0x20#8 ∨ u = .pack ∧ base = 0x30#8 ∨
      u = .unpk ∧ base = 0x40#8) →
    (readCsr s base).extractLsb' 0 2 = (match (s.ctl u).phase with
      | .idle => 0#2 | .opened => 1#2 | .run => 2#2 | .fault => 3#2) ∧
    (readCsr s base).extractLsb' 2 1 = BitVec.ofBool (s.ctl u).done ∧
    (readCsr s base).extractLsb' 3 1 = 0#1 ∧
    (readCsr s base).extractLsb' 4 4 = (s.ctl u).cause ∧
    (readCsr s base).extractLsb' 8 4 = (s.ctl u).detail ∧
    (readCsr s base).extractLsb' 12 1 = (if u = .dec then BitVec.ofBool s.dec.anom else 0#1) ∧
    (readCsr s base).extractLsb' 13 1 = (if u = .dec then BitVec.ofBool s.dec.stale else 0#1) ∧
    (readCsr s base).extractLsb' 14 18 = 0#18

/-! ### Commands -/

/-- 41_encoder.md R121, 42_decoder.md R141, 43_bitpacker.md R161, 44_bitunpacker.md R176: a START gives the
unit's working state its start values and keeps both queues; in FAULT with cause DICTIONARY_OVERFLOW it is
dropped (45_common.md R195). -/
def Obligations.StartClearsTheRunAndKeepsTheQueues : Prop :=
  (∀ s : State, ¬(s.enc.ctl.phase = .fault ∧ s.enc.ctl.cause = 3#4) →
    exec .encStart s = .next { s with enc := {
      ctl := { phase := .opened, done := false, cause := 0#4, detail := 0#4, faultCmd := 0#32,
               cmdq := s.enc.ctl.cmdq },
      oq := s.enc.oq, w := 0#12, sync := { nextCode := 256#13, epoch := 0#32, dict := [] },
      inBytes := 0#32, outCodes := 0#32 } }) ∧
  (∀ s : State, ¬(s.dec.ctl.phase = .fault ∧ s.dec.ctl.cause = 3#4) →
    exec .decStart s = .next { s with dec := {
      ctl := { phase := .opened, done := false, cause := 0#4, detail := 0#4, faultCmd := 0#32,
               cmdq := s.dec.ctl.cmdq },
      oq := s.dec.oq, prior := 0#12, sync := { nextCode := 256#13, epoch := 0#32, dict := [] },
      anom := false, stale := false, inCodes := 0#32, outBytes := 0#32 } }) ∧
  (∀ s : State, ¬(s.pack.ctl.phase = .fault ∧ s.pack.ctl.cause = 3#4) →
    exec .packStart s = .next { s with pack := {
      ctl := { phase := .run, done := false, cause := 0#4, detail := 0#4, faultCmd := 0#32,
               cmdq := s.pack.ctl.cmdq },
      oq := s.pack.oq, hold := false, nib := 0#4, inCodes := 0#32, outBytes := 0#32 } }) ∧
  (∀ (n : BitVec 24) (s : State), ¬(s.unpk.ctl.phase = .fault ∧ s.unpk.ctl.cause = 3#4) →
    exec (.unpkStart n) s = .next { s with unpk := {
      ctl := { phase := .run, done := false, cause := 0#4, detail := 0#4, faultCmd := 0#32,
               cmdq := s.unpk.ctl.cmdq },
      oq := s.unpk.oq, expected := n, produced := 0#24, pos := .byte0, acc := 0#8, inBytes := 0#32 } }) ∧
  (∀ (i : Instr) (u : UnitId) (s : State), isStart i = true → i.unit? = some u →
    (s.ctl u).phase = .fault → (s.ctl u).cause = 3#4 → exec i s = .next s)

/-- 41_encoder.md R122: the first input byte. -/
def Obligations.FirstEncByteSetsTheSymbol : Prop :=
  ∀ (c : Byte) (s : State), s.enc.ctl.phase = .opened →
    exec (.encByte c) s = .next { s with enc := { s.enc with
      w := c.setWidth 12, inBytes := s.enc.inBytes + 1#32, ctl := { s.enc.ctl with phase := .run } } }

/-- 41_encoder.md R123: each subsequent input byte extends the match or emits the code of w and inserts; the
unreachable overflow check faults COUNTER. -/
def Obligations.NextEncByteExtendsOrEmits : Prop :=
  ∀ (c : Byte) (s : State), s.enc.ctl.phase = .run →
    (∀ x, lookup s.enc.sync.dict s.enc.w c = some x →
      exec (.encByte c) s = .next { s with enc := { s.enc with w := x, inBytes := s.enc.inBytes + 1#32 } }) ∧
    (lookup s.enc.sync.dict s.enc.w c = none → s.enc.sync.nextCode.toNat < 4096 →
      exec (.encByte c) s = .next { s with enc := { s.enc with
        oq := s.enc.oq ++ [.data s.enc.w], outCodes := s.enc.outCodes + 1#32,
        sync := s.enc.sync.insert s.enc.w c, w := c.setWidth 12, inBytes := s.enc.inBytes + 1#32 } }) ∧
    (lookup s.enc.sync.dict s.enc.w c = none → 4096 ≤ s.enc.sync.nextCode.toNat →
      exec (.encByte c) s = .next { s with enc := { s.enc with
        ctl := { s.enc.ctl with phase := .fault, cause := 3#4, detail := 1#4, faultCmd := 0x110000#24 ++ c } } })

/-- 41_encoder.md R124: END flushes the code of w, if a byte was given, and closes the run with Eos. -/
def Obligations.EncEndFlushesTheFinalCode : Prop :=
  ∀ s : State,
    (s.enc.ctl.phase = .run → exec .encEnd s = .next { s with enc := { s.enc with
      oq := s.enc.oq ++ [.data s.enc.w, .eos], outCodes := s.enc.outCodes + 1#32,
      ctl := { s.enc.ctl with phase := .idle, done := true } } }) ∧
    (s.enc.ctl.phase = .opened → exec .encEnd s = .next { s with enc := { s.enc with
      oq := s.enc.oq ++ [.eos], ctl := { s.enc.ctl with phase := .idle, done := true } } })

/-- 42_decoder.md R142: the first code, with its two faults in their order. -/
def Obligations.FirstDecCodeMustBeASingleton : Prop :=
  ∀ (k : Operand) (s : State), s.dec.ctl.phase = .opened →
    (4095 < k.toNat → exec (.decCode k) s = .next { s with dec := { s.dec with
      ctl := { s.dec.ctl with phase := .fault, cause := 2#4, detail := 1#4, faultCmd := 0x21#8 ++ k } } }) ∧
    (256 ≤ k.toNat → k.toNat ≤ 4095 → exec (.decCode k) s = .next { s with dec := { s.dec with
      ctl := { s.dec.ctl with phase := .fault, cause := 2#4, detail := 2#4, faultCmd := 0x21#8 ++ k } } }) ∧
    (k.toNat < 256 → exec (.decCode k) s = .next { s with dec := { s.dec with
      oq := s.dec.oq ++ [.data (k.setWidth 8)], prior := k.setWidth 12, inCodes := 1#32, outBytes := 1#32,
      ctl := { s.dec.ctl with phase := .run } } })

/-- 42_decoder.md R143, R144: the checks of a subsequent code in their order, and a bound code: its symbol is
emitted, and the prior symbol with the codeword's first byte is bound. -/
def Obligations.BoundDecCodeEmitsItsSymbol : Prop :=
  ∀ (k : Operand) (s : State), s.dec.ctl.phase = .run →
    (4095 < k.toNat → exec (.decCode k) s = .next { s with dec := { s.dec with
      ctl := { s.dec.ctl with phase := .fault, cause := 2#4, detail := 1#4, faultCmd := 0x21#8 ++ k } } }) ∧
    (k.toNat ≤ 4095 → s.dec.stale = true → exec (.decCode k) s = .next { s with dec := { s.dec with
      ctl := { s.dec.ctl with phase := .fault, cause := 2#4, detail := 4#4, faultCmd := 0x21#8 ++ k } } }) ∧
    (k.toNat ≤ 4095 → s.dec.stale = false → 4096 ≤ s.dec.sync.nextCode.toNat →
      exec (.decCode k) s = .next { s with dec := { s.dec with
        ctl := { s.dec.ctl with phase := .fault, cause := 3#4, detail := 1#4, faultCmd := 0x21#8 ++ k } } }) ∧
    (k.toNat ≤ 4095 → s.dec.stale = false → s.dec.sync.nextCode.toNat < 4096 →
      k.toNat < s.dec.sync.nextCode.toNat →
      ∃ (b : Byte) (bs : List Byte), symbolOf s.dec.sync.dict (k.setWidth 12) = b :: bs ∧
        exec (.decCode k) s = .next { s with dec := { s.dec with
          sync := s.dec.sync.insert s.dec.prior b,
          oq := s.dec.oq ++ (b :: bs).map .data,
          outBytes := s.dec.outBytes + BitVec.ofNat 32 (b :: bs).length,
          inCodes := s.dec.inCodes + 1#32,
          prior := k.setWidth 12,
          stale := decide ((s.dec.sync.insert s.dec.prior b).epoch ≠ s.dec.sync.epoch ∧ 256 ≤ k.toNat) } })

/-- 42_decoder.md R145: an unbound code is decoded as the code bound in this very step, whatever its value; a
value other than that code sets ANOM. -/
def Obligations.UnboundDecCodeRepeatsThePriorSymbol : Prop :=
  ∀ (k : Operand) (s : State), s.dec.ctl.phase = .run → k.toNat ≤ 4095 → s.dec.stale = false →
    s.dec.sync.nextCode.toNat < 4096 → s.dec.sync.nextCode.toNat ≤ k.toNat →
      ∃ (b : Byte) (bs : List Byte), symbolOf s.dec.sync.dict s.dec.prior = b :: bs ∧
        exec (.decCode k) s = .next { s with dec := { s.dec with
          sync := s.dec.sync.insert s.dec.prior b,
          oq := s.dec.oq ++ (b :: bs ++ [b]).map .data,
          outBytes := s.dec.outBytes + BitVec.ofNat 32 (bs.length + 2),
          inCodes := s.dec.inCodes + 1#32,
          prior := s.dec.sync.nextCode.setWidth 12,
          anom := s.dec.anom || decide (k.toNat ≠ s.dec.sync.nextCode.toNat),
          stale := decide ((s.dec.sync.insert s.dec.prior b).epoch ≠ s.dec.sync.epoch) } }

/-- 42_decoder.md R148: END faults EMPTY when no code was given and closes the run with Eos otherwise. -/
def Obligations.DecEndNeedsAtLeastOneCode : Prop :=
  ∀ s : State,
    (s.dec.ctl.phase = .opened → exec .decEnd s = .next { s with dec := { s.dec with
      ctl := { s.dec.ctl with phase := .fault, cause := 2#4, detail := 3#4, faultCmd := 0x22000000#32 } } }) ∧
    (s.dec.ctl.phase = .run → exec .decEnd s = .next { s with dec := { s.dec with
      oq := s.dec.oq ++ [.eos], ctl := { s.dec.ctl with phase := .idle, done := true } } })

/-- 43_bitpacker.md R162, R163: a code at an even position and a code at an odd position, in the source's
shifts. -/
def Obligations.PackCodeEmitsTheBytesItCompletes : Prop :=
  ∀ (k : Code) (s : State), s.pack.ctl.phase = .run →
    (s.pack.hold = false → exec (.packCode k) s = .next { s with pack := { s.pack with
      oq := s.pack.oq ++ [.data ((k >>> 4).setWidth 8)], nib := k.setWidth 4, hold := true,
      inCodes := s.pack.inCodes + 1#32, outBytes := s.pack.outBytes + 1#32 } }) ∧
    (s.pack.hold = true → exec (.packCode k) s = .next { s with pack := { s.pack with
      oq := s.pack.oq ++ [.data ((s.pack.nib.setWidth 8 <<< 4) ||| (k >>> 8).setWidth 8), .data (k.setWidth 8)],
      nib := 0#4, hold := false,
      inCodes := s.pack.inCodes + 1#32, outBytes := s.pack.outBytes + 2#32 } })

/-- 43_bitpacker.md R164: END pads a held nibble with zero bits and closes the run with Eos. -/
def Obligations.PackEndPadsTheOddCode : Prop :=
  ∀ s : State, s.pack.ctl.phase = .run →
    (s.pack.hold = true → exec .packEnd s = .next { s with pack := { s.pack with
      oq := s.pack.oq ++ [.data (s.pack.nib.setWidth 8 <<< 4), .eos], outBytes := s.pack.outBytes + 1#32,
      nib := 0#4, hold := false, ctl := { s.pack.ctl with phase := .idle, done := true } } }) ∧
    (s.pack.hold = false → exec .packEnd s = .next { s with pack := { s.pack with
      oq := s.pack.oq ++ [.eos], ctl := { s.pack.ctl with phase := .idle, done := true } } })

/-- 44_bitunpacker.md R177, R178, R179: the three bytes of a group, in the source's shifts. In states that no run
reaches, that `produced` wraps in 24 bits and that code1 takes the low 4 bits of `acc` is the model's choice
(log 15). -/
def Obligations.UnpkByteRecoversTheCodes : Prop :=
  ∀ (b : Byte) (s : State), s.unpk.ctl.phase = .run →
    (s.unpk.pos = .byte0 → s.unpk.produced = s.unpk.expected →
      exec (.unpkByte b) s = .next { s with unpk := { s.unpk with
        ctl := { s.unpk.ctl with phase := .fault, cause := 2#4, detail := 5#4,
                                 faultCmd := 0x410000#24 ++ b } } }) ∧
    (s.unpk.pos = .byte0 → s.unpk.produced ≠ s.unpk.expected →
      exec (.unpkByte b) s = .next { s with unpk := { s.unpk with
        acc := b, pos := .byte1, inBytes := s.unpk.inBytes + 1#32 } }) ∧
    (s.unpk.pos = .byte1 → s.unpk.produced + 1#24 = s.unpk.expected →
      exec (.unpkByte b) s = .next { s with unpk := { s.unpk with
        oq := s.unpk.oq ++ [.data ((s.unpk.acc.setWidth 12 <<< 4) ||| (b >>> 4).setWidth 12)],
        produced := s.unpk.produced + 1#24, inBytes := s.unpk.inBytes + 1#32, acc := 0#8, pos := .byte0 } }) ∧
    (s.unpk.pos = .byte1 → s.unpk.produced + 1#24 ≠ s.unpk.expected →
      exec (.unpkByte b) s = .next { s with unpk := { s.unpk with
        oq := s.unpk.oq ++ [.data ((s.unpk.acc.setWidth 12 <<< 4) ||| (b >>> 4).setWidth 12)],
        produced := s.unpk.produced + 1#24, inBytes := s.unpk.inBytes + 1#32, acc := b &&& 0x0F#8,
        pos := .byte2 } }) ∧
    (s.unpk.pos = .byte2 →
      exec (.unpkByte b) s = .next { s with unpk := { s.unpk with
        oq := s.unpk.oq ++ [.data ((s.unpk.acc.setWidth 12 <<< 8) ||| b.setWidth 12)],
        produced := s.unpk.produced + 1#24, inBytes := s.unpk.inBytes + 1#32, acc := 0#8, pos := .byte0 } })

/-- 44_bitunpacker.md R180: END faults TRUNCATED inside a group or short of the count, and closes the run with
Eos otherwise. -/
def Obligations.UnpkEndChecksTheCount : Prop :=
  ∀ s : State, s.unpk.ctl.phase = .run →
    (s.unpk.pos ≠ .byte0 ∨ s.unpk.produced ≠ s.unpk.expected →
      exec .unpkEnd s = .next { s with unpk := { s.unpk with
        ctl := { s.unpk.ctl with phase := .fault, cause := 2#4, detail := 6#4, faultCmd := 0x42000000#32 } } }) ∧
    (s.unpk.pos = .byte0 → s.unpk.produced = s.unpk.expected →
      exec .unpkEnd s = .next { s with unpk := { s.unpk with
        oq := s.unpk.oq ++ [.eos], ctl := { s.unpk.ctl with phase := .idle, done := true } } })

/-- 45_common.md R194: `nop` only leaves its queue, on every port and in every phase; with a non-zero operand
it faults OPERAND but in FAULT. -/
def Obligations.NopOnlyLeavesItsQueue : Prop :=
  (∀ s : State, exec .nop s = .next s) ∧
  (∀ (u : UnitId) (ws : List Word) (s : State), (s.ctl u).cmdq = 0#32 :: ws → s.stepEnabled u = true →
    runUnit u s = .next (s.setCmdq u ws)) ∧
  (∀ (u : UnitId) (w : Word) (s : State), opcodeOf w = 0x00#8 → operandOf w ≠ 0#24 →
    ((s.ctl u).phase ≠ .fault → execWord u w s = .next (s.setCtl u
      { s.ctl u with phase := .fault, cause := 1#4, detail := 3#4, faultCmd := w })) ∧
    ((s.ctl u).phase = .fault → execWord u w s = .next s))

/-! ### Dictionary and synchronizer -/

/-- 40_dictionary.md R106: SyncInsert binds the next code, counts, and resets the epoch in the same step as the
counter reaches 4096. (ENC and DEC both call this one operation, R117.) -/
def Obligations.SyncInsertCountsAndResets : Prop :=
  ∀ (y : Sync) (p : Code) (c : Byte),
    (y.nextCode.toNat < 4095 → y.insert p c =
      { y with dict := insertEntry y.dict (y.nextCode.setWidth 12) p c, nextCode := y.nextCode + 1#13 }) ∧
    (y.nextCode.toNat = 4095 → y.insert p c = { nextCode := 256#13, epoch := y.epoch + 1#32, dict := [] })

/-- 40_dictionary.md R105, R108: in a dictionary with distinct keys Lookup finds exactly the stored bindings;
Insert of a fresh key under the next code binds it and leaves every other key as it was. -/
def Obligations.LookupFindsExactlyTheBindings : Prop :=
  (∀ (d : List DictEntry) (p : Code) (c : Byte) (x : Code), keysDistinct d →
    (lookup d p c = some x ↔ (⟨x, p, c⟩ : DictEntry) ∈ d)) ∧
  (∀ (d : List DictEntry) (p : Code) (c : Byte),
    (lookup d p c = none ↔ ∀ e ∈ d, ¬(e.pre = p ∧ e.last = c))) ∧
  (∀ (d : List DictEntry) (x p q : Code) (c b : Byte), boundBelow d x.toNat → lookup d p c = none →
    lookup (insertEntry d x p c) q b = (if q = p ∧ b = c then some x else lookup d q b))

/-- 40_dictionary.md R103, R104: in a dictionary whose bound codes are 256 .. n−1, the symbol of a bound code
is that of its prefix followed by its last byte, `firstb` is its first byte and `lenD` its length. -/
def Obligations.SymbolOfACodeExtendsItsPrefix : Prop :=
  ∀ (d : List DictEntry) (n : Nat), boundBelow d n →
    (∀ k : Code, k.toNat < 256 →
      symbolOf d k = [k.setWidth 8] ∧ firstByte d k = k.setWidth 8 ∧ symbolLen d k = 1) ∧
    (∀ k : Code, 256 ≤ k.toNat → k.toNat < n → ∃ e : DictEntry, entryAt d k = some e ∧ e.code = k ∧
      e.pre.toNat < k.toNat ∧
      symbolOf d k = symbolOf d e.pre ++ [e.last] ∧ firstByte d k = firstByte d e.pre ∧
      symbolLen d k = symbolLen d e.pre + 1) ∧
    (∀ k : Code, (symbolOf d k).head? = some (firstByte d k) ∧ symbolLen d k = (symbolOf d k).length)

/-- 40_dictionary.md R112: the counting law. -/
def Obligations.CountingLawOfInsertions : Prop :=
  ∀ (es : List (Code × Byte)),
    (insertAll { nextCode := 256#13, epoch := 0#32, dict := [] } es).nextCode.toNat = 256 + es.length % 3840 ∧
    (insertAll { nextCode := 256#13, epoch := 0#32, dict := [] } es).epoch =
      BitVec.ofNat 32 (es.length / 3840)

/-- 40_dictionary.md R111 (b): the bound codes of ENC name distinct symbols. -/
def Obligations.EncoderSymbolsAreDistinct : Prop :=
  ∀ (e : EncUnit) (j k : Code), EncInv e → j.toNat < e.sync.nextCode.toNat →
    k.toNat < e.sync.nextCode.toNat → symbolOf e.sync.dict j = symbolOf e.sync.dict k → j = k

/-- 42_decoder.md R146, 00_scope.md R10: the symbol of code 256 + m is at most m + 2 bytes long, and a bound
symbol extended by one byte at most 3841. -/
def Obligations.SymbolLengthIsBounded : Prop :=
  ∀ (y : Sync) (k : Code), SyncInv y → k.toNat < y.nextCode.toNat →
    symbolLen y.dict k ≤ (k.toNat - 256) + 2 ∧ symbolLen y.dict k + 1 ≤ 3841

/-! ### Invariants and whole-machine rules -/

/-- 10_state.md R30 with 40_dictionary.md R111, 41_encoder.md R126, 42_decoder.md R154 and the queue bounds of
10_state.md R31, R32: every step keeps the invariant. -/
def Obligations.EveryStepKeepsTheInvariant : Prop :=
  ∀ s t : State, Inv s → step s = .next t → Inv t

/-- 30_encoding.md R89, 60_exceptions.md R200: no word and no move stops the machine, and no step writes a
parameter. -/
def Obligations.EveryStepAnswersAState : Prop :=
  ∀ s : State, ∃ t, step s = .next t ∧ t.params = s.params

/-- 10_state.md R20, 60_exceptions.md R214: a unit's step, a fault included, changes no other unit, no pin and
nothing of the host's. -/
def Obligations.UnitStepLeavesTheOtherUnits : Prop :=
  ∀ (u : UnitId) (s t : State), runUnit u s = .next t →
    (u ≠ .enc → t.enc = s.enc) ∧ (u ≠ .dec → t.dec = s.dec) ∧ (u ≠ .pack → t.pack = s.pack) ∧
    (u ≠ .unpk → t.unpk = s.unpk) ∧ t.rstN = s.rstN ∧ t.params = s.params ∧ t.host = s.host

/-- 20_memory.md R73: the steps of two units give the same state in either order. -/
def Obligations.StepsOfTwoUnitsCommute : Prop :=
  ∀ (u v : UnitId) (s : State), u ≠ v →
    andThen (runUnit u s) (runUnit v) = andThen (runUnit v s) (runUnit u)

/-- 20_memory.md R72: but for hardware reset, a step loses no item and changes no order: what the host has
taken and what is still queued only grows at its end. That the host's side lists what it took is the model's choice
(log 7). -/
def Obligations.NoStepLosesAnItem : Prop :=
  ∀ s t : State, step s = .next t → s.host.schedule.head? ≠ some .assertReset →
    (s.host.encTaken ++ s.enc.oq) <+: (t.host.encTaken ++ t.enc.oq) ∧
    (s.host.decTaken ++ s.dec.oq) <+: (t.host.decTaken ++ t.dec.oq) ∧
    (s.host.packTaken ++ s.pack.oq) <+: (t.host.packTaken ++ t.pack.oq) ∧
    (s.host.unpkTaken ++ s.unpk.oq) <+: (t.host.unpkTaken ++ t.unpk.oq)

/-- 20_memory.md R71, 70_reset_and_hazards.md R244: but for hardware reset, a step keeps the words of a unit in
order and loses none: it removes at most the one it executes, and accepts at the end. That the host's side lists the
words it offers is the model's choice (log 5). -/
def Obligations.CommandsStayInOrder : Prop :=
  ∀ (s t : State) (u : UnitId), step s = .next t → s.host.schedule.head? ≠ some .assertReset →
    (t.ctl u).cmdq ++ t.host.offered.get u = (s.ctl u).cmdq ++ s.host.offered.get u ∨
    ((s.ctl u).cmdq ≠ [] ∧
      (t.ctl u).cmdq ++ t.host.offered.get u = (s.ctl u).cmdq.tail ++ s.host.offered.get u)

/-- 10_state.md R29: which commands set and clear each flag, and that hardware reset clears them all. -/
def Obligations.FlagsChangeOnlyAsTheSpecSays : Prop :=
  (∀ (i : Instr) (s t : State), exec i s = .next t →
    (∀ u, (t.ctl u).done ≠ (s.ctl u).done →
      (isStart i = true ∧ i.unit? = some u ∧ (t.ctl u).done = false) ∨
      (i ∈ [Instr.encEnd, .decEnd, .packEnd, .unpkEnd] ∧ i.unit? = some u ∧ (t.ctl u).done = true ∧
        (t.ctl u).phase = .idle)) ∧
    (t.dec.anom ≠ s.dec.anom →
      (i = .decStart ∧ t.dec.anom = false) ∨ (∃ k, i = .decCode k ∧ t.dec.anom = true)) ∧
    (t.dec.stale ≠ s.dec.stale →
      (i = .decStart ∧ t.dec.stale = false) ∨ (∃ k, i = .decCode k ∧ t.dec.stale = true)) ∧
    (t.pack.hold ≠ s.pack.hold →
      ((i = .packStart ∨ i = .packEnd) ∧ t.pack.hold = false) ∨ (∃ k, i = .packCode k))) ∧
  (∀ s t : State, doMove .assertReset s = .next t →
    (∀ u, (t.ctl u).done = false) ∧ t.dec.anom = false ∧ t.dec.stale = false ∧ t.pack.hold = false)

/-- The frame of ENC's commands (41_encoder.md R121 to R125): only ENC changes, its command queue does not, its
output queue only grows; END keeps w, the dictionary, its counters and in_bytes; BYTE keeps done. -/
def Obligations.EncCommandsFrame : Prop :=
  ∀ (i : Instr) (s t : State), i.unit? = some .enc → exec i s = .next t →
    t = { s with enc := t.enc } ∧ t.enc.ctl.cmdq = s.enc.ctl.cmdq ∧ s.enc.oq <+: t.enc.oq ∧
    (i = .encStart → t.enc.oq = s.enc.oq) ∧
    (i = .encEnd → t.enc.w = s.enc.w ∧ t.enc.sync = s.enc.sync ∧ t.enc.inBytes = s.enc.inBytes) ∧
    (∀ c, i = .encByte c → t.enc.ctl.done = s.enc.ctl.done ∧
      (t.enc.sync ≠ s.enc.sync → s.enc.ctl.phase = .run ∧ lookup s.enc.sync.dict s.enc.w c = none ∧
        t.enc.oq = s.enc.oq ++ [.data s.enc.w]))

/-- The frame of DEC's commands (42_decoder.md R141 to R149). -/
def Obligations.DecCommandsFrame : Prop :=
  ∀ (i : Instr) (s t : State), i.unit? = some .dec → exec i s = .next t →
    t = { s with dec := t.dec } ∧ t.dec.ctl.cmdq = s.dec.ctl.cmdq ∧ s.dec.oq <+: t.dec.oq ∧
    (i = .decStart → t.dec.oq = s.dec.oq) ∧
    (i = .decEnd → t.dec.prior = s.dec.prior ∧ t.dec.sync = s.dec.sync ∧ t.dec.anom = s.dec.anom ∧
      t.dec.stale = s.dec.stale ∧ t.dec.inCodes = s.dec.inCodes ∧ t.dec.outBytes = s.dec.outBytes) ∧
    (∀ k, i = .decCode k → t.dec.ctl.done = s.dec.ctl.done ∧
      (t.dec.sync ≠ s.dec.sync → s.dec.ctl.phase = .run ∧ k.toNat ≤ 4095 ∧ s.dec.stale = false ∧
        s.dec.oq ≠ t.dec.oq))

/-- The frame of PACK's commands (43_bitpacker.md R161 to R165). -/
def Obligations.PackCommandsFrame : Prop :=
  ∀ (i : Instr) (s t : State), i.unit? = some .pack → exec i s = .next t →
    t = { s with pack := t.pack } ∧ t.pack.ctl.cmdq = s.pack.ctl.cmdq ∧ s.pack.oq <+: t.pack.oq ∧
    (i = .packStart → t.pack.oq = s.pack.oq) ∧
    (i = .packEnd → t.pack.inCodes = s.pack.inCodes) ∧
    (∀ k, i = .packCode k → t.pack.ctl.done = s.pack.ctl.done ∧
      (s.pack.ctl.phase ≠ .run → { t.pack with ctl := s.pack.ctl } = s.pack))

/-- The frame of UNPK's commands (44_bitunpacker.md R176 to R181). -/
def Obligations.UnpkCommandsFrame : Prop :=
  ∀ (i : Instr) (s t : State), i.unit? = some .unpk → exec i s = .next t →
    t = { s with unpk := t.unpk } ∧ t.unpk.ctl.cmdq = s.unpk.ctl.cmdq ∧ s.unpk.oq <+: t.unpk.oq ∧
    (∀ n, i = .unpkStart n → t.unpk.oq = s.unpk.oq) ∧
    (i = .unpkEnd → t.unpk.expected = s.unpk.expected ∧ t.unpk.produced = s.unpk.produced ∧
      t.unpk.pos = s.unpk.pos ∧ t.unpk.acc = s.unpk.acc ∧ t.unpk.inBytes = s.unpk.inBytes) ∧
    (∀ b, i = .unpkByte b → t.unpk.expected = s.unpk.expected ∧ t.unpk.ctl.done = s.unpk.ctl.done)

/-- 41_encoder.md R127: from a state of a run, ENC emits no code that is unbound, so never code 4095. -/
def Obligations.EncoderNeverEmitsCode4095 : Prop :=
  ∀ (i : Instr) (s t : State) (v : Code), EncInv s.enc → i.unit? = some .enc → exec i s = .next t →
    ∀ new, t.enc.oq = s.enc.oq ++ new → Item.data v ∈ new →
      v.toNat < s.enc.sync.nextCode.toNat ∧ v.toNat ≤ 4094

/-- 70_reset_and_hazards.md R239 in the model's own order of moves (log 3): with the schedule empty, a step either
uses up a queued or offered word, or nothing is enabled and the state stays. -/
def Obligations.UnscheduledStepsUseUpTheWords : Prop :=
  ∀ s t : State, s.host.schedule = [] → step s = .next t →
    (t = s ∧ ∀ u, s.stepEnabled u = false ∧ s.acceptEnabled u = false) ∨
    (t.enc.ctl.cmdq.length + t.dec.ctl.cmdq.length + t.pack.ctl.cmdq.length + t.unpk.ctl.cmdq.length +
        2 * (t.host.offered.enc.length + t.host.offered.dec.length + t.host.offered.pack.length +
          t.host.offered.unpk.length) <
      s.enc.ctl.cmdq.length + s.dec.ctl.cmdq.length + s.pack.ctl.cmdq.length + s.unpk.ctl.cmdq.length +
        2 * (s.host.offered.enc.length + s.host.offered.dec.length + s.host.offered.pack.length +
          s.host.offered.unpk.length))

/-! ### Streams -/

/-- 43_bitpacker.md R167, R168: a PACK run emits exactly the packed stream of 30_encoding.md R93, then Eos, and
counts the codes and bytes; before its END, a nibble is held exactly when the number of codes is odd. -/
def Obligations.PackRunEmitsThePackedStream : Prop :=
  ∀ (cs : List Code) (s : State), s.pack.ctl.canStart = true →
    (∃ m, execAll (.packStart :: packCodes cs) s = .next m ∧ m.pack.ctl.phase = .run ∧
      m.pack.hold = decide (cs.length % 2 = 1)) ∧
    ∃ t, execAll (packRun cs) s = .next t ∧
      t.pack.oq = s.pack.oq ++ (packedStream cs).map .data ++ [.eos] ∧
      (packedStream cs).length = packedLength cs.length ∧
      t.pack.inCodes = BitVec.ofNat 32 cs.length ∧
      t.pack.outBytes = BitVec.ofNat 32 (packedLength cs.length) ∧
      t.pack.ctl.phase = .idle ∧ t.pack.ctl.done = true ∧
      t.pack.hold = false ∧ t.pack.nib = 0#4

/-- 43_bitpacker.md R169, 44_bitunpacker.md R185: unpacking the bytes a PACK run emits, with its count, gives
the codes back, for even and odd counts. -/
def Obligations.UnpackingAPackRunGivesTheCodes : Prop :=
  ∀ (cs : List Code) (s : State), cs.length < 2 ^ 24 → s.pack.ctl.canStart = true →
    s.unpk.ctl.canStart = true →
    ∃ (bs : List Byte) (t : State),
      execAll (packRun cs ++ unpkRun (BitVec.ofNat 24 cs.length) bs) s = .next t ∧
      t.pack.oq = s.pack.oq ++ bs.map .data ++ [.eos] ∧
      t.unpk.oq = s.unpk.oq ++ cs.map .data ++ [.eos] ∧
      t.unpk.ctl.phase = .idle ∧ t.unpk.ctl.done = true

/-- 44_bitunpacker.md R183: an UNPK run of count N completes exactly on L(N) bytes, of any values, and emits N
codes; a longer stream faults EXCESS at byte L(N), a shorter one TRUNCATED at END. -/
def Obligations.UnpackRunAcceptsExactlyTheRightLength : Prop :=
  ∀ (n : BitVec 24) (bs : List Byte) (s : State), s.unpk.ctl.canStart = true →
    ∃ t, execAll (unpkRun n bs) s = .next t ∧
      (bs.length = packedLength n.toNat → t.unpk.ctl.phase = .idle ∧ t.unpk.ctl.done = true ∧
        ∃ cs : List Code, cs.length = n.toNat ∧ t.unpk.oq = s.unpk.oq ++ cs.map .data ++ [.eos]) ∧
      (packedLength n.toNat < bs.length → t.unpk.ctl.phase = .fault ∧ t.unpk.ctl.cause = 2#4 ∧
        t.unpk.ctl.detail = 5#4 ∧
        ∃ b, bs[packedLength n.toNat]? = some b ∧ t.unpk.ctl.faultCmd = 0x410000#24 ++ b) ∧
      (bs.length < packedLength n.toNat → t.unpk.ctl.phase = .fault ∧ t.unpk.ctl.cause = 2#4 ∧
        t.unpk.ctl.detail = 6#4 ∧ t.unpk.ctl.faultCmd = 0x42000000#32)

/-- 41_encoder.md R131: the counts at the end of an encoder run of B bytes that emits n codes. -/
def Obligations.EncoderRunCounts : Prop :=
  ∀ (xs : List Byte) (s : State), xs ≠ [] → s.enc.ctl.canStart = true →
    ∃ (ks : List Code) (t : State), execAll (encRun xs) s = .next t ∧
      t.enc.oq = s.enc.oq ++ ks.map .data ++ [.eos] ∧ ks ≠ [] ∧
      t.enc.inBytes = BitVec.ofNat 32 xs.length ∧ t.enc.outCodes = BitVec.ofNat 32 ks.length ∧
      t.enc.sync.epoch = BitVec.ofNat 32 ((ks.length - 1) / 3840) ∧
      t.enc.sync.nextCode.toNat = 256 + (ks.length - 1) % 3840

/-- 41_encoder.md R130: an encoder run emits exactly the codes of the source's algorithm, which holds w as a byte
string and the dictionary as a map from strings to codes. -/
def Obligations.EncoderAgreesWithTheSourceAlgorithm : Prop :=
  ∀ (xs : List Byte) (s : State), s.enc.ctl.canStart = true →
    ∃ (ks : List Code) (t : State), execAll (encRun xs) s = .next t ∧
      t.enc.oq = s.enc.oq ++ ks.map .data ++ [.eos] ∧
      SourceEncoder.encodeBytes xs = ks.map (fun k => some k.toNat)

/-- 42_decoder.md R152, with R151 and R153: decoding the codes of an encoder run of a non-empty input gives the
input back, with no fault, no ANOM and no STALE, and both units end with the same counter and epoch; the empty
input has no codes, and decoding none faults EMPTY. -/
def Obligations.DecodingAnEncoderRunGivesTheInput : Prop :=
  ∀ (xs : List Byte) (s : State), s.enc.ctl.canStart = true → s.dec.ctl.canStart = true →
    ∃ (ks : List Code) (t : State),
      execAll (encRun xs ++ decRun (ks.map (fun k => k.setWidth 24))) s = .next t ∧
      t.enc.oq = s.enc.oq ++ ks.map .data ++ [.eos] ∧
      (xs ≠ [] → t.dec.oq = s.dec.oq ++ xs.map .data ++ [.eos] ∧
        t.dec.ctl.phase = .idle ∧ t.dec.ctl.done = true ∧ t.dec.anom = false ∧ t.dec.stale = false ∧
        t.dec.sync.nextCode = t.enc.sync.nextCode ∧ t.dec.sync.epoch = t.enc.sync.epoch) ∧
      (xs = [] → ks = [] ∧ t.dec.oq = s.dec.oq ∧ t.dec.ctl.phase = .fault ∧
        t.dec.ctl.cause = 2#4 ∧ t.dec.ctl.detail = 3#4)
end

