-- ==== Sys2Proof/Laws/Dictionary.lean ====
section
/-! SUPPORT. The dictionary's laws: canonical form, lookup, symbols, and everything SyncInsert can do. -/

namespace Sys2Proof.Machine

/-! ### Canonical form -/

theorem insertEntry_head_le {d : List DictEntry} {x p : Code} {c : Byte} {e : DictEntry}
    (hd : dictWf (e :: d)) (hx : x.toNat < e.code.toNat) : dictWf (e :: insertEntry d x p c) := by
  induction d generalizing e with
  | nil => simpa [insertEntry, dictWf] using hx
  | cons f rest ih =>
    simp only [dictWf, Bool.and_eq_true, decide_eq_true_eq] at hd
    simp only [insertEntry]
    split
    · simp [dictWf, *]
    · split
      · rename_i _ heq
        subst heq
        cases rest with
        | nil => simpa [dictWf] using hd.1
        | cons g r =>
          simp only [dictWf, Bool.and_eq_true, decide_eq_true_eq] at hd ⊢
          exact hd
      · rename_i h1 h2
        have hlt : x.toNat < f.code.toNat := by
          have : f.code.toNat ≠ x.toNat := fun h => h2 (BitVec.eq_of_toNat_eq h)
          omega
        simp only [dictWf, Bool.and_eq_true, decide_eq_true_eq]
        exact ⟨hd.1, ih hd.2 hlt⟩

/-- Insert keeps the canonical form. -/
theorem insertEntry_wf {d : List DictEntry} (x p : Code) (c : Byte) (hd : dictWf d) :
    dictWf (insertEntry d x p c) := by
  cases d with
  | nil => rfl
  | cons e rest =>
    simp only [insertEntry]
    split
    · simp [dictWf, *]
    · split
      · rename_i _ heq
        subst heq
        cases rest with
        | nil => rfl
        | cons g r =>
          simp only [dictWf, Bool.and_eq_true, decide_eq_true_eq] at hd ⊢
          exact hd
      · rename_i h1 h2
        have hlt : x.toNat < e.code.toNat := by
          have : e.code.toNat ≠ x.toNat := fun h => h2 (BitVec.eq_of_toNat_eq h)
          omega
        exact insertEntry_head_le hd hlt

/-- SyncInsert keeps the canonical form. -/
theorem Sync.insert_wf (y : Sync) (p : Code) (c : Byte) (h : dictWf y.dict) : dictWf (y.insert p c).dict := by
  unfold Sync.insert
  dsimp only
  split
  · rfl
  · exact insertEntry_wf _ _ _ h

theorem Sync.start_wf (y : Sync) : dictWf y.start.dict := rfl

theorem reset_dict_wf : dictWf State.reset.enc.sync.dict ∧ dictWf State.reset.dec.sync.dict := ⟨rfl, rfl⟩

/-- Bound codes 256 .. n−1 listed by falling code are in canonical form. -/
theorem boundBelow.wf {d : List DictEntry} {n : Nat} (h : boundBelow d n) : dictWf d := by
  induction d generalizing n with
  | nil => rfl
  | cons e rest ih =>
    obtain ⟨-, -, hr⟩ := h
    cases rest with
    | nil => rfl
    | cons f r =>
      simp only [dictWf, Bool.and_eq_true, decide_eq_true_eq]
      exact ⟨by have := hr.1; omega, ih hr⟩

/-! ### Bound codes -/

theorem boundBelow.le {d : List DictEntry} {n : Nat} (h : boundBelow d n) : 256 ≤ n := by
  induction d generalizing n with
  | nil => simp [boundBelow] at h; omega
  | cons e rest ih => have := ih h.2.2; have := h.1; omega

/-- Every listed entry has a bound code, and its prefix is a smaller one. -/
theorem boundBelow.mem {d : List DictEntry} {n : Nat} (h : boundBelow d n) {e : DictEntry} (he : e ∈ d) :
    256 ≤ e.code.toNat ∧ e.code.toNat < n ∧ e.pre.toNat < e.code.toNat := by
  induction d generalizing n with
  | nil => cases he
  | cons f rest ih =>
    obtain ⟨h1, h2, h3⟩ := h
    rcases List.mem_cons.mp he with rfl | hm
    · exact ⟨h3.le, by omega, h2⟩
    · obtain ⟨a, b, c⟩ := ih h3 hm
      exact ⟨a, by omega, c⟩

/-- An insertion at the next code puts its entry first. -/
theorem insertEntry_of_boundBelow {d : List DictEntry} {x : Code} (p : Code) (c : Byte)
    (h : boundBelow d x.toNat) : insertEntry d x p c = ⟨x, p, c⟩ :: d := by
  cases d with
  | nil => rfl
  | cons e rest =>
    have : e.code.toNat < x.toNat := by have := h.1; omega
    simp [insertEntry, this]

/-! ### Lookup -/

/-- What a successful lookup found. -/
theorem lookup_some {d : List DictEntry} {p : Code} {c : Byte} {x : Code} (h : lookup d p c = some x) :
    (⟨x, p, c⟩ : DictEntry) ∈ d := by
  induction d with
  | nil => cases h
  | cons e rest ih =>
    simp only [lookup] at h
    split at h
    · rename_i he
      obtain ⟨rfl, rfl⟩ := he
      cases h
      exact List.mem_cons_self ..
    · exact List.mem_cons_of_mem _ (ih h)

/-! ### Symbols -/

theorem symbolOf_singleton (d : List DictEntry) {k : Code} (h : k.toNat < 256) :
    symbolOf d k = [codeByte k] := by
  cases d <;> simp [symbolOf, h]

theorem firstByte_singleton (d : List DictEntry) {k : Code} (h : k.toNat < 256) :
    firstByte d k = codeByte k := by
  cases d <;> simp [firstByte, h]

/-- Every symbol is non-empty and begins with `firstByte` (40_dictionary.md R104). -/
theorem symbolOf_eq_cons (d : List DictEntry) (k : Code) :
    ∃ rest, symbolOf d k = firstByte d k :: rest := by
  induction d generalizing k with
  | nil =>
    simp only [symbolOf, firstByte]
    split
    · exact ⟨[], rfl⟩
    · exact ⟨_, rfl⟩
  | cons e rest ih =>
    simp only [symbolOf, firstByte]
    split
    · exact ⟨[], rfl⟩
    · split
      · obtain ⟨r, hr⟩ := ih e.pre
        exact ⟨r ++ [e.last], by rw [hr]; rfl⟩
      · exact ih k

/-- A code that is not the head entry's has its symbol among the rest. -/
theorem symbolOf_cons_ne {e : DictEntry} {d : List DictEntry} {k : Code} (h : e.code ≠ k) :
    symbolOf (e :: d) k = symbolOf d k := by
  by_cases hk : k.toNat < 256
  · rw [symbolOf_singleton _ hk, symbolOf_singleton _ hk]
  · simp [symbolOf, hk, h]

theorem firstByte_cons_ne {e : DictEntry} {d : List DictEntry} {k : Code} (h : e.code ≠ k) :
    firstByte (e :: d) k = firstByte d k := by
  by_cases hk : k.toNat < 256
  · rw [firstByte_singleton _ hk, firstByte_singleton _ hk]
  · simp [firstByte, hk, h]

/-! ### The synchronizer -/

/-- Everything SyncInsert can do (40_dictionary.md R106): count on within the epoch, or reset it. -/
theorem Sync.insert_cases (y : Sync) (p : Code) (c : Byte) :
    (y.nextCode + 1#13 ≠ 4096#13 ∧ (y.insert p c).nextCode = y.nextCode + 1#13 ∧
      (y.insert p c).epoch = y.epoch ∧ (y.insert p c).dict = insertEntry y.dict y.nextAsCode p c) ∨
    (y.nextCode + 1#13 = 4096#13 ∧ (y.insert p c).nextCode = 256#13 ∧
      (y.insert p c).epoch = y.epoch + 1#32 ∧ (y.insert p c).dict = []) := by
  unfold Sync.insert
  dsimp only
  split
  · exact .inr ⟨‹_›, rfl, rfl, rfl⟩
  · exact .inl ⟨‹_›, rfl, rfl, rfl⟩

@[simp] theorem Sync.start_nextCode (y : Sync) : y.start.nextCode = 256#13 := rfl
@[simp] theorem Sync.start_epoch (y : Sync) : y.start.epoch = 0#32 := rfl
@[simp] theorem Sync.start_dict (y : Sync) : y.start.dict = [] := rfl

theorem Sync.overflow_iff (y : Sync) : y.overflow = true ↔ 4096 ≤ y.nextCode.toNat := by
  unfold Sync.overflow
  rw [decide_eq_true_iff]
  rfl

theorem Sync.bound_iff (y : Sync) (k : Nat) : y.bound k = true ↔ k < y.nextCode.toNat := by
  simp [Sync.bound]

end Sys2Proof.Machine
end

