-- ==== Sys2Proof/Laws/State.lean ====
section
/-! SUPPORT. What each update of the state reads back as, field by field. -/

namespace Sys2Proof

@[simp] theorem PerUnit.get_set_self {α : Type} (p : PerUnit α) (u : UnitId) (a : α) :
    (p.set u a).get u = a := by cases u <;> rfl

theorem PerUnit.get_set_ne {α : Type} (p : PerUnit α) {u v : UnitId} (a : α) (h : v ≠ u) :
    (p.set u a).get v = p.get v := by
  cases u <;> cases v <;> first | rfl | exact absurd rfl h

namespace Machine

/-! ### Common fields -/

@[simp] theorem Ctl.raise_phase (c : Ctl) (k : FaultKind) (w : Word) : (c.raise k w).phase = .fault := rfl
@[simp] theorem Ctl.raise_done (c : Ctl) (k : FaultKind) (w : Word) : (c.raise k w).done = c.done := rfl
@[simp] theorem Ctl.raise_cause (c : Ctl) (k : FaultKind) (w : Word) : (c.raise k w).cause = k.cause := rfl
@[simp] theorem Ctl.raise_detail (c : Ctl) (k : FaultKind) (w : Word) : (c.raise k w).detail = k.detail := rfl
@[simp] theorem Ctl.raise_faultCmd (c : Ctl) (k : FaultKind) (w : Word) : (c.raise k w).faultCmd = w := rfl
@[simp] theorem Ctl.raise_cmdq (c : Ctl) (k : FaultKind) (w : Word) : (c.raise k w).cmdq = c.cmdq := rfl

@[simp] theorem Ctl.restart_phase (c : Ctl) (ph : Phase) : (c.restart ph).phase = ph := rfl
@[simp] theorem Ctl.restart_done (c : Ctl) (ph : Phase) : (c.restart ph).done = false := rfl
@[simp] theorem Ctl.restart_cause (c : Ctl) (ph : Phase) : (c.restart ph).cause = 0#4 := rfl
@[simp] theorem Ctl.restart_detail (c : Ctl) (ph : Phase) : (c.restart ph).detail = 0#4 := rfl
@[simp] theorem Ctl.restart_faultCmd (c : Ctl) (ph : Phase) : (c.restart ph).faultCmd = 0#32 := rfl
@[simp] theorem Ctl.restart_cmdq (c : Ctl) (ph : Phase) : (c.restart ph).cmdq = c.cmdq := rfl

@[simp] theorem Ctl.finish_phase (c : Ctl) : c.finish.phase = .idle := rfl
@[simp] theorem Ctl.finish_done (c : Ctl) : c.finish.done = true := rfl
@[simp] theorem Ctl.finish_cause (c : Ctl) : c.finish.cause = c.cause := rfl
@[simp] theorem Ctl.finish_detail (c : Ctl) : c.finish.detail = c.detail := rfl
@[simp] theorem Ctl.finish_faultCmd (c : Ctl) : c.finish.faultCmd = c.faultCmd := rfl
@[simp] theorem Ctl.finish_cmdq (c : Ctl) : c.finish.cmdq = c.cmdq := rfl

/-- When a START is turned away (45_common.md R195). -/
theorem Ctl.canStart_iff (c : Ctl) : c.canStart = true ↔ ¬(c.phase = .fault ∧ c.cause = 3#4) := by
  simp [Ctl.canStart, imp_iff_not_or]

/-- Everything an illegal word can do to the common fields. -/
theorem Ctl.takeIllegal_cases (c : Ctl) (e : DecodeError) (w : Word) :
    (c.phase = .fault ∧ c.takeIllegal e w = c) ∨
    (c.phase ≠ .fault ∧ c.takeIllegal e w = c.raise (illegalKind e) w) := by
  unfold Ctl.takeIllegal
  split
  · exact .inl ⟨‹_›, rfl⟩
  · exact .inr ⟨‹_›, rfl⟩

namespace State

/-! ### setCtl -/

@[simp] theorem ctl_setCtl_self (s : State) (u : UnitId) (c : Ctl) : (s.setCtl u c).ctl u = c := by
  cases u <;> rfl

theorem ctl_setCtl_ne (s : State) {u v : UnitId} (c : Ctl) (h : v ≠ u) : (s.setCtl u c).ctl v = s.ctl v := by
  cases u <;> cases v <;> first | rfl | exact absurd rfl h

@[simp] theorem setCtl_ctl (s : State) (u : UnitId) : s.setCtl u (s.ctl u) = s := by cases u <;> rfl
@[simp] theorem setCtl_setCtl (s : State) (u : UnitId) (c c' : Ctl) :
    (s.setCtl u c).setCtl u c' = s.setCtl u c' := by cases u <;> rfl
@[simp] theorem oqLen_setCtl (s : State) (u v : UnitId) (c : Ctl) : (s.setCtl u c).oqLen v = s.oqLen v := by
  cases u <;> cases v <;> rfl
@[simp] theorem rstN_setCtl (s : State) (u : UnitId) (c : Ctl) : (s.setCtl u c).rstN = s.rstN := by
  cases u <;> rfl
@[simp] theorem params_setCtl (s : State) (u : UnitId) (c : Ctl) : (s.setCtl u c).params = s.params := by
  cases u <;> rfl
@[simp] theorem host_setCtl (s : State) (u : UnitId) (c : Ctl) : (s.setCtl u c).host = s.host := by
  cases u <;> rfl

/-! ### setCmdq -/

@[simp] theorem ctl_setCmdq_self (s : State) (u : UnitId) (q : List Word) :
    (s.setCmdq u q).ctl u = { s.ctl u with cmdq := q } := by cases u <;> rfl

theorem ctl_setCmdq_ne (s : State) {u v : UnitId} (q : List Word) (h : v ≠ u) :
    (s.setCmdq u q).ctl v = s.ctl v := ctl_setCtl_ne s _ h

@[simp] theorem oqLen_setCmdq (s : State) (u v : UnitId) (q : List Word) :
    (s.setCmdq u q).oqLen v = s.oqLen v := oqLen_setCtl s u v _
@[simp] theorem rstN_setCmdq (s : State) (u : UnitId) (q : List Word) : (s.setCmdq u q).rstN = s.rstN :=
  rstN_setCtl s u _
@[simp] theorem params_setCmdq (s : State) (u : UnitId) (q : List Word) : (s.setCmdq u q).params = s.params :=
  params_setCtl s u _
@[simp] theorem host_setCmdq (s : State) (u : UnitId) (q : List Word) : (s.setCmdq u q).host = s.host :=
  host_setCtl s u _

/-! ### setOffered -/

@[simp] theorem ctl_setOffered (s : State) (u v : UnitId) (q : List Word) :
    (s.setOffered u q).ctl v = s.ctl v := by cases v <;> rfl
@[simp] theorem oqLen_setOffered (s : State) (u v : UnitId) (q : List Word) :
    (s.setOffered u q).oqLen v = s.oqLen v := by cases v <;> rfl
@[simp] theorem rstN_setOffered (s : State) (u : UnitId) (q : List Word) : (s.setOffered u q).rstN = s.rstN := rfl
@[simp] theorem params_setOffered (s : State) (u : UnitId) (q : List Word) :
    (s.setOffered u q).params = s.params := rfl
@[simp] theorem offered_setOffered (s : State) (u : UnitId) (q : List Word) :
    (s.setOffered u q).host.offered = s.host.offered.set u q := rfl

/-! ### setSchedule -/

@[simp] theorem enc_setSchedule (s : State) (l : List Move) : (s.setSchedule l).enc = s.enc := rfl
@[simp] theorem dec_setSchedule (s : State) (l : List Move) : (s.setSchedule l).dec = s.dec := rfl
@[simp] theorem pack_setSchedule (s : State) (l : List Move) : (s.setSchedule l).pack = s.pack := rfl
@[simp] theorem unpk_setSchedule (s : State) (l : List Move) : (s.setSchedule l).unpk = s.unpk := rfl
@[simp] theorem rstN_setSchedule (s : State) (l : List Move) : (s.setSchedule l).rstN = s.rstN := rfl
@[simp] theorem params_setSchedule (s : State) (l : List Move) : (s.setSchedule l).params = s.params := rfl
@[simp] theorem offered_setSchedule (s : State) (l : List Move) :
    (s.setSchedule l).host.offered = s.host.offered := rfl
@[simp] theorem schedule_setSchedule (s : State) (l : List Move) : (s.setSchedule l).host.schedule = l := rfl
@[simp] theorem ctl_setSchedule (s : State) (u : UnitId) (l : List Move) :
    (s.setSchedule l).ctl u = s.ctl u := by cases u <;> rfl
@[simp] theorem oqLen_setSchedule (s : State) (u : UnitId) (l : List Move) :
    (s.setSchedule l).oqLen u = s.oqLen u := by cases u <;> rfl

/-! ### hardwareReset, recordCsr -/

@[simp] theorem enc_hardwareReset (s : State) : s.hardwareReset.enc = EncUnit.reset := rfl
@[simp] theorem dec_hardwareReset (s : State) : s.hardwareReset.dec = DecUnit.reset := rfl
@[simp] theorem pack_hardwareReset (s : State) : s.hardwareReset.pack = PackUnit.reset := rfl
@[simp] theorem unpk_hardwareReset (s : State) : s.hardwareReset.unpk = UnpkUnit.reset := rfl
@[simp] theorem rstN_hardwareReset (s : State) : s.hardwareReset.rstN = false := rfl
@[simp] theorem params_hardwareReset (s : State) : s.hardwareReset.params = s.params := rfl
@[simp] theorem host_hardwareReset (s : State) : s.hardwareReset.host = s.host := rfl
@[simp] theorem ctl_hardwareReset (s : State) (u : UnitId) : s.hardwareReset.ctl u = Ctl.reset := by
  cases u <;> rfl
@[simp] theorem oqLen_hardwareReset (s : State) (u : UnitId) : s.hardwareReset.oqLen u = 0 := by
  cases u <;> rfl

@[simp] theorem enc_recordCsr (s : State) (a : BitVec 8) (v : Word) : (s.recordCsr a v).enc = s.enc := rfl
@[simp] theorem dec_recordCsr (s : State) (a : BitVec 8) (v : Word) : (s.recordCsr a v).dec = s.dec := rfl
@[simp] theorem pack_recordCsr (s : State) (a : BitVec 8) (v : Word) : (s.recordCsr a v).pack = s.pack := rfl
@[simp] theorem unpk_recordCsr (s : State) (a : BitVec 8) (v : Word) : (s.recordCsr a v).unpk = s.unpk := rfl
@[simp] theorem rstN_recordCsr (s : State) (a : BitVec 8) (v : Word) : (s.recordCsr a v).rstN = s.rstN := rfl
@[simp] theorem params_recordCsr (s : State) (a : BitVec 8) (v : Word) :
    (s.recordCsr a v).params = s.params := rfl
@[simp] theorem ctl_recordCsr (s : State) (u : UnitId) (a : BitVec 8) (v : Word) :
    (s.recordCsr a v).ctl u = s.ctl u := by cases u <;> rfl
@[simp] theorem oqLen_recordCsr (s : State) (u : UnitId) (a : BitVec 8) (v : Word) :
    (s.recordCsr a v).oqLen u = s.oqLen u := by cases u <;> rfl
@[simp] theorem offered_recordCsr (s : State) (a : BitVec 8) (v : Word) :
    (s.recordCsr a v).host.offered = s.host.offered := rfl

/-! ### take -/

@[simp] theorem ctl_take (s : State) (u v : UnitId) (k : Nat) : (s.take u k).ctl v = s.ctl v := by
  cases u <;> cases v <;> rfl
@[simp] theorem oqLen_take_self (s : State) (u : UnitId) (k : Nat) : (s.take u k).oqLen u = s.oqLen u - k := by
  cases u <;> simp [take, oqLen]

theorem oqLen_take_ne (s : State) {u v : UnitId} (k : Nat) (h : v ≠ u) : (s.take u k).oqLen v = s.oqLen v := by
  cases u <;> cases v <;> first | rfl | exact absurd rfl h

@[simp] theorem rstN_take (s : State) (u : UnitId) (k : Nat) : (s.take u k).rstN = s.rstN := by cases u <;> rfl
@[simp] theorem params_take (s : State) (u : UnitId) (k : Nat) : (s.take u k).params = s.params := by
  cases u <;> rfl
@[simp] theorem offered_take (s : State) (u : UnitId) (k : Nat) :
    (s.take u k).host.offered = s.host.offered := by cases u <;> rfl

end State

end Machine

/-! ### Queue bounds, without the lower bounds tried first -/

theorem Params.oqFits_iff (p : Params) (u : UnitId) (n : Nat) : p.oqFits u n = true ↔ n ≤ p.oqDepth u := by
  unfold Params.oqFits
  rw [Bool.or_eq_true, decide_eq_true_iff, decide_eq_true_iff]
  unfold Params.oqDepth
  omega

theorem Params.cmdqFits_iff (p : Params) (n : Nat) : p.cmdqFits n = true ↔ n ≤ p.cmdqDepth := by
  unfold Params.cmdqFits
  rw [Bool.or_eq_true, decide_eq_true_iff, decide_eq_true_iff]
  unfold Params.cmdqDepth
  omega

end Sys2Proof
end

