-- ==== Sys2Proof/Laws/Exec.lean ====
section
/-! SUPPORT. What each meaning answers, once, and what each unit's commands can do. -/

namespace Sys2Proof.Machine

/-! ### One equation for each instruction -/

theorem exec_nop (s : State) : exec .nop s = .next s := rfl
theorem exec_encStart (s : State) : exec .encStart s = .next { s with enc := s.enc.onStart } := rfl
theorem exec_encByte (c : Byte) (s : State) : exec (.encByte c) s = .next { s with enc := s.enc.onByte c } := rfl
theorem exec_encEnd (s : State) : exec .encEnd s = .next { s with enc := s.enc.onEnd } := rfl
theorem exec_decStart (s : State) : exec .decStart s = .next { s with dec := s.dec.onStart } := rfl
theorem exec_decCode (k : Operand) (s : State) :
    exec (.decCode k) s = .next { s with dec := s.dec.onCode k } := rfl
theorem exec_decEnd (s : State) : exec .decEnd s = .next { s with dec := s.dec.onEnd } := rfl
theorem exec_packStart (s : State) : exec .packStart s = .next { s with pack := s.pack.onStart } := rfl
theorem exec_packCode (k : Code) (s : State) :
    exec (.packCode k) s = .next { s with pack := s.pack.onCode k } := rfl
theorem exec_packEnd (s : State) : exec .packEnd s = .next { s with pack := s.pack.onEnd } := rfl
theorem exec_unpkStart (n : BitVec 24) (s : State) :
    exec (.unpkStart n) s = .next { s with unpk := s.unpk.onStart n } := rfl
theorem exec_unpkByte (b : Byte) (s : State) :
    exec (.unpkByte b) s = .next { s with unpk := s.unpk.onByte b } := rfl
theorem exec_unpkEnd (s : State) : exec .unpkEnd s = .next { s with unpk := s.unpk.onEnd } := rfl
theorem exec_csrRead (a : BitVec 8) (s : State) :
    exec (.csrRead a) s = .next (s.recordCsr a (readCsr s a)) := rfl

/-! ### Everything a unit's command can do, phase by phase -/

theorem EncUnit.onStart_cases (e : EncUnit) :
    (e.ctl.canStart = true ∧ e.onStart = e.start) ∨ (e.ctl.canStart = false ∧ e.onStart = e) := by
  unfold EncUnit.onStart
  cases h : e.ctl.canStart <;> simp

theorem EncUnit.onByte_cases (e : EncUnit) (c : Byte) :
    (e.ctl.phase = .idle ∧ e.onByte c = e.fault .sequence (encode (.encByte c))) ∨
    (e.ctl.phase = .opened ∧ e.onByte c = e.firstByteIn c) ∨
    (e.ctl.phase = .run ∧ e.onByte c = e.nextByteIn c) ∨
    (e.ctl.phase = .fault ∧ e.onByte c = e) := by
  unfold EncUnit.onByte
  cases h : e.ctl.phase <;> simp

theorem EncUnit.nextByteIn_cases (e : EncUnit) (c : Byte) :
    (∃ x, lookup e.sync.dict e.w c = some x ∧
      e.nextByteIn c = { e with inBytes := bump e.inBytes 1, w := x }) ∨
    (lookup e.sync.dict e.w c = none ∧ e.sync.overflow = true ∧
      e.nextByteIn c = e.fault .counter (encode (.encByte c))) ∨
    (lookup e.sync.dict e.w c = none ∧ e.sync.overflow = false ∧
      e.nextByteIn c = { e with inBytes := bump e.inBytes 1, oq := emit e.oq [.data e.w],
                                outCodes := bump e.outCodes 1, sync := e.sync.insert e.w c,
                                w := byteCode c }) := by
  unfold EncUnit.nextByteIn
  cases h : lookup e.sync.dict e.w c with
  | some x => exact .inl ⟨x, rfl, rfl⟩
  | none =>
    cases ho : e.sync.overflow with
    | true => exact .inr (.inl ⟨rfl, rfl, by simp⟩)
    | false => exact .inr (.inr ⟨rfl, rfl, by simp⟩)

theorem EncUnit.onEnd_cases (e : EncUnit) :
    (e.ctl.phase = .idle ∧ e.onEnd = e.fault .sequence (encode .encEnd)) ∨
    (e.ctl.phase = .opened ∧ e.onEnd = e.finishEmpty) ∨
    (e.ctl.phase = .run ∧ e.onEnd = e.finishRun) ∨
    (e.ctl.phase = .fault ∧ e.onEnd = e) := by
  unfold EncUnit.onEnd
  cases h : e.ctl.phase <;> simp

theorem DecUnit.onStart_cases (d : DecUnit) :
    (d.ctl.canStart = true ∧ d.onStart = d.start) ∨ (d.ctl.canStart = false ∧ d.onStart = d) := by
  unfold DecUnit.onStart
  cases h : d.ctl.canStart <;> simp

theorem DecUnit.onCode_cases (d : DecUnit) (k : Operand) :
    (d.ctl.phase = .idle ∧ d.onCode k = d.fault .sequence (encode (.decCode k))) ∨
    (d.ctl.phase = .opened ∧ d.onCode k = d.firstCodeIn k) ∨
    (d.ctl.phase = .run ∧ d.onCode k = d.nextCodeIn k) ∨
    (d.ctl.phase = .fault ∧ d.onCode k = d) := by
  unfold DecUnit.onCode
  cases h : d.ctl.phase <;> simp

theorem DecUnit.firstCodeIn_cases (d : DecUnit) (k : Operand) :
    (4095 < k.toNat ∧ d.firstCodeIn k = d.fault .range (encode (.decCode k))) ∨
    (256 ≤ k.toNat ∧ k.toNat ≤ 4095 ∧ d.firstCodeIn k = d.fault .firstUnbound (encode (.decCode k))) ∨
    (k.toNat < 256 ∧ d.firstCodeIn k =
      { d with oq := emit d.oq [.data (codeByte (operandCode k))], prior := operandCode k, inCodes := 1#32,
               outBytes := 1#32, ctl := { d.ctl with phase := .run } }) := by
  unfold DecUnit.firstCodeIn
  split
  · exact .inl ⟨‹_›, rfl⟩
  · split
    · exact .inr (.inl ⟨‹_›, by omega, rfl⟩)
    · exact .inr (.inr ⟨by omega, rfl⟩)

theorem DecUnit.nextCodeIn_cases (d : DecUnit) (k : Operand) :
    (4095 < k.toNat ∧ d.nextCodeIn k = d.fault .range (encode (.decCode k))) ∨
    (k.toNat ≤ 4095 ∧ d.stale = true ∧ d.nextCodeIn k = d.fault .stale (encode (.decCode k))) ∨
    (k.toNat ≤ 4095 ∧ d.stale = false ∧ d.sync.overflow = true ∧
      d.nextCodeIn k = d.fault .counter (encode (.decCode k))) ∨
    (k.toNat ≤ 4095 ∧ d.stale = false ∧ d.sync.overflow = false ∧ d.nextCodeIn k = d.decodeOne k) := by
  unfold DecUnit.nextCodeIn
  by_cases h : 4095 < k.toNat
  · exact .inl ⟨h, by simp [h]⟩
  · have hk : k.toNat ≤ 4095 := by omega
    cases hs : d.stale <;> cases ho : d.sync.overflow <;> simp [h, hk]

theorem DecUnit.onEnd_cases (d : DecUnit) :
    (d.ctl.phase = .idle ∧ d.onEnd = d.fault .sequence (encode .decEnd)) ∨
    (d.ctl.phase = .opened ∧ d.onEnd = d.fault .empty (encode .decEnd)) ∨
    (d.ctl.phase = .run ∧ d.onEnd = d.finishRun) ∨
    (d.ctl.phase = .fault ∧ d.onEnd = d) := by
  unfold DecUnit.onEnd
  cases h : d.ctl.phase <;> simp

theorem PackUnit.onStart_cases (p : PackUnit) :
    (p.ctl.canStart = true ∧ p.onStart = p.start) ∨ (p.ctl.canStart = false ∧ p.onStart = p) := by
  unfold PackUnit.onStart
  cases h : p.ctl.canStart <;> simp

theorem PackUnit.onCode_cases (p : PackUnit) (k : Code) :
    ((p.ctl.phase = .idle ∨ p.ctl.phase = .opened) ∧
      p.onCode k = p.fault .sequence (encode (.packCode k))) ∨
    (p.ctl.phase = .run ∧ p.hold = false ∧ p.onCode k = p.evenCodeIn k) ∨
    (p.ctl.phase = .run ∧ p.hold = true ∧ p.onCode k = p.oddCodeIn k) ∨
    (p.ctl.phase = .fault ∧ p.onCode k = p) := by
  unfold PackUnit.onCode
  cases h : p.ctl.phase <;> cases hh : p.hold <;> simp

theorem PackUnit.onEnd_cases (p : PackUnit) :
    ((p.ctl.phase = .idle ∨ p.ctl.phase = .opened) ∧ p.onEnd = p.fault .sequence (encode .packEnd)) ∨
    (p.ctl.phase = .run ∧ p.hold = false ∧ p.onEnd = p.finishEven) ∨
    (p.ctl.phase = .run ∧ p.hold = true ∧ p.onEnd = p.finishOdd) ∨
    (p.ctl.phase = .fault ∧ p.onEnd = p) := by
  unfold PackUnit.onEnd
  cases h : p.ctl.phase <;> cases hh : p.hold <;> simp

theorem UnpkUnit.onStart_cases (p : UnpkUnit) (n : BitVec 24) :
    (p.ctl.canStart = true ∧ p.onStart n = p.start n) ∨ (p.ctl.canStart = false ∧ p.onStart n = p) := by
  unfold UnpkUnit.onStart
  cases h : p.ctl.canStart <;> simp

theorem UnpkUnit.onByte_cases (p : UnpkUnit) (b : Byte) :
    ((p.ctl.phase = .idle ∨ p.ctl.phase = .opened) ∧
      p.onByte b = p.fault .sequence (encode (.unpkByte b))) ∨
    (p.ctl.phase = .run ∧ p.pos = .byte0 ∧ p.onByte b = p.byte0In b) ∨
    (p.ctl.phase = .run ∧ p.pos = .byte1 ∧ p.onByte b = p.byte1In b) ∨
    (p.ctl.phase = .run ∧ p.pos = .byte2 ∧ p.onByte b = p.byte2In b) ∨
    (p.ctl.phase = .fault ∧ p.onByte b = p) := by
  unfold UnpkUnit.onByte UnpkUnit.byteIn
  cases h : p.ctl.phase <;> cases hh : p.pos <;> simp

theorem UnpkUnit.onEnd_cases (p : UnpkUnit) :
    ((p.ctl.phase = .idle ∨ p.ctl.phase = .opened) ∧ p.onEnd = p.fault .sequence (encode .unpkEnd)) ∨
    (p.ctl.phase = .run ∧ (p.pos ≠ .byte0 ∨ p.produced ≠ p.expected) ∧
      p.onEnd = p.fault .truncated (encode .unpkEnd)) ∨
    (p.ctl.phase = .run ∧ p.pos = .byte0 ∧ p.produced = p.expected ∧
      p.onEnd = { p with oq := emit p.oq [.eos], ctl := p.ctl.finish }) ∨
    (p.ctl.phase = .fault ∧ p.onEnd = p) := by
  unfold UnpkUnit.onEnd UnpkUnit.endIn
  cases h : p.ctl.phase <;> simp
  by_cases h0 : p.pos = .byte0 <;> by_cases h1 : p.produced = p.expected <;> simp [h0, h1]

end Sys2Proof.Machine
end

