-- ==== Sys2Proof/Laws/PerInstr.lean ====
section
/-! SUPPORT. Statements made of each instruction as syntax: `WordLayout`, how its word is laid out
(30_encoding.md R80). -/

namespace Sys2Proof.Laws.WordLayout

/-- The opcode stands in bits 31:24 of the instruction's word and the operand in bits 23:0. -/
def Statement (i : Instr) : Prop := opcodeOf (encode i) = i.opcode ∧ operandOf (encode i) = i.operand

theorem append_fields (a : BitVec 8) (b : BitVec 24) :
    opcodeOf (a ++ b) = a ∧ operandOf (a ++ b) = b :=
  ⟨BitVec.extractLsb'_append_eq_left, BitVec.extractLsb'_append_eq_right⟩

theorem nop : Statement .nop := append_fields _ _
theorem encStart : Statement .encStart := append_fields _ _
theorem encByte (c : BitVec 8) : Statement (.encByte c) := append_fields _ _
theorem encEnd : Statement .encEnd := append_fields _ _
theorem decStart : Statement .decStart := append_fields _ _
theorem decCode (k : BitVec 24) : Statement (.decCode k) := append_fields _ _
theorem decEnd : Statement .decEnd := append_fields _ _
theorem packStart : Statement .packStart := append_fields _ _
theorem packCode (k : BitVec 12) : Statement (.packCode k) := append_fields _ _
theorem packEnd : Statement .packEnd := append_fields _ _
theorem unpkStart (n : BitVec 24) : Statement (.unpkStart n) := append_fields _ _
theorem unpkByte (b : BitVec 8) : Statement (.unpkByte b) := append_fields _ _
theorem unpkEnd : Statement .unpkEnd := append_fields _ _
theorem csrRead (a : BitVec 8) : Statement (.csrRead a) := append_fields _ _

end Sys2Proof.Laws.WordLayout
end

