-- ==== Sys2Proof/Laws/Step.lean ====
section
/-! SUPPORT. When a move is enabled and everything a step can do, once. -/

namespace Sys2Proof.Machine

/-- `Accept` is enabled as 45_common.md R191 says. -/
theorem State.acceptEnabled_iff (s : State) (u : UnitId) :
    s.acceptEnabled u = true ↔
      s.rstN = true ∧ (s.ctl u).cmdq.length + 1 ≤ s.params.cmdqDepth ∧ s.host.offered.get u ≠ [] := by
  simp [State.acceptEnabled, State.cmdReady, State.cmdValid, Params.cmdqFits_iff, and_assoc]

/-- The hold rule as an inequality (45_common.md R193). -/
theorem State.hasRoom_iff (s : State) (u : UnitId) (w : Word) :
    s.hasRoom u w = true ↔ s.oqLen u + s.noutWord u w ≤ s.params.oqDepth u := by
  simp [State.hasRoom, Params.oqFits_iff]

/-- `Drain` is enabled as 45_common.md R191 says. -/
theorem State.outValid_iff (s : State) (u : UnitId) :
    s.outValid u = true ↔ s.rstN = true ∧ 0 < s.oqLen u := by
  simp [State.outValid]

/-- A unit step either holds, or removes the head command and executes it. -/
theorem runUnit_cases (u : UnitId) (s : State) :
    (s.stepEnabled u = false ∧ runUnit u s = .next s) ∨
    (∃ w ws, (s.ctl u).cmdq = w :: ws ∧ s.rstN = true ∧ s.hasRoom u w = true ∧
      runUnit u s = execWord u w (s.setCmdq u ws)) := by
  unfold runUnit
  cases h : s.stepEnabled u with
  | false => exact .inl ⟨rfl, by simp⟩
  | true =>
    right
    cases hq : (s.ctl u).cmdq with
    | nil => simp [State.stepEnabled, hq] at h
    | cons w ws =>
      simp only [State.stepEnabled, hq, Bool.and_eq_true] at h
      exact ⟨w, ws, rfl, h.1, h.2, by simp⟩

/-- An executed word is an instruction of its port or an illegal word. -/
theorem execWord_cases (u : UnitId) (w : Word) (s : State) :
    (∃ i, decodeCmd u w = .cmd i ∧ execWord u w s = exec i s) ∨
    (∃ e, decodeCmd u w = .illegal e ∧ execWord u w s = .next (s.takeIllegal u e w)) := by
  unfold execWord
  cases h : decodeCmd u w with
  | cmd i => exact .inl ⟨i, rfl, rfl⟩
  | illegal e => exact .inr ⟨e, rfl, rfl⟩

/-- A step is the scheduled move, or with none scheduled an enabled one, or nothing. -/
theorem step_cases (s : State) :
    (∃ m rest, s.host.schedule = m :: rest ∧ step s = doMove m (s.setSchedule rest)) ∨
    (∃ m, s.host.schedule = [] ∧ s.autoMove = some m ∧ step s = doMove m s) ∨
    (s.host.schedule = [] ∧ s.autoMove = none ∧ step s = .next s) := by
  unfold step moveNext
  cases h : s.host.schedule with
  | cons m rest => exact .inl ⟨m, rest, rfl, rfl⟩
  | nil =>
    cases ha : s.autoMove with
    | some m => exact .inr (.inl ⟨m, rfl, rfl, rfl⟩)
    | none => exact .inr (.inr ⟨rfl, rfl, rfl⟩)

end Sys2Proof.Machine
end

