-- ==== Sys2Proof/Tests/Slice0.lean ====
section
/-! SUPPORT. Tests: what the checks refuse, words and runs of 95_test_vectors.md, and a witness for the
hypotheses of each statement. -/

open Sys2Proof Sys2Proof.Machine Sys2Proof.Machine.Assembler

namespace Sys2Proof.Tests

/-! ### Small states -/

/-- The reset state with the smallest legal depths. -/
def s0 : State := { State.reset with params := ⟨0, 0, 0, 0, 0⟩ }

/-- What a result's state shows, if it is a next state. -/
def look {α : Type} (r : Result) (f : State → α) : Option α :=
  match r with
  | .next t => some (f t)
  | .fault _ => none
  | .refused _ => none

/-- What the state after some instructions from reset shows. -/
def after {α : Type} (is : List Instr) (f : State → α) : Option α := look (execAll is s0) f

/-- What the state after one more word on u's port shows. -/
def afterWord {α : Type} (is : List Instr) (u : UnitId) (w : Word) (f : State → α) : Option α :=
  look (andThen (execAll is s0) (execWord u w)) f

/-- STATUS and FAULT_CMD of a unit. -/
def record (u : UnitId) (s : State) : Word × Word :=
  match u with
  | .enc => (readCsr s 0x10#8, readCsr s 0x11#8)
  | .dec => (readCsr s 0x20#8, readCsr s 0x21#8)
  | .pack => (readCsr s 0x30#8, readCsr s 0x31#8)
  | .unpk => (readCsr s 0x40#8, readCsr s 0x41#8)

/-- A state with a command queue, a phase and a fault cause of ENC. -/
def encWith (ph : Phase) (cause : BitVec 4) (q : List Word) (oq : List (Item 12)) : State :=
  { s0 with enc := { EncUnit.reset with ctl := { Ctl.reset with phase := ph, cause := cause, cmdq := q }, oq := oq } }

/-- A state with a phase, a next code, a prior and a dictionary of DEC. -/
def decWith (ph : Phase) (n : BitVec 13) (prior : Code) (d : List DictEntry) : State :=
  { s0 with dec := { DecUnit.reset with ctl := { Ctl.reset with phase := ph }, prior := prior,
                                        sync := ⟨n, 0#32, d⟩ } }

/-- A state with a phase, a held nibble and an output queue of PACK. -/
def packWith (ph : Phase) (hold : Bool) (nib : BitVec 4) : State :=
  { s0 with pack := { PackUnit.reset with ctl := { Ctl.reset with phase := ph }, hold := hold, nib := nib } }

/-- A state with a phase, a count, a position and carried bits of UNPK. -/
def unpkWith (ph : Phase) (expected produced : BitVec 24) (pos : GroupPos) (acc : Byte) : State :=
  { s0 with unpk := { UnpkUnit.reset with ctl := { Ctl.reset with phase := ph }, expected := expected,
                                          produced := produced, pos := pos, acc := acc } }

/-! ### WellFormed refuses (30_encoding.md R82, R96) -/

theorem test_wf_other_units_command : Instr.wellFormed (.cmd .enc) (.decCode 1#24) = false := by decide
theorem test_wf_csr_on_command_port : Instr.wellFormed (.cmd .pack) (.csrRead 0#8) = false := by decide
theorem test_wf_command_on_csr_port : Instr.wellFormed .csr (.encByte 1#8) = false := by decide
theorem test_wf_nop_on_csr_port : Instr.wellFormed .csr .nop = false := by decide
theorem test_wf_nop_on_every_command_port : ∀ u ∈ [UnitId.enc, .dec, .pack, .unpk],
    Instr.wellFormed (.cmd u) .nop = true := by decide

/-! ### Words written out from 30_encoding.md R80, R81, R83 (V-CMD of 95_test_vectors.md) -/

theorem test_word_nop : decodeCmd .dec 0x00000000#32 = .cmd .nop := by decide
theorem test_word_enc : decodeCmd .enc 0x10000000#32 = .cmd .encStart ∧
    decodeCmd .enc 0x11000041#32 = .cmd (.encByte 65#8) ∧ decodeCmd .enc 0x12000000#32 = .cmd .encEnd := by decide
theorem test_word_dec : decodeCmd .dec 0x20000000#32 = .cmd .decStart ∧
    decodeCmd .dec 0x21FFFFFF#32 = .cmd (.decCode 16777215#24) ∧
    decodeCmd .dec 0x22000000#32 = .cmd .decEnd := by decide
theorem test_word_pack : decodeCmd .pack 0x30000000#32 = .cmd .packStart ∧
    decodeCmd .pack 0x31000FFF#32 = .cmd (.packCode 4095#12) ∧
    decodeCmd .pack 0x32000000#32 = .cmd .packEnd := by decide
theorem test_word_unpk : decodeCmd .unpk 0x40FFFFFF#32 = .cmd (.unpkStart 16777215#24) ∧
    decodeCmd .unpk 0x410000AB#32 = .cmd (.unpkByte 0xAB#8) ∧
    decodeCmd .unpk 0x42000000#32 = .cmd .unpkEnd := by decide
theorem test_word_illegal : decodeCmd .pack 0x31001000#32 = .illegal .operand ∧
    decodeCmd .unpk 0x00000001#32 = .illegal .operand ∧ decodeCmd .dec 0x20000010#32 = .illegal .operand ∧
    decodeCmd .unpk 0x41000100#32 = .illegal .operand ∧ decodeCmd .dec 0x31000001#32 = .illegal .wrongUnit ∧
    decodeCmd .enc 0xFF000000#32 = .illegal .undefinedOpcode := by decide
theorem test_table_word_csr : decodeTableWord 8 0x47 = some (.csrRead 0x47#8) := by decide
theorem test_table_word_operand_order : decodeTableWord 32 0x31000ABC = some (.packCode 0xABC#12) := by decide
theorem test_table_word_refused : decodeTableWord 32 0x11000141 = none := by decide

/-! ### Assembler (30_encoding.md R97, R98) -/

theorem test_asm_lines : assembleLine "enc.byte 0x41 ; A" = some (.enc, 0x11000041#32) ∧
    assembleLine "dec: nop" = some (.dec, 0x00000000#32) ∧
    assembleLine "enc: .word 0x13000000" = some (.enc, 0x13000000#32) ∧
    assembleLine "pack.code 4096" = none := by decide
theorem test_asm_pseudo : assemble "unpk.run 2; 0x12, 0x34" =
    some [(.unpk, 0x40000002#32), (.unpk, 0x41000012#32), (.unpk, 0x41000034#32), (.unpk, 0x42000000#32)] := by
  decide

/-! ### ENC (V-ENC) -/

theorem test_enc_start : after [.encByte 1#8, .encStart] (fun t => (record .enc t, readCsr t 0x14#8)) =
    some ((0x00000001#32, 0#32), 256#32) := by decide
/-- V-ENC-1: the source's scenario 1. -/
theorem test_enc_byte_run : after (encRun [0x41#8, 0x41#8, 0x41#8, 0x41#8]) (fun t => (t.enc.oq, record .enc t,
      [0x14#8, 0x15#8, 0x16#8, 0x17#8, 0x18#8].map (readCsr t))) =
    some ([.data 65#12, .data 256#12, .data 65#12, .eos], (0x00000004#32, 0#32),
      [258#32, 65#32, 4#32, 3#32, 0#32]) := by decide
/-- V-ENC-F6: SEQUENCE after END, DONE stays 1. -/
theorem test_enc_byte_sequence : after (encRun [0x41#8] ++ [.encByte 0x42#8])
    (fun t => (t.enc.oq, record .enc t)) = some ([.data 65#12, .eos], (0x00000417#32, 0x11000042#32)) := by decide
/-- V-ENC-7: the empty input. -/
theorem test_enc_end_empty : after (encRun []) (fun t => (t.enc.oq, record .enc t)) =
    some ([.eos], (0x00000004#32, 0#32)) := by decide
/-- V-DOV-1: the unreachable COUNTER fault, and the START it then drops. -/
theorem test_enc_counter : look (execAll [.encByte 2#8, .encStart] { s0 with enc := { EncUnit.reset with
      ctl := { Ctl.reset with phase := .run }, sync := ⟨4096#13, 0#32, []⟩ } }) (record .enc) =
    some (0x00000133#32, 0x11000002#32) := by decide

/-! ### DEC (V-DEC, P4) -/

/-- V-DEC-2: the special case k = next_code. -/
theorem test_dec_code_run : after (decRun [65#24, 66#24, 256#24, 258#24]) (fun t => (t.dec.oq, record .dec t,
      [0x24#8, 0x25#8, 0x26#8, 0x27#8].map (readCsr t))) =
    some ([.data 0x41#8, .data 0x42#8, .data 0x41#8, .data 0x42#8, .data 0x41#8, .data 0x42#8, .data 0x41#8, .eos],
      (0x00000004#32, 0#32), [259#32, 258#32, 4#32, 7#32]) := by decide
/-- V-DEC-5: an unbound code above next_code sets ANOM. -/
theorem test_dec_code_anom : after (decRun [65#24, 300#24, 256#24]) (fun t => (t.dec.oq.length, readCsr t 0x20#8,
      readCsr t 0x24#8, readCsr t 0x25#8)) = some (6, 0x00001004#32, 258#32, 256#32) := by decide
/-- V-DEC-F2: RANGE before FIRST_UNBOUND. -/
theorem test_dec_code_range : after [.decStart, .decCode 4096#24] (record .dec) =
    some (0x00000123#32, 0x21001000#32) := by decide
/-- P4: the word after the EMPTY fault is dropped, and START recovers. -/
theorem test_dec_end_recovery : after [.decStart, .decEnd, .decCode 65#24, .nop, .decStart, .decCode 66#24, .decEnd]
    (fun t => (t.dec.oq, record .dec t, readCsr t 0x26#8)) =
    some ([.data 0x42#8, .eos], (0x00000004#32, 0#32), 1#32) := by decide
theorem test_dec_end_empty : after [.decStart, .decEnd] (record .dec) = some (0x00000323#32, 0x22000000#32) := by
  decide
/-- 42_decoder.md R147: the resetting step with a codeword above 255 sets STALE, and the next code faults. -/
theorem test_dec_stale : look (execAll [.decCode 4095#24, .decCode 0#24] (decWith .run 4095#13 0#12 []))
    (fun t => (t.dec.oq, record .dec t, readCsr t 0x25#8, readCsr t 0x28#8)) =
    some ([.data 0#8, .data 0#8], (0x00002423#32, 0x21000000#32), 4095#32, 1#32) := by decide

/-! ### PACK (V-PACK) -/

/-- V-PACK-1 -/
theorem test_pack_code_odd_run : after (packRun [0xFFF#12, 0x000#12, 0xABC#12])
    (fun t => (t.pack.oq, record .pack t, readCsr t 0x35#8, readCsr t 0x36#8)) =
    some ([.data 0xFF#8, .data 0xF0#8, .data 0x00#8, .data 0xAB#8, .data 0xC0#8, .eos], (0x00000004#32, 0#32),
      3#32, 5#32) := by decide
/-- V-PACK-H -/
theorem test_pack_code_hold : after [.packStart, .packCode 0xABC#12] (fun t => (t.pack.oq, readCsr t 0x34#8)) =
    some ([.data 0xAB#8], 0x1C#32) := by decide
/-- V-PACK-S: a START drops the held nibble. -/
theorem test_pack_start_drops_nibble : after [.packStart, .packCode 0xABC#12, .packStart, .packEnd]
    (fun t => (t.pack.oq, readCsr t 0x35#8)) = some ([.data 0xAB#8, .eos], 0#32) := by decide

/-! ### UNPK (V-UNPK) -/

/-- V-UNPK-7 -/
theorem test_unpk_byte_run : after (unpkRun 3#24 [0xFF#8, 0xF0#8, 0x00#8, 0xAB#8, 0xC0#8])
    (fun t => (t.unpk.oq, record .unpk t, readCsr t 0x45#8, readCsr t 0x46#8)) =
    some ([.data 0xFFF#12, .data 0#12, .data 0xABC#12, .eos], (0x00000004#32, 0#32), 3#32, 5#32) := by decide
/-- V-UNPK-G2 -/
theorem test_unpk_byte_group : after [.unpkStart 2#24, .unpkByte 0x12#8, .unpkByte 0x34#8]
    (fun t => (t.unpk.oq, readCsr t 0x47#8)) = some ([.data 0x123#12], 0x00000402#32) := by decide
/-- V-UNPK-9 -/
theorem test_unpk_byte_excess : after (unpkRun 2#24 [0x12#8, 0x34#8, 0x56#8, 0x78#8])
    (fun t => (t.unpk.oq, record .unpk t)) =
    some ([.data 0x123#12, .data 0x456#12], (0x00000523#32, 0x41000078#32)) := by decide
/-- V-UNPK-8 -/
theorem test_unpk_end_truncated : after (unpkRun 3#24 [0xFF#8, 0xF0#8, 0x00#8, 0xAB#8])
    (fun t => (record .unpk t, readCsr t 0x47#8)) = some ((0x00000623#32, 0x42000000#32), 0xAB01#32) := by decide

/-! ### Common (V-NOP, V-ENC-F, V-HOLD) -/

/-- V-NOP-1 -/
theorem test_nop : after [.encStart, .encByte 1#8, .nop] (fun t => (readCsr t 0x10#8, readCsr t 0x15#8, t.enc.oq)) =
    some (0x2#32, 1#32, []) := by decide
/-- V-ENC-F3 to F5, V-NOP-2 -/
theorem test_illegal_words : afterWord [.encStart] .enc 0x11000141#32 (record .enc) =
      some (0x00000313#32, 0x11000141#32) ∧
    afterWord [.encStart] .enc 0x21000041#32 (record .enc) = some (0x00000213#32, 0x21000041#32) ∧
    afterWord [] .enc 0x13000000#32 (record .enc) = some (0x00000113#32, 0x13000000#32) ∧
    afterWord [] .enc 0x00000001#32 (record .enc) = some (0x00000313#32, 0x00000001#32) := by decide
/-- V-HOLD-1: END needs two items and holds until one is drained. -/
theorem test_hold : (encWith .run 0#4 [0x12000000#32] [.data 1#12]).stepEnabled .enc = false ∧
    ((encWith .run 0#4 [0x12000000#32] [.data 1#12]).take .enc 1).stepEnabled .enc = true := by decide
theorem test_csr_read : after [.csrRead 0x00#8, .csrRead 0x0A#8] (fun t => t.host.csrReads) =
    some [⟨0x00#8, 0x4C5A5701#32⟩, ⟨0x0A#8, 0#32⟩] := by decide
theorem test_placed_command_runs : look (step (State.reset.withFetchWord 32 0x40000003))
    (fun t => (record .unpk t, readCsr t 0x44#8)) = some ((0x2#32, 0#32), 3#32) := by decide
theorem test_placed_csr_read_runs : look (step (State.reset.withFetchWord 8 0x02)) (fun t => t.host.csrReads) =
    some [⟨0x02#8, 4096#32⟩] := by decide
theorem test_accept : look (step { s0 with host := { HostSide.reset with offered := ⟨[0x10000000#32], [], [], []⟩ } })
    (fun t => (t.enc.ctl.cmdq, t.host.offered.enc)) = some ([0x10000000#32], []) := by decide

/-! ### A witness for the hypotheses of each statement -/

theorem witness_DecodeOfEncode : Instr.wellFormed (.cmd .pack) (.packCode 0xFFF#12) = true ∧
    Instr.wellFormed (.cmd .dec) .nop = true ∧ Instr.wellFormed .csr (.csrRead 0xFF#8) = true := by decide
theorem witness_DecodedWord : decodeCmd .unpk 0x40FFFFFF#32 = .cmd (.unpkStart 0xFFFFFF#24) := by decide
theorem witness_IllegalWord : (s0.ctl .dec).phase ≠ .fault ∧
    (undefinedRange (opcodeOf 0x01000000#32) ∧ undefinedRange (opcodeOf 0x43000000#32) ∧
      undefinedRange (opcodeOf 0xFF000000#32)) ∧
    (opcodeOf 0x10000000#32 ∈ definedOpcodes ∧ opcodeOf 0x10000000#32 ≠ 0x00#8 ∧
      (opcodeOf 0x10000000#32).extractLsb' 4 4 ≠ unitId .dec) ∧
    (opcodeOf 0x22000001#32 ∈ definedOpcodes ∧ (opcodeOf 0x22000001#32).extractLsb' 4 4 = unitId .dec ∧
      operandOf 0x22000001#32 &&& mbzMask (opcodeOf 0x22000001#32) ≠ 0#24) := by
  unfold undefinedRange
  decide
/-- ENC with END queued and one item of room to spare: the boundary of the hold rule. -/
def held : State := (encWith .run 0#4 [0x12000000#32, 0x13000000#32] []).setSchedule [.unitStep .enc]
theorem witness_StepRuns_command : held.host.schedule = [.unitStep .enc] ∧ held.rstN = true ∧
    (held.ctl .enc).cmdq = [0x12000000#32, 0x13000000#32] ∧
    held.oqLen .enc + held.noutWord .enc 0x12000000#32 ≤ held.params.oqDepth .enc ∧
    decodeCmd .enc 0x12000000#32 = .cmd .encEnd := by decide
theorem witness_StepRuns_illegal : decodeCmd .enc 0x13000000#32 = .illegal .undefinedOpcode ∧
    held.oqLen .enc + held.noutWord .enc 0x13000000#32 ≤ held.params.oqDepth .enc := by decide
theorem witness_StepRuns_csr : (s0.setSchedule [.csrRead 0x47#8]).host.schedule = [.csrRead 0x47#8] := by decide
theorem witness_StepRuns_auto : (encWith .run 0#4 [0#32] []).host.schedule = [] ∧
    (encWith .run 0#4 [0#32] []).autoMove = some (.unitStep .enc) ∧
    s0.host.schedule = [] ∧ s0.autoMove = none := by decide
theorem witness_Held : (encWith .run 0#4 [0x12000000#32] [.eos]).stepEnabled .enc = false ∧
    held.stepEnabled .enc = true := by decide
theorem witness_Nout : look (exec .encEnd (encWith .run 0#4 [] [])) (fun t => t.enc.oq.length) = some 2 := by decide

/-- The reset state with ENC's START queued and its step scheduled. -/
def queued : State :=
  { s0 with
    enc := { EncUnit.reset with ctl := { Ctl.reset with cmdq := [0x10000000#32] } }
    host := { HostSide.reset with schedule := [.unitStep .enc] } }

/-- The invariant holds in `queued`. -/
theorem queued_inv : Inv queued := by
  refine ⟨⟨⟨?_, ?_, ?_⟩, ⟨?_, ?_, ?_⟩, ?_, ?_, ?_⟩, ⟨⟨?_, ?_, ?_⟩, ⟨?_, ?_, ?_⟩, ?_, ?_, ?_⟩,
    ⟨⟨?_, ?_, ?_⟩, ?_, ?_⟩, ⟨⟨?_, ?_, ?_⟩, ?_, ?_, ?_, ?_, ?_⟩, ?_, ?_, ?_⟩
  all_goals
    try simp [queued, s0, State.reset, EncUnit.reset, DecUnit.reset, PackUnit.reset, UnpkUnit.reset, Ctl.reset,
      Sync.reset, boundBelow, keysDistinct]
  · intro u
    cases u <;> simp [State.ctl, Params.cmdqDepth, cmdqMin]
  · intro u
    cases u <;> simp [State.oqLen]

theorem witness_EmptyOutputQueue : Inv queued ∧ queued.rstN = true ∧ queued.oqLen .enc = 0 ∧
    (queued.ctl .enc).cmdq ≠ [] := ⟨queued_inv, by decide, by decide, by decide⟩
theorem witness_FaultEntry : (encWith .idle 0#4 [0x12000000#32] []).stepEnabled .enc = true ∧
    (encWith .idle 0#4 [0x12000000#32] []).enc.ctl.phase ≠ .fault ∧
    look (runUnit .enc (encWith .idle 0#4 [0x12000000#32] [])) (fun t => t.enc.ctl.phase) = some .fault := by decide
theorem witness_OutOfSequence : Instr.unit? .unpkEnd = some .unpk ∧ isStart .unpkEnd = false ∧
    (s0.ctl .unpk).phase = .idle ∧ (unpkWith .fault 0#24 0#24 .byte0 0#8).unpk.ctl.phase = .fault := by decide
theorem witness_FaultPhaseDrops : ((encWith .fault 1#4 [] []).ctl .enc).phase = .fault ∧
    ¬ startWord .enc 0x10000001#32 ∧ ((encWith .fault 3#4 [] []).ctl .enc).cause = 3#4 := by
  refine ⟨by decide, ?_, by decide⟩
  unfold startWord
  decide
/-- ENC in FAULT with a START queued. -/
def faulted : State := (encWith .fault 1#4 [0x10000000#32] [.eos]).setSchedule [.unitStep .enc]
theorem witness_LeavesFault_start : (faulted.ctl .enc).phase = .fault ∧
    look (step faulted) (fun t => (t.enc.ctl.phase, t.enc.oq)) = some (.opened, [.eos]) := by decide
theorem witness_LeavesFault_reset : look (step (faulted.setSchedule [.assertReset])) (fun t => t.enc.ctl.phase) =
    some .idle := by decide
theorem witness_LeavesFault_stays : look (step (faulted.setSchedule [.drain .enc]))
    (fun t => (t.enc.ctl.phase, t.enc.ctl.cause)) = some (.fault, 1#4) := by decide
/-- One word offered on ENC's port and one item of each unit to drain. -/
def busy : State :=
  { s0 with
    enc := { EncUnit.reset with oq := [.data 1#12] }
    dec := { DecUnit.reset with oq := [.eos] }
    pack := { PackUnit.reset with oq := [.data 2#8] }
    unpk := { UnpkUnit.reset with oq := [.eos] }
    host := { HostSide.reset with offered := ⟨[0#32], [], [], []⟩ } }
theorem witness_Handshakes : busy.acceptEnabled .enc = true ∧ busy.host.offered.get .enc = [0#32] ∧
    busy.acceptEnabled .dec = false ∧ (encWith .idle 0#4 [0#32] []).acceptEnabled .enc = false ∧
    s0.oqLen .dec = 0 ∧ s0.hardwareReset.rstN = false ∧ busy.rstN = true ∧ busy.enc.oq = [.data 1#12] ∧
    busy.dec.oq = [.eos] ∧ busy.pack.oq = [.data 2#8] ∧ busy.unpk.oq = [.eos] := by decide
theorem witness_HardwareReset : s0.hardwareReset.rstN = false ∧
    look (doMove (.csrRead 0#8) s0.hardwareReset) (fun t => t.rstN) = some false := by decide
/-- The invariant holds while rst_n is low. -/
theorem witness_CsrInReset : Inv queued.hardwareReset ∧ queued.hardwareReset.rstN = false := by
  refine ⟨?_, rfl⟩
  have h := queued_inv
  refine ⟨⟨⟨?_, ?_, ?_⟩, ⟨?_, ?_, ?_⟩, ?_, ?_, ?_⟩, h.dec, h.pack, h.unpk, ?_, ?_, fun _ => ⟨rfl, rfl, rfl, rfl⟩⟩
  all_goals
    try simp [EncUnit.reset, Ctl.reset, Sync.reset, boundBelow, keysDistinct]
theorem witness_CsrAddresses : (UnitId.enc = .enc ∧ (0x10#8 : BitVec 8) = 0x10#8) ∧
    (UnitId.unpk = .unpk ∧ (0x40#8 : BitVec 8) = 0x40#8) := by decide
theorem witness_UnmappedCsr : (0x0A ≤ (0x0A#8).toNat ∧ (0x0F#8).toNat ≤ 0x0F) ∧ 0x19 ≤ (0x1F#8).toNat ∧
    0x29 ≤ (0x2F#8).toNat ∧ 0x37 ≤ (0x37#8).toNat ∧ 0x48 ≤ (0x48#8).toNat ∧ 0x48 ≤ (0xFF#8).toNat := by decide
theorem witness_Start : ¬(s0.enc.ctl.phase = .fault ∧ s0.enc.ctl.cause = 3#4) ∧
    ¬((encWith .fault 1#4 [] []).enc.ctl.phase = .fault ∧ (encWith .fault 1#4 [] []).enc.ctl.cause = 3#4) ∧
    ((encWith .fault 3#4 [] []).ctl .enc).phase = .fault ∧ ((encWith .fault 3#4 [] []).ctl .enc).cause = 3#4 ∧
    isStart .encStart = true ∧ Instr.unit? .encStart = some .enc := by decide
theorem witness_Start_other_units : ¬(s0.dec.ctl.phase = .fault ∧ s0.dec.ctl.cause = 3#4) ∧
    ¬(s0.pack.ctl.phase = .fault ∧ s0.pack.ctl.cause = 3#4) ∧
    ¬(s0.unpk.ctl.phase = .fault ∧ s0.unpk.ctl.cause = 3#4) := by decide
theorem witness_FirstEncByte : (encWith .opened 0#4 [] []).enc.ctl.phase = .opened := by decide
theorem witness_NextEncByte : (encWith .run 0#4 [] []).enc.ctl.phase = .run ∧
    lookup [⟨256#12, 0#12, 5#8⟩] 0#12 5#8 = some 256#12 ∧ lookup [] 0#12 5#8 = none ∧
    (4095#13).toNat < 4096 ∧ 4096 ≤ (4096#13).toNat := by decide
theorem witness_EncEnd : (encWith .run 0#4 [] []).enc.ctl.phase = .run ∧
    (encWith .opened 0#4 [] []).enc.ctl.phase = .opened := by decide
theorem witness_FirstDecCode : (decWith .opened 256#13 0#12 []).dec.ctl.phase = .opened ∧
    4095 < (4096#24).toNat ∧ 256 ≤ (256#24).toNat ∧ (4095#24).toNat ≤ 4095 ∧ (255#24).toNat < 256 := by decide
/-- DEC in RUN, with STALE or at the counter's limit. -/
def stale : State := { s0 with dec := { DecUnit.reset with ctl := { Ctl.reset with phase := .run }, stale := true } }
theorem witness_BoundDecCode : (decWith .run 257#13 256#12 [⟨256#12, 65#12, 65#8⟩]).dec.ctl.phase = .run ∧
    (256#24).toNat < (257#13).toNat ∧ (decWith .run 257#13 256#12 []).dec.stale = false ∧
    stale.dec.ctl.phase = .run ∧ stale.dec.stale = true ∧ (4095#24).toNat ≤ 4095 ∧ 4095 < (4096#24).toNat ∧
    4096 ≤ (decWith .run 4096#13 0#12 []).dec.sync.nextCode.toNat := by decide
theorem witness_UnboundDecCode : (decWith .run 256#13 65#12 []).dec.ctl.phase = .run ∧ (4095#24).toNat ≤ 4095 ∧
    (decWith .run 256#13 65#12 []).dec.stale = false ∧
    (decWith .run 256#13 65#12 []).dec.sync.nextCode.toNat ≤ (256#24).toNat := by decide
theorem witness_DecEnd : (decWith .opened 256#13 0#12 []).dec.ctl.phase = .opened ∧
    (decWith .run 256#13 0#12 []).dec.ctl.phase = .run := by decide
theorem witness_PackCode : (packWith .run false 0#4).pack.ctl.phase = .run ∧
    (packWith .run false 0#4).pack.hold = false ∧ (packWith .run true 15#4).pack.ctl.phase = .run ∧
    (packWith .run true 15#4).pack.hold = true := by decide
theorem witness_PackEnd : (packWith .run true 15#4).pack.ctl.phase = .run ∧
    (packWith .run true 15#4).pack.hold = true ∧ (packWith .run false 0#4).pack.hold = false := by decide
theorem witness_UnpkByte : (unpkWith .run 0#24 0#24 .byte0 0#8).unpk.produced = 0#24 ∧
    (unpkWith .run 1#24 0#24 .byte0 0#8).unpk.produced ≠ (unpkWith .run 1#24 0#24 .byte0 0#8).unpk.expected ∧
    (unpkWith .run 1#24 0#24 .byte1 0#8).unpk.produced + 1#24 = 1#24 ∧
    (unpkWith .run 2#24 0#24 .byte1 0#8).unpk.produced + 1#24 ≠ 2#24 ∧
    (unpkWith .run 2#24 1#24 .byte2 15#8).unpk.pos = .byte2 ∧
    (unpkWith .run 2#24 1#24 .byte2 15#8).unpk.ctl.phase = .run := by decide
theorem witness_UnpkEnd : (unpkWith .run 1#24 0#24 .byte1 0#8).unpk.pos ≠ .byte0 ∧
    (unpkWith .run 1#24 0#24 .byte0 0#8).unpk.produced ≠ (unpkWith .run 1#24 0#24 .byte0 0#8).unpk.expected ∧
    (unpkWith .run 1#24 1#24 .byte0 0#8).unpk.pos = .byte0 ∧
    (unpkWith .run 1#24 1#24 .byte0 0#8).unpk.produced = 1#24 := by decide
theorem witness_Nop : ((encWith .run 0#4 [0#32] []).ctl .enc).cmdq = [0#32] ∧
    (encWith .run 0#4 [0#32] []).stepEnabled .enc = true ∧ opcodeOf 0x00000001#32 = 0x00#8 ∧
    operandOf 0x00000001#32 ≠ 0#24 ∧ ((encWith .run 0#4 [] []).ctl .enc).phase ≠ .fault ∧
    ((encWith .fault 1#4 [] []).ctl .enc).phase = .fault := by decide
theorem witness_SyncInsert : (4094#13).toNat < 4095 ∧ (4095#13).toNat = 4095 := by decide
theorem witness_Lookup : keysDistinct [⟨257#12, 66#12, 65#8⟩, ⟨256#12, 65#12, 66#8⟩] ∧
    boundBelow [⟨257#12, 66#12, 65#8⟩, ⟨256#12, 65#12, 66#8⟩] (258#12).toNat ∧
    lookup [⟨257#12, 66#12, 65#8⟩, ⟨256#12, 65#12, 66#8⟩] 256#12 65#8 = none := by
  refine ⟨by unfold keysDistinct; decide, ?_, by decide⟩
  simp [boundBelow]
theorem witness_Symbol : boundBelow [⟨256#12, 65#12, 66#8⟩] 257 ∧ (255#12).toNat < 256 ∧ 256 ≤ (256#12).toNat ∧
    (256#12).toNat < 257 := by
  simp [boundBelow]
theorem witness_EncoderSymbols : EncInv EncUnit.reset ∧ (255#12).toNat < EncUnit.reset.sync.nextCode.toNat ∧
    symbolOf EncUnit.reset.sync.dict 255#12 = symbolOf EncUnit.reset.sync.dict 255#12 := by
  refine ⟨⟨⟨?_, ?_, ?_⟩, ⟨?_, ?_, ?_⟩, ?_, ?_, ?_⟩, by decide, rfl⟩
  all_goals
    simp [EncUnit.reset, Ctl.reset, Sync.reset, boundBelow, keysDistinct]
theorem witness_SymbolLength : SyncInv ⟨257#13, 0#32, [⟨256#12, 65#12, 66#8⟩]⟩ ∧ (256#12).toNat < (257#13).toNat := by
  refine ⟨⟨?_, ?_, ?_⟩, ?_⟩ <;> simp [boundBelow]
theorem witness_EveryStepKeepsTheInvariant : Inv queued ∧ ∃ t, step queued = .next t ∧ t.enc.ctl.phase = .opened :=
  ⟨queued_inv, _, rfl, rfl⟩
theorem witness_UnitStepLeaves : look (runUnit .enc queued) (fun t => t.enc.ctl.phase) = some .opened := by decide
theorem witness_Commute : UnitId.enc ≠ .unpk := by decide
theorem witness_NoStepLoses : (busy.setSchedule [.drain .enc]).host.schedule.head? ≠ some .assertReset ∧
    look (step (busy.setSchedule [.drain .enc])) (fun t => (t.host.encTaken, t.enc.oq)) =
      some ([.data 1#12], []) := by decide
theorem witness_CommandsStayInOrder : queued.host.schedule.head? ≠ some .assertReset ∧
    look (step queued) (fun t => t.enc.ctl.cmdq) = some [] := by decide
theorem witness_Flags : look (exec .encEnd (encWith .opened 0#4 [] [])) (fun t => t.enc.ctl.done) = some true ∧
    look (exec (.decCode 300#24) (decWith .run 256#13 65#12 [])) (fun t => t.dec.anom) = some true ∧
    look (exec (.decCode 4095#24) (decWith .run 4095#13 65#12 [])) (fun t => t.dec.stale) = some true ∧
    look (exec (.packCode 1#12) (packWith .run false 0#4)) (fun t => t.pack.hold) = some true ∧
    look (doMove .assertReset s0) (fun t => t.pack.hold) = some false := by decide
theorem witness_EncFrame : Instr.unit? (.encByte 1#8) = some .enc ∧
    look (exec (.encByte 1#8) (encWith .run 0#4 [] [])) (fun t => t.enc.oq) = some [.data 0#12] := by decide
theorem witness_DecFrame : Instr.unit? (.decCode 65#24) = some .dec ∧
    look (exec (.decCode 65#24) (decWith .run 256#13 65#12 [])) (fun t => t.dec.oq) = some [.data 65#8] := by decide
theorem witness_PackFrame : Instr.unit? (.packCode 1#12) = some .pack ∧
    look (exec (.packCode 1#12) s0) (fun t => t.pack.ctl.phase) = some .fault ∧ s0.pack.ctl.phase ≠ .run := by decide
theorem witness_UnpkFrame : Instr.unit? .unpkEnd = some .unpk ∧
    look (exec .unpkEnd (unpkWith .run 0#24 0#24 .byte0 0#8)) (fun t => t.unpk.oq) = some [.eos] := by decide
/-- ENC in RUN with the symbol of the byte 255. -/
def encRunning : State :=
  { s0 with enc := { EncUnit.reset with ctl := { Ctl.reset with phase := .run }, w := 255#12 } }
theorem witness_Never4095 : EncInv encRunning.enc ∧
    look (exec .encEnd encRunning) (fun t => t.enc.oq) = some [.data 255#12, .eos] := by
  refine ⟨⟨⟨?_, ?_, ?_⟩, ⟨?_, ?_, ?_⟩, ?_, ?_, ?_⟩, by decide⟩
  all_goals
    simp [encRunning, EncUnit.reset, Ctl.reset, Sync.reset, boundBelow, keysDistinct]
theorem witness_Unscheduled : s0.host.schedule = [] ∧ look (step s0) (fun t => decide (t = s0)) = some true ∧
    look (step busy) (fun t => t.host.offered.enc.length) = some 0 := by decide
theorem witness_PackRun : s0.pack.ctl.canStart = true := by decide
theorem witness_PackUnpack : [0xABC#12].length < 2 ^ 24 ∧ s0.pack.ctl.canStart = true ∧
    s0.unpk.ctl.canStart = true := by decide
theorem witness_UnpackRun : s0.unpk.ctl.canStart = true ∧ [0#8, 0#8].length = packedLength (1#24).toNat ∧
    packedLength (1#24).toNat < [0#8, 0#8, 0#8].length ∧ [0#8].length < packedLength (1#24).toNat := by decide
theorem witness_EncoderRun : [0#8] ≠ [] ∧ s0.enc.ctl.canStart = true ∧
    (encWith .fault 1#4 [] []).enc.ctl.canStart = true := by decide
theorem witness_RoundTrip : s0.enc.ctl.canStart = true ∧ s0.dec.ctl.canStart = true := by decide

end Sys2Proof.Tests
end

section
/-! Proofs about symbol lengths and about what a step needs of its output queue (00_scope.md R10, R11). -/

namespace Sys2Proof.Machine

/-! ### Symbol lengths -/

theorem symbolLen_singleton (d : List DictEntry) {k : Code} (h : k.toNat < 256) : symbolLen d k = 1 := by
  simp [symbolLen, symbolOf_singleton d h]

/-- The symbol of the head entry's code is one byte longer than that of the code it extends. -/
theorem symbolLen_cons_self {e : DictEntry} {d : List DictEntry} (h : 256 ≤ e.code.toNat) :
    symbolLen (e :: d) e.code = symbolLen d e.pre + 1 := by
  simp [symbolLen, symbolOf, Nat.not_lt.mpr h]

theorem symbolLen_cons_ne {e : DictEntry} {d : List DictEntry} {k : Code} (h : e.code ≠ k) :
    symbolLen (e :: d) k = symbolLen d k := by
  simp [symbolLen, symbolOf_cons_ne h]

/-- One bound for singletons and entries, which an entry takes over from the code it extends: with the
subtraction cut off at 0, a singleton has length at most 1 and code `256 + m` at most `m + 2`. -/
theorem boundBelow.symbolLen_le {d : List DictEntry} {n : Nat} {k : Code} (h : boundBelow d n)
    (hk : k.toNat < n) : symbolLen d k ≤ (k.toNat - 255) + 1 := by
  induction d generalizing n k with
  | nil =>
    have hn : n = 256 := h
    rw [symbolLen_singleton [] (by omega)]
    omega
  | cons e rest ih =>
    obtain ⟨hcode, hpre, hrest⟩ := h
    by_cases he : e.code = k
    · subst he
      rw [symbolLen_cons_self hrest.le]
      have := ih hrest hpre
      have := hrest.le
      omega
    · have hne : e.code.toNat ≠ k.toNat := fun h => he (BitVec.eq_of_toNat_eq h)
      rw [symbolLen_cons_ne he]
      exact ih hrest (by omega)

/-- A bound symbol extended by one byte is no longer than `MAX_SYMBOL_LEN` (00_scope.md R10). -/
theorem SyncInv.symbolLen_succ_le {y : Sync} {k : Code} (h : SyncInv y) (hk : k.toNat < y.nextCode.toNat) :
    symbolLen y.dict k + 1 ≤ 3841 := by
  have := h.entries.symbolLen_le hk
  have := h.high
  omega

/-- Settles O39: each entry adds one byte to the symbol of a smaller code. -/
theorem symbolLengthIsBounded : Obligations.SymbolLengthIsBounded := by
  intro y k h hk
  refine ⟨?_, h.symbolLen_succ_le hk⟩
  have := h.entries.symbolLen_le hk
  omega

/-! ### What the decoder answers on a port -/

theorem unitId_injective {u v : UnitId} (h : unitId u = unitId v) : u = v := by
  revert h
  cases u <;> cases v <;> decide

theorem wellFormed_cmd_iff (u : UnitId) (i : Instr) :
    i.wellFormed (.cmd u) = true ↔ i = .nop ∨ i.unit? = some u := by
  cases i <;> simp [Instr.wellFormed, Instr.unit?]

/-- A row of the opcode map is that of `nop`, or its opcode's upper half names the unit of the instructions it
builds (30_encoding.md R81). -/
theorem opcodeMap_row_unit {r : OpRow} (hr : r ∈ opcodeMap) :
    (r.opcode = 0x00#8 ∧ ∀ o, r.build o = .nop) ∨
    ∃ v, r.opcode.extractLsb' 4 4 = unitId v ∧ ∀ o, (r.build o).unit? = some v := by
  simp only [opcodeMap, List.mem_cons, List.not_mem_nil, or_false] at hr
  rcases hr with rfl | rfl | rfl | rfl | rfl | rfl | rfl | rfl | rfl | rfl | rfl | rfl | rfl
  · exact .inl ⟨rfl, fun _ => rfl⟩
  iterate 3 exact .inr ⟨.enc, rfl, fun _ => rfl⟩
  iterate 3 exact .inr ⟨.dec, rfl, fun _ => rfl⟩
  iterate 3 exact .inr ⟨.pack, rfl, fun _ => rfl⟩
  iterate 3 exact .inr ⟨.unpk, rfl, fun _ => rfl⟩

/-- A legal word is the instruction that a row of the opcode map builds; the row has the word's opcode, the
opcode is the common one or of the port's unit, and the must-be-zero bits are 0 (30_encoding.md R89). -/
theorem decodeCmd_cmd {u : UnitId} {w : Word} {i : Instr} (h : decodeCmd u w = .cmd i) :
    ∃ r ∈ opcodeMap, r.opcode = opcodeOf w ∧
      (opcodeOf w = 0x00#8 ∨ (opcodeOf w).extractLsb' 4 4 = unitId u) ∧
      operandOf w &&& r.mbz = 0#24 ∧ i = r.build (operandOf w) := by
  unfold decodeCmd at h
  split at h
  case h_1 => cases h
  case h_2 r hfind =>
    split at h
    · cases h
    next hunit =>
      split at h
      · cases h
      next hmbz =>
        exact ⟨r, List.mem_of_find?_eq_some hfind, by simpa using List.find?_some hfind,
          by simpa only [not_and_or, not_not] using hunit, not_not.mp hmbz, (Decoded.cmd.inj h).symm⟩

/-- What a word decodes to on a command port is well formed there (30_encoding.md R82, R89). -/
theorem wellFormed_of_decodeCmd {u : UnitId} {w : Word} {i : Instr} (h : decodeCmd u w = .cmd i) :
    i.wellFormed (.cmd u) = true := by
  obtain ⟨r, hr, hop, hunit, -, rfl⟩ := decodeCmd_cmd h
  rw [wellFormed_cmd_iff]
  rcases opcodeMap_row_unit hr with ⟨-, hnop⟩ | ⟨v, hv, hbuild⟩
  · exact .inl (hnop _)
  · rw [hop] at hv
    rcases hunit with h0 | hu
    · rw [h0] at hv
      exact absurd hv (by cases v <;> decide)
    · rw [unitId_injective (hu.symm.trans hv)]
      exact .inr (hbuild _)

/-! ### How much one instruction can emit -/

theorem EncUnit.noutByte_le (e : EncUnit) (c : Byte) : e.noutByte c ≤ 1 := by
  unfold EncUnit.noutByte
  split <;> omega

theorem EncUnit.noutEnd_le (e : EncUnit) : e.noutEnd ≤ 2 := by
  unfold EncUnit.noutEnd
  split <;> omega

theorem DecUnit.noutEnd_le (d : DecUnit) : d.noutEnd ≤ 1 := by
  unfold DecUnit.noutEnd
  split <;> omega

theorem PackUnit.noutHold_le (p : PackUnit) : p.noutHold ≤ 2 := by
  unfold PackUnit.noutHold
  split
  · split <;> omega
  · omega

theorem UnpkUnit.noutByte_le (p : UnpkUnit) : p.noutByte ≤ 1 := by
  unfold UnpkUnit.noutByte
  split <;> omega

theorem UnpkUnit.noutEnd_le (p : UnpkUnit) : p.noutEnd ≤ 1 := by
  unfold UnpkUnit.noutEnd
  split <;> omega

theorem operandCode_toNat {k : Operand} (h : k.toNat ≤ 4095) : (operandCode k).toNat = k.toNat := by
  simp only [operandCode, BitVec.toNat_setWidth]
  omega

/-- A codeword is the symbol of a bound code, or that of `prior` and one byte more, so it has at most
`MAX_SYMBOL_LEN` bytes (42_decoder.md R146). -/
theorem DecInv.noutCode_le {d : DecUnit} (h : DecInv d) (k : Operand) : d.noutCode k ≤ 3841 := by
  unfold DecUnit.noutCode
  cases hph : d.ctl.phase with
  | idle => exact Nat.zero_le _
  | fault => exact Nat.zero_le _
  | opened =>
    dsimp only
    split <;> omega
  | run =>
    dsimp only
    split
    · exact Nat.zero_le _
    next hok =>
      simp only [not_or, Bool.not_eq_true] at hok
      obtain ⟨hrange, hstale, -⟩ := hok
      have hcode : (operandCode k).toNat = k.toNat := operandCode_toNat (by omega)
      split
      next hbound =>
        rw [Sync.bound_iff, ← hcode] at hbound
        have := h.sync.symbolLen_succ_le hbound
        omega
      · exact h.sync.symbolLen_succ_le (h.priorBound hph hstale)

/-- The lower bound of each output queue's depth holds all that one instruction emits (00_scope.md R11). -/
theorem nout_le_oqMin {i : Instr} {u : UnitId} {s : State} (hd : DecInv s.dec)
    (hi : i.wellFormed (.cmd u) = true) : nout i s ≤ oqMin u := by
  rcases (wellFormed_cmd_iff u i).mp hi with rfl | hu
  · exact Nat.zero_le _
  · cases i with
    | nop | csrRead => cases hu
    | encStart | decStart | packStart | unpkStart => exact Nat.zero_le _
    | encByte c => cases hu; exact (s.enc.noutByte_le c).trans (by decide)
    | encEnd => cases hu; exact s.enc.noutEnd_le
    | decCode k => cases hu; exact hd.noutCode_le k
    | decEnd => cases hu; exact s.dec.noutEnd_le.trans (by decide)
    | packCode | packEnd => cases hu; exact s.pack.noutHold_le
    | unpkByte => cases hu; exact s.unpk.noutByte_le
    | unpkEnd => cases hu; exact s.unpk.noutEnd_le

theorem State.noutWord_le_oqMin {s : State} (hd : DecInv s.dec) (u : UnitId) (w : Word) :
    s.noutWord u w ≤ oqMin u := by
  unfold State.noutWord
  split
  next i hi => exact nout_le_oqMin hd (wellFormed_of_decodeCmd hi)
  · exact Nat.zero_le _

/-! ### When a unit step is enabled -/

/-- `Step(u)` is enabled as 45_common.md R192 and R193 say. -/
theorem State.stepEnabled_iff (s : State) (u : UnitId) :
    s.stepEnabled u = true ↔
      s.rstN = true ∧ ∃ w ws, (s.ctl u).cmdq = w :: ws ∧
        s.oqLen u + s.noutWord u w ≤ s.params.oqDepth u := by
  unfold State.stepEnabled
  cases (s.ctl u).cmdq with
  | nil => simp
  | cons w ws => simp [State.hasRoom_iff]

/-- Settles O9: by the bound on symbol lengths, an instruction's output fits in an empty queue of the least
legal depth. -/
theorem emptyOutputQueueLetsEveryStepRun : Obligations.EmptyOutputQueueLetsEveryStepRun := by
  intro s u hinv hrst hempty hcmd
  obtain ⟨w, ws, hq⟩ := List.exists_cons_of_ne_nil hcmd
  refine (s.stepEnabled_iff u).mpr ⟨hrst, w, ws, hq, ?_⟩
  have hout : s.noutWord u w ≤ oqMin u := State.noutWord_le_oqMin hinv.dec u w
  unfold Params.oqDepth
  omega

end Sys2Proof.Machine
end

section
/-! Proofs about the state: hardware reset and the CSR space (10_state.md R35 to R44, 45_common.md R196, R197). -/

namespace Sys2Proof.Machine

/-! ### Hardware reset -/

/-- While rst_n is low neither a unit step nor a handshake is enabled (45_common.md R197). -/
theorem State.nothing_enabled_of_rstN_low {s : State} (hr : s.rstN = false) (u : UnitId) :
    s.stepEnabled u = false ∧ s.acceptEnabled u = false ∧ s.outValid u = false := by
  simp [← Bool.not_eq_true, State.stepEnabled_iff, State.acceptEnabled_iff, State.outValid_iff, hr]

theorem runUnit_of_not_stepEnabled {u : UnitId} {s : State} (h : s.stepEnabled u = false) :
    runUnit u s = .next s := by
  simp [runUnit, h]

/-- While rst_n is low only its assertion writes a unit. -/
theorem doMove_units_of_rstN_low {m : Move} {s t : State} (hr : s.rstN = false) (hm : m ≠ .assertReset)
    (h : doMove m s = .next t) : t.enc = s.enc ∧ t.dec = s.dec ∧ t.pack = s.pack ∧ t.unpk = s.unpk := by
  cases m with
  | assertReset => exact absurd rfl hm
  | deassertReset | csrRead a => cases h; exact ⟨rfl, rfl, rfl, rfl⟩
  | accept u =>
    obtain ⟨-, haccept, -⟩ := State.nothing_enabled_of_rstN_low hr u
    simp only [doMove, haccept] at h
    cases h
    exact ⟨rfl, rfl, rfl, rfl⟩
  | drain u =>
    obtain ⟨-, -, hdrain⟩ := State.nothing_enabled_of_rstN_low hr u
    simp only [doMove, hdrain] at h
    cases h
    exact ⟨rfl, rfl, rfl, rfl⟩
  | unitStep u =>
    obtain ⟨hstep, -, -⟩ := State.nothing_enabled_of_rstN_low hr u
    simp only [doMove, runUnit_of_not_stepEnabled hstep] at h
    cases h
    exact ⟨rfl, rfl, rfl, rfl⟩

/-- Settles O15: the guards of the unit steps and the handshakes all ask for rst_n. -/
theorem hardwareResetGivesEveryFieldItsValue : Obligations.HardwareResetGivesEveryFieldItsValue :=
  ⟨fun _ => rfl, fun _ u hr => State.nothing_enabled_of_rstN_low hr u,
    fun _ _ _ hr hm h => doMove_units_of_rstN_low hr hm h, fun _ => rfl⟩

/-! ### Reading a CSR -/

/-- The CSR space is a view of the units and the depths (10_state.md R35). -/
theorem readCsr_congr {s t : State} (he : s.enc = t.enc) (hd : s.dec = t.dec) (hp : s.pack = t.pack)
    (hu : s.unpk = t.unpk) (hparams : s.params = t.params) (a : BitVec 8) : readCsr s a = readCsr t a := by
  simp only [readCsr, csrMap, he, hd, hp, hu, hparams]

/-- Settles O17: while rst_n is low the invariant gives every unit its reset value. -/
theorem csrReadReturnsTheCurrentValue : Obligations.CsrReadReturnsTheCurrentValue := by
  refine ⟨fun _ _ => rfl, fun a s hinv hr => ?_⟩
  obtain ⟨he, hd, hp, hu⟩ := hinv.inReset hr
  exact readCsr_congr (t := { State.reset with params := s.params }) he hd hp hu rfl a

/-- The mapped addresses (10_state.md R36 to R39). -/
def mappedAddrs : List (BitVec 8) :=
  [0x00#8, 0x01#8, 0x02#8, 0x03#8, 0x04#8, 0x05#8, 0x06#8, 0x07#8, 0x08#8, 0x09#8,
   0x10#8, 0x11#8, 0x12#8, 0x13#8, 0x14#8, 0x15#8, 0x16#8, 0x17#8, 0x18#8,
   0x20#8, 0x21#8, 0x22#8, 0x23#8, 0x24#8, 0x25#8, 0x26#8, 0x27#8, 0x28#8,
   0x30#8, 0x31#8, 0x32#8, 0x33#8, 0x34#8, 0x35#8, 0x36#8,
   0x40#8, 0x41#8, 0x42#8, 0x43#8, 0x44#8, 0x45#8, 0x46#8, 0x47#8]

theorem csrMap_addrs (s : State) : (csrMap s).map Prod.fst = mappedAddrs := rfl

theorem csrAt_of_not_mem {m : List (BitVec 8 × Word)} {a : BitVec 8} (h : a ∉ m.map Prod.fst) :
    csrAt m a = 0#32 := by
  induction m with
  | nil => rfl
  | cons r rest ih =>
    simp only [List.map_cons, List.mem_cons, not_or] at h
    obtain ⟨hhead, hrest⟩ := h
    rw [csrAt, if_neg (Ne.symm hhead), ih hrest]

/-- No mapped address is in the ranges of 10_state.md R41. -/
theorem mappedAddrs_not_unmapped : ∀ a ∈ mappedAddrs,
    ¬((0x0A ≤ a.toNat ∧ a.toNat ≤ 0x0F) ∨ (0x19 ≤ a.toNat ∧ a.toNat ≤ 0x1F) ∨
      (0x29 ≤ a.toNat ∧ a.toNat ≤ 0x2F) ∨ (0x37 ≤ a.toNat ∧ a.toNat ≤ 0x3F) ∨ 0x48 ≤ a.toNat) := by
  decide

/-- Settles O19: an unmapped address is none of the map's, and the map reads 0 there. -/
theorem unmappedCsrReadsZero : Obligations.UnmappedCsrReadsZero :=
  fun _ a ha => csrAt_of_not_mem fun hmem => mappedAddrs_not_unmapped a hmem ha

/-! ### Fields of a CSR -/

open BitVec in
/-- A field above the lower part of an appended word stands in the upper part. -/
theorem extractLsb'_append_add {v w : Nat} {hi : BitVec v} {lo : BitVec w} {start len : Nat} :
    (hi ++ lo).extractLsb' (start + w) len = hi.extractLsb' start len := by
  rw [extractLsb'_append_eq_of_le (Nat.le_add_left ..), Nat.add_sub_cancel]

open BitVec in
/-- The layout of STATUS (10_state.md R37). -/
theorem statusWord_fields (c : Ctl) (anom stale : Bool) :
    (statusWord c anom stale).extractLsb' 0 2 = c.phase.code ∧
    (statusWord c anom stale).extractLsb' 2 1 = BitVec.ofBool c.done ∧
    (statusWord c anom stale).extractLsb' 3 1 = 0#1 ∧
    (statusWord c anom stale).extractLsb' 4 4 = c.cause ∧
    (statusWord c anom stale).extractLsb' 8 4 = c.detail ∧
    (statusWord c anom stale).extractLsb' 12 1 = BitVec.ofBool anom ∧
    (statusWord c anom stale).extractLsb' 13 1 = BitVec.ofBool stale ∧
    (statusWord c anom stale).extractLsb' 14 18 = 0#18 := by
  refine ⟨extractLsb'_append_eq_right, ?_, ?_, ?_, ?_, ?_, ?_, ?_⟩
  · exact extractLsb'_append_add.trans extractLsb'_append_eq_right
  · iterate 2 refine extractLsb'_append_add.trans ?_
    exact extractLsb'_append_eq_right
  · iterate 3 refine extractLsb'_append_add.trans ?_
    exact extractLsb'_append_eq_right
  · iterate 4 refine extractLsb'_append_add.trans ?_
    exact extractLsb'_append_eq_right
  · iterate 5 refine extractLsb'_append_add.trans ?_
    exact extractLsb'_append_eq_right
  · iterate 6 refine extractLsb'_append_add.trans ?_
    exact extractLsb'_append_eq_right
  · iterate 6 refine extractLsb'_append_add.trans ?_
    exact extractLsb'_append_eq_left

/-- Settles O20: every unit's STATUS is the one layout; only DEC has the bits 12 and 13. -/
theorem statusFieldsStandWhereTheSpecPutsThem : Obligations.StatusFieldsStandWhereTheSpecPutsThem := by
  rintro s u base (⟨rfl, rfl⟩ | ⟨rfl, rfl⟩ | ⟨rfl, rfl⟩ | ⟨rfl, rfl⟩)
  · exact statusWord_fields s.enc.ctl false false
  · exact statusWord_fields s.dec.ctl s.dec.anom s.dec.stale
  · exact statusWord_fields s.pack.ctl false false
  · exact statusWord_fields s.unpk.ctl false false

/-- The bits that widening adds are 0. -/
theorem extractLsb'_setWidth_above {w v len : Nat} (x : BitVec w) :
    (x.setWidth v).extractLsb' w len = 0#len := by
  ext i hi
  simp

open BitVec in
/-- The layout of UNPK_GROUP (10_state.md R39). -/
theorem groupWord_fields (acc : Byte) (pos : BitVec 2) :
    ((acc ++ 0#6 ++ pos).setWidth 32).extractLsb' 0 2 = pos ∧
    ((acc ++ 0#6 ++ pos).setWidth 32).extractLsb' 2 6 = 0#6 ∧
    ((acc ++ 0#6 ++ pos).setWidth 32).extractLsb' 8 8 = acc ∧
    ((acc ++ 0#6 ++ pos).setWidth 32).extractLsb' 16 16 = 0#16 := by
  refine ⟨?_, ?_, ?_, extractLsb'_setWidth_above _⟩
  all_goals rw [extractLsb'_setWidth_of_le (by decide)]
  · exact extractLsb'_append_eq_right
  · exact extractLsb'_append_add.trans extractLsb'_append_eq_right
  · iterate 2 refine extractLsb'_append_add.trans ?_
    exact extractLsb'_eq_self

/-- PACK_HOLD: bit 4 is the flag and bits 3:0 the nibble (10_state.md R39). -/
theorem holdWord_toNat (hold : Bool) (nib : BitVec 4) :
    ((flagBit hold ++ nib).setWidth 32).toNat = (if hold then 16 else 0) + nib.toNat := by
  have hnib := nib.isLt
  rw [BitVec.toNat_setWidth, BitVec.toNat_append, ← Nat.shiftLeft_add_eq_or_of_lt hnib]
  cases hold
  · simp [flagBit]; omega
  · simp [flagBit]; omega

/-- Settles O18, register by register. -/
theorem csrAddressesReadTheirRegisters : Obligations.CsrAddressesReadTheirRegisters := by
  intro s
  obtain ⟨hpos, hzero, hacc, hhigh⟩ := groupWord_fields s.unpk.acc s.unpk.pos.code
  refine ⟨⟨rfl, rfl, rfl, rfl, rfl, rfl, rfl, rfl, rfl, rfl⟩, ?_, ⟨rfl, rfl, rfl, rfl, rfl⟩,
    ⟨rfl, rfl, rfl, rfl, rfl⟩, ⟨holdWord_toNat s.pack.hold s.pack.nib, rfl, rfl⟩,
    ⟨rfl, rfl, rfl, hpos, hzero, hacc, hhigh⟩⟩
  rintro u base (⟨rfl, rfl⟩ | ⟨rfl, rfl⟩ | ⟨rfl, rfl⟩ | ⟨rfl, rfl⟩) <;> exact ⟨rfl, rfl, rfl⟩

end Sys2Proof.Machine
end

section
/-! What an instruction can do to each unit, once, and what follows for its queues and flags (10_state.md R29, R31,
R32; 41_encoder.md to 45_common.md). -/

namespace Sys2Proof.Machine

/-! ### Everything an instruction can do to a unit -/

/-- `e.Reacts i e'`: instruction `i` takes ENC from `e` to `e'`, one constructor for each outcome
(41_encoder.md R120). -/
inductive EncUnit.Reacts (e : EncUnit) : Instr → EncUnit → Prop
  | other {i : Instr} (hi : i.unit? ≠ some .enc) : e.Reacts i e
  | refused (hstart : e.ctl.canStart = false) : e.Reacts .encStart e
  | started (hstart : e.ctl.canStart = true) : e.Reacts .encStart e.start
  | dropped {i : Instr} (hi : i.unit? = some .enc) (hph : e.ctl.phase = .fault) : e.Reacts i e
  | outOfSequence {i : Instr} (hi : i.unit? = some .enc) (hph : e.ctl.phase = .idle) :
      e.Reacts i (e.fault .sequence (encode i))
  | firstByte {c : Byte} (hph : e.ctl.phase = .opened) : e.Reacts (.encByte c) (e.firstByteIn c)
  | extended {c : Byte} {x : Code} (hph : e.ctl.phase = .run) (hlookup : lookup e.sync.dict e.w c = some x) :
      e.Reacts (.encByte c) { e with inBytes := bump e.inBytes 1, w := x }
  | overflowed {c : Byte} (hph : e.ctl.phase = .run) (hlookup : lookup e.sync.dict e.w c = none)
      (hover : e.sync.overflow = true) : e.Reacts (.encByte c) (e.fault .counter (encode (.encByte c)))
  | emitted {c : Byte} (hph : e.ctl.phase = .run) (hlookup : lookup e.sync.dict e.w c = none)
      (hover : e.sync.overflow = false) :
      e.Reacts (.encByte c)
        { e with inBytes := bump e.inBytes 1, oq := emit e.oq [.data e.w], outCodes := bump e.outCodes 1,
                 sync := e.sync.insert e.w c, w := byteCode c }
  | endedEmpty (hph : e.ctl.phase = .opened) : e.Reacts .encEnd e.finishEmpty
  | ended (hph : e.ctl.phase = .run) : e.Reacts .encEnd e.finishRun

/-- `d.Reacts i d'`: instruction `i` takes DEC from `d` to `d'`, one constructor for each outcome
(42_decoder.md R140). -/
inductive DecUnit.Reacts (d : DecUnit) : Instr → DecUnit → Prop
  | other {i : Instr} (hi : i.unit? ≠ some .dec) : d.Reacts i d
  | refused (hstart : d.ctl.canStart = false) : d.Reacts .decStart d
  | started (hstart : d.ctl.canStart = true) : d.Reacts .decStart d.start
  | dropped {i : Instr} (hi : i.unit? = some .dec) (hph : d.ctl.phase = .fault) : d.Reacts i d
  | outOfSequence {i : Instr} (hi : i.unit? = some .dec) (hph : d.ctl.phase = .idle) :
      d.Reacts i (d.fault .sequence (encode i))
  | outOfRange {k : Operand} (hph : d.ctl.phase = .opened ∨ d.ctl.phase = .run) (hk : 4095 < k.toNat) :
      d.Reacts (.decCode k) (d.fault .range (encode (.decCode k)))
  | firstUnbound {k : Operand} (hph : d.ctl.phase = .opened) (hk : 256 ≤ k.toNat) :
      d.Reacts (.decCode k) (d.fault .firstUnbound (encode (.decCode k)))
  | firstCode {k : Operand} (hph : d.ctl.phase = .opened) (hk : k.toNat < 256) :
      d.Reacts (.decCode k)
        { d with oq := emit d.oq [.data (codeByte (operandCode k))], prior := operandCode k, inCodes := 1#32,
                 outBytes := 1#32, ctl := { d.ctl with phase := .run } }
  | staled {k : Operand} (hph : d.ctl.phase = .run) (hstale : d.stale = true) :
      d.Reacts (.decCode k) (d.fault .stale (encode (.decCode k)))
  | overflowed {k : Operand} (hph : d.ctl.phase = .run) (hover : d.sync.overflow = true) :
      d.Reacts (.decCode k) (d.fault .counter (encode (.decCode k)))
  | decoded {k : Operand} (hph : d.ctl.phase = .run) (hk : k.toNat ≤ 4095) (hstale : d.stale = false)
      (hover : d.sync.overflow = false) : d.Reacts (.decCode k) (d.decodeOne k)
  | endedEmpty (hph : d.ctl.phase = .opened) : d.Reacts .decEnd (d.fault .empty (encode .decEnd))
  | ended (hph : d.ctl.phase = .run) : d.Reacts .decEnd d.finishRun

/-- `p.Reacts i p'`: instruction `i` takes PACK from `p` to `p'`, one constructor for each outcome
(43_bitpacker.md R160). -/
inductive PackUnit.Reacts (p : PackUnit) : Instr → PackUnit → Prop
  | other {i : Instr} (hi : i.unit? ≠ some .pack) : p.Reacts i p
  | refused (hstart : p.ctl.canStart = false) : p.Reacts .packStart p
  | started (hstart : p.ctl.canStart = true) : p.Reacts .packStart p.start
  | dropped {i : Instr} (hi : i.unit? = some .pack) (hph : p.ctl.phase = .fault) : p.Reacts i p
  | outOfSequence {i : Instr} (hi : i.unit? = some .pack)
      (hph : p.ctl.phase = .idle ∨ p.ctl.phase = .opened) : p.Reacts i (p.fault .sequence (encode i))
  | evenCode {k : Code} (hph : p.ctl.phase = .run) (hhold : p.hold = false) :
      p.Reacts (.packCode k) (p.evenCodeIn k)
  | oddCode {k : Code} (hph : p.ctl.phase = .run) (hhold : p.hold = true) :
      p.Reacts (.packCode k) (p.oddCodeIn k)
  | endedEven (hph : p.ctl.phase = .run) (hhold : p.hold = false) : p.Reacts .packEnd p.finishEven
  | endedOdd (hph : p.ctl.phase = .run) (hhold : p.hold = true) : p.Reacts .packEnd p.finishOdd

/-- `p.Reacts i p'`: instruction `i` takes UNPK from `p` to `p'`, one constructor for each outcome
(44_bitunpacker.md R175). -/
inductive UnpkUnit.Reacts (p : UnpkUnit) : Instr → UnpkUnit → Prop
  | other {i : Instr} (hi : i.unit? ≠ some .unpk) : p.Reacts i p
  | refused {n : BitVec 24} (hstart : p.ctl.canStart = false) : p.Reacts (.unpkStart n) p
  | started {n : BitVec 24} (hstart : p.ctl.canStart = true) : p.Reacts (.unpkStart n) (p.start n)
  | dropped {i : Instr} (hi : i.unit? = some .unpk) (hph : p.ctl.phase = .fault) : p.Reacts i p
  | outOfSequence {i : Instr} (hi : i.unit? = some .unpk)
      (hph : p.ctl.phase = .idle ∨ p.ctl.phase = .opened) : p.Reacts i (p.fault .sequence (encode i))
  | exceeded {b : Byte} (hph : p.ctl.phase = .run) (hpos : p.pos = .byte0) (hcount : p.produced = p.expected) :
      p.Reacts (.unpkByte b) (p.fault .excess (encode (.unpkByte b)))
  | byte0 {b : Byte} (hph : p.ctl.phase = .run) (hpos : p.pos = .byte0) (hcount : p.produced ≠ p.expected) :
      p.Reacts (.unpkByte b) { p with acc := b, pos := .byte1, inBytes := bump p.inBytes 1 }
  | byte1 {b : Byte} (hph : p.ctl.phase = .run) (hpos : p.pos = .byte1) : p.Reacts (.unpkByte b) (p.byte1In b)
  | byte2 {b : Byte} (hph : p.ctl.phase = .run) (hpos : p.pos = .byte2) : p.Reacts (.unpkByte b) (p.byte2In b)
  | truncated (hph : p.ctl.phase = .run) (hcount : p.pos ≠ .byte0 ∨ p.produced ≠ p.expected) :
      p.Reacts .unpkEnd (p.fault .truncated (encode .unpkEnd))
  | ended (hph : p.ctl.phase = .run) (hpos : p.pos = .byte0) (hcount : p.produced = p.expected) :
      p.Reacts .unpkEnd { p with oq := emit p.oq [.eos], ctl := p.ctl.finish }

/-! ### Each command's function is such an answer -/

theorem EncUnit.onStart_reacts (e : EncUnit) : e.Reacts .encStart e.onStart := by
  rcases e.onStart_cases with ⟨hstart, heq⟩ | ⟨hstart, heq⟩ <;> rw [heq]
  · exact .started hstart
  · exact .refused hstart

theorem EncUnit.onByte_reacts (e : EncUnit) (c : Byte) : e.Reacts (.encByte c) (e.onByte c) := by
  rcases e.onByte_cases c with ⟨hph, heq⟩ | ⟨hph, heq⟩ | ⟨hph, heq⟩ | ⟨hph, heq⟩ <;> rw [heq]
  · exact .outOfSequence rfl hph
  · exact .firstByte hph
  · rcases e.nextByteIn_cases c with ⟨x, hl, heq'⟩ | ⟨hl, hover, heq'⟩ | ⟨hl, hover, heq'⟩ <;> rw [heq']
    · exact .extended hph hl
    · exact .overflowed hph hl hover
    · exact .emitted hph hl hover
  · exact .dropped rfl hph

theorem EncUnit.onEnd_reacts (e : EncUnit) : e.Reacts .encEnd e.onEnd := by
  rcases e.onEnd_cases with ⟨hph, heq⟩ | ⟨hph, heq⟩ | ⟨hph, heq⟩ | ⟨hph, heq⟩ <;> rw [heq]
  · exact .outOfSequence rfl hph
  · exact .endedEmpty hph
  · exact .ended hph
  · exact .dropped rfl hph

theorem DecUnit.onStart_reacts (d : DecUnit) : d.Reacts .decStart d.onStart := by
  rcases d.onStart_cases with ⟨hstart, heq⟩ | ⟨hstart, heq⟩ <;> rw [heq]
  · exact .started hstart
  · exact .refused hstart

theorem DecUnit.onCode_reacts (d : DecUnit) (k : Operand) : d.Reacts (.decCode k) (d.onCode k) := by
  rcases d.onCode_cases k with ⟨hph, heq⟩ | ⟨hph, heq⟩ | ⟨hph, heq⟩ | ⟨hph, heq⟩ <;> rw [heq]
  · exact .outOfSequence rfl hph
  · rcases d.firstCodeIn_cases k with ⟨hk, heq'⟩ | ⟨hk, -, heq'⟩ | ⟨hk, heq'⟩ <;> rw [heq']
    · exact .outOfRange (.inl hph) hk
    · exact .firstUnbound hph hk
    · exact .firstCode hph hk
  · rcases d.nextCodeIn_cases k with ⟨hk, heq'⟩ | ⟨-, hstale, heq'⟩ | ⟨-, -, hover, heq'⟩ |
      ⟨hk, hstale, hover, heq'⟩ <;> rw [heq']
    · exact .outOfRange (.inr hph) hk
    · exact .staled hph hstale
    · exact .overflowed hph hover
    · exact .decoded hph hk hstale hover
  · exact .dropped rfl hph

theorem DecUnit.onEnd_reacts (d : DecUnit) : d.Reacts .decEnd d.onEnd := by
  rcases d.onEnd_cases with ⟨hph, heq⟩ | ⟨hph, heq⟩ | ⟨hph, heq⟩ | ⟨hph, heq⟩ <;> rw [heq]
  · exact .outOfSequence rfl hph
  · exact .endedEmpty hph
  · exact .ended hph
  · exact .dropped rfl hph

theorem PackUnit.onStart_reacts (p : PackUnit) : p.Reacts .packStart p.onStart := by
  rcases p.onStart_cases with ⟨hstart, heq⟩ | ⟨hstart, heq⟩ <;> rw [heq]
  · exact .started hstart
  · exact .refused hstart

theorem PackUnit.onCode_reacts (p : PackUnit) (k : Code) : p.Reacts (.packCode k) (p.onCode k) := by
  rcases p.onCode_cases k with ⟨hph, heq⟩ | ⟨hph, hhold, heq⟩ | ⟨hph, hhold, heq⟩ | ⟨hph, heq⟩ <;> rw [heq]
  · exact .outOfSequence rfl hph
  · exact .evenCode hph hhold
  · exact .oddCode hph hhold
  · exact .dropped rfl hph

theorem PackUnit.onEnd_reacts (p : PackUnit) : p.Reacts .packEnd p.onEnd := by
  rcases p.onEnd_cases with ⟨hph, heq⟩ | ⟨hph, hhold, heq⟩ | ⟨hph, hhold, heq⟩ | ⟨hph, heq⟩ <;> rw [heq]
  · exact .outOfSequence rfl hph
  · exact .endedEven hph hhold
  · exact .endedOdd hph hhold
  · exact .dropped rfl hph

theorem UnpkUnit.onStart_reacts (p : UnpkUnit) (n : BitVec 24) : p.Reacts (.unpkStart n) (p.onStart n) := by
  rcases p.onStart_cases n with ⟨hstart, heq⟩ | ⟨hstart, heq⟩ <;> rw [heq]
  · exact .started hstart
  · exact .refused hstart

theorem UnpkUnit.onByte_reacts (p : UnpkUnit) (b : Byte) : p.Reacts (.unpkByte b) (p.onByte b) := by
  rcases p.onByte_cases b with ⟨hph, heq⟩ | ⟨hph, hpos, heq⟩ | ⟨hph, hpos, heq⟩ | ⟨hph, hpos, heq⟩ |
    ⟨hph, heq⟩ <;> rw [heq]
  · exact .outOfSequence rfl hph
  · unfold UnpkUnit.byte0In
    split
    next hcount => exact .exceeded hph hpos hcount
    next hcount => exact .byte0 hph hpos hcount
  · exact .byte1 hph hpos
  · exact .byte2 hph hpos
  · exact .dropped rfl hph

theorem UnpkUnit.onEnd_reacts (p : UnpkUnit) : p.Reacts .unpkEnd p.onEnd := by
  rcases p.onEnd_cases with ⟨hph, heq⟩ | ⟨hph, hcount, heq⟩ | ⟨hph, hpos, hcount, heq⟩ | ⟨hph, heq⟩ <;> rw [heq]
  · exact .outOfSequence rfl hph
  · exact .truncated hph hcount
  · exact .ended hph hpos hcount
  · exact .dropped rfl hph

/-! ### An executed instruction -/

section
variable {i : Instr} {s t : State}

theorem exec_enc_reacts (h : exec i s = .next t) : s.enc.Reacts i t.enc := by
  cases i with
  | encStart => cases h; exact s.enc.onStart_reacts
  | encByte c => cases h; exact s.enc.onByte_reacts c
  | encEnd => cases h; exact s.enc.onEnd_reacts
  | _ => cases h; exact .other (by simp [Instr.unit?])

theorem exec_dec_reacts (h : exec i s = .next t) : s.dec.Reacts i t.dec := by
  cases i with
  | decStart => cases h; exact s.dec.onStart_reacts
  | decCode k => cases h; exact s.dec.onCode_reacts k
  | decEnd => cases h; exact s.dec.onEnd_reacts
  | _ => cases h; exact .other (by simp [Instr.unit?])

theorem exec_pack_reacts (h : exec i s = .next t) : s.pack.Reacts i t.pack := by
  cases i with
  | packStart => cases h; exact s.pack.onStart_reacts
  | packCode k => cases h; exact s.pack.onCode_reacts k
  | packEnd => cases h; exact s.pack.onEnd_reacts
  | _ => cases h; exact .other (by simp [Instr.unit?])

theorem exec_unpk_reacts (h : exec i s = .next t) : s.unpk.Reacts i t.unpk := by
  cases i with
  | unpkStart n => cases h; exact s.unpk.onStart_reacts n
  | unpkByte b => cases h; exact s.unpk.onByte_reacts b
  | unpkEnd => cases h; exact s.unpk.onEnd_reacts
  | _ => cases h; exact .other (by simp [Instr.unit?])

theorem exec_rstN (h : exec i s = .next t) : t.rstN = s.rstN := by cases i <;> cases h <;> rfl

theorem exec_params (h : exec i s = .next t) : t.params = s.params := by cases i <;> cases h <;> rfl

/-! ### Command queues -/

theorem EncUnit.Reacts.cmdq_eq {e e' : EncUnit} (h : e.Reacts i e') : e'.ctl.cmdq = e.ctl.cmdq := by
  cases h <;> rfl

theorem DecUnit.Reacts.cmdq_eq {d d' : DecUnit} (h : d.Reacts i d') : d'.ctl.cmdq = d.ctl.cmdq := by
  cases h <;> rfl

theorem PackUnit.Reacts.cmdq_eq {p p' : PackUnit} (h : p.Reacts i p') : p'.ctl.cmdq = p.ctl.cmdq := by
  cases h <;> rfl

theorem UnpkUnit.Reacts.cmdq_eq {p p' : UnpkUnit} (h : p.Reacts i p') : p'.ctl.cmdq = p.ctl.cmdq := by
  cases h <;> rfl

/-- An instruction leaves the command queues to the step that runs it. -/
theorem exec_cmdq (h : exec i s = .next t) (u : UnitId) : (t.ctl u).cmdq = (s.ctl u).cmdq := by
  cases u with
  | enc => exact (exec_enc_reacts h).cmdq_eq
  | dec => exact (exec_dec_reacts h).cmdq_eq
  | pack => exact (exec_pack_reacts h).cmdq_eq
  | unpk => exact (exec_unpk_reacts h).cmdq_eq

/-! ### Output queues -/

theorem nout_enc_of_no_run (hi : i.unit? = some .enc) (hph : s.enc.ctl.phase = .idle ∨ s.enc.ctl.phase = .fault) :
    nout i s = 0 := by
  cases i <;> cases hi
  · rfl
  · rcases hph with hph | hph <;> simp [nout, EncUnit.noutByte, hph]
  · rcases hph with hph | hph <;> simp [nout, EncUnit.noutEnd, hph]

theorem nout_dec_of_no_run (hi : i.unit? = some .dec) (hph : s.dec.ctl.phase = .idle ∨ s.dec.ctl.phase = .fault) :
    nout i s = 0 := by
  cases i <;> cases hi
  · rfl
  · rcases hph with hph | hph <;> simp [nout, DecUnit.noutCode, hph]
  · rcases hph with hph | hph <;> simp [nout, DecUnit.noutEnd, hph]

theorem nout_pack_of_not_run (hi : i.unit? = some .pack) (hph : s.pack.ctl.phase ≠ .run) : nout i s = 0 := by
  cases i <;> cases hi
  · rfl
  all_goals simp [nout, PackUnit.noutHold, hph]

theorem nout_unpk_of_not_run (hi : i.unit? = some .unpk) (hph : s.unpk.ctl.phase ≠ .run) : nout i s = 0 := by
  cases i <;> cases hi
  · rfl
  · simp [nout, UnpkUnit.noutByte, hph]
  · simp [nout, UnpkUnit.noutEnd, hph]

/-- A codeword has as many bytes as 42_decoder.md R150 counts. -/
theorem DecUnit.codewordBytes_length (d : DecUnit) (k : Operand) :
    (d.codewordBytes k).length =
      if d.sync.bound k.toNat then symbolLen d.sync.dict (operandCode k) else symbolLen d.sync.dict d.prior + 1 := by
  unfold DecUnit.codewordBytes symbolLen
  split <;> simp

theorem EncUnit.Reacts.oq_length {e' : EncUnit} (h : s.enc.Reacts i e') :
    e'.oq.length = s.enc.oq.length + if i.unit? = some .enc then nout i s else 0 := by
  cases h with
  | other hi => simp [hi]
  | refused | started => rfl
  | dropped hi hph => simp [hi, nout_enc_of_no_run hi (.inr hph)]
  | outOfSequence hi hph => simp [hi, nout_enc_of_no_run hi (.inl hph), EncUnit.fault]
  | firstByte hph => simp [Instr.unit?, nout, EncUnit.noutByte, hph, EncUnit.firstByteIn]
  | extended hph hl => simp [Instr.unit?, nout, EncUnit.noutByte, hl]
  | overflowed hph hl hover => simp [Instr.unit?, nout, EncUnit.noutByte, hover, EncUnit.fault]
  | emitted hph hl hover => simp [Instr.unit?, nout, EncUnit.noutByte, hph, hl, hover, emit]
  | endedEmpty hph => simp [Instr.unit?, nout, EncUnit.noutEnd, hph, EncUnit.finishEmpty, emit]
  | ended hph => simp [Instr.unit?, nout, EncUnit.noutEnd, hph, EncUnit.finishRun, emit]

theorem DecUnit.Reacts.oq_length {d' : DecUnit} (h : s.dec.Reacts i d') :
    d'.oq.length = s.dec.oq.length + if i.unit? = some .dec then nout i s else 0 := by
  cases h with
  | other hi => simp [hi]
  | refused | started => rfl
  | dropped hi hph => simp [hi, nout_dec_of_no_run hi (.inr hph)]
  | outOfSequence hi hph => simp [hi, nout_dec_of_no_run hi (.inl hph), DecUnit.fault]
  | outOfRange hph hk =>
    rcases hph with hph | hph <;> simp [Instr.unit?, nout, DecUnit.noutCode, hph, DecUnit.fault, hk]; omega
  | firstUnbound hph hk => simp [Instr.unit?, nout, DecUnit.noutCode, hph, DecUnit.fault, hk]
  | firstCode hph hk => simp [Instr.unit?, nout, DecUnit.noutCode, hph, hk, emit]
  | staled hph hstale => simp [Instr.unit?, nout, DecUnit.noutCode, hph, hstale, DecUnit.fault]
  | overflowed hph hover => simp [Instr.unit?, nout, DecUnit.noutCode, hph, hover, DecUnit.fault]
  | decoded hph hk hstale hover =>
    simp [Instr.unit?, nout, DecUnit.noutCode, hph, hstale, hover, Nat.not_lt.mpr hk, DecUnit.decodeOne, emit,
      DecUnit.codewordBytes_length]
  | endedEmpty hph => simp [Instr.unit?, nout, DecUnit.noutEnd, hph, DecUnit.fault]
  | ended hph => simp [Instr.unit?, nout, DecUnit.noutEnd, hph, DecUnit.finishRun, emit]

theorem PackUnit.Reacts.oq_length {p' : PackUnit} (h : s.pack.Reacts i p') :
    p'.oq.length = s.pack.oq.length + if i.unit? = some .pack then nout i s else 0 := by
  cases h with
  | other hi => simp [hi]
  | refused | started => rfl
  | dropped hi hph =>
    have hrun : s.pack.ctl.phase ≠ .run := by simp [hph]
    simp [hi, nout_pack_of_not_run hi hrun]
  | outOfSequence hi hph =>
    have hrun : s.pack.ctl.phase ≠ .run := by rcases hph with hph | hph <;> simp [hph]
    simp [hi, nout_pack_of_not_run hi hrun, PackUnit.fault]
  | evenCode hph hhold => simp [Instr.unit?, nout, PackUnit.noutHold, hph, hhold, PackUnit.evenCodeIn, emit]
  | oddCode hph hhold => simp [Instr.unit?, nout, PackUnit.noutHold, hph, hhold, PackUnit.oddCodeIn, emit]
  | endedEven hph hhold => simp [Instr.unit?, nout, PackUnit.noutHold, hph, hhold, PackUnit.finishEven, emit]
  | endedOdd hph hhold => simp [Instr.unit?, nout, PackUnit.noutHold, hph, hhold, PackUnit.finishOdd, emit]

theorem UnpkUnit.Reacts.oq_length {p' : UnpkUnit} (h : s.unpk.Reacts i p') :
    p'.oq.length = s.unpk.oq.length + if i.unit? = some .unpk then nout i s else 0 := by
  cases h with
  | other hi => simp [hi]
  | refused | started => rfl
  | dropped hi hph =>
    have hrun : s.unpk.ctl.phase ≠ .run := by simp [hph]
    simp [hi, nout_unpk_of_not_run hi hrun]
  | outOfSequence hi hph =>
    have hrun : s.unpk.ctl.phase ≠ .run := by rcases hph with hph | hph <;> simp [hph]
    simp [hi, nout_unpk_of_not_run hi hrun, UnpkUnit.fault]
  | exceeded hph hpos hcount => simp [Instr.unit?, nout, UnpkUnit.noutByte, hpos, UnpkUnit.fault]
  | byte0 hph hpos hcount => simp [Instr.unit?, nout, UnpkUnit.noutByte, hpos]
  | byte1 hph hpos => simp [Instr.unit?, nout, UnpkUnit.noutByte, hph, hpos, UnpkUnit.byte1In, emit]
  | byte2 hph hpos => simp [Instr.unit?, nout, UnpkUnit.noutByte, hph, hpos, UnpkUnit.byte2In, emit]
  | truncated hph hcount =>
    rcases hcount with h | h <;> simp [Instr.unit?, nout, UnpkUnit.noutEnd, h, UnpkUnit.fault]
  | ended hph hpos hcount => simp [Instr.unit?, nout, UnpkUnit.noutEnd, hph, hpos, hcount, emit]

/-- An instruction adds to its own unit's output queue what `nout` counts, and nothing to another's. -/
theorem exec_oqLen (h : exec i s = .next t) (u : UnitId) :
    t.oqLen u = s.oqLen u + if i.unit? = some u then nout i s else 0 := by
  cases u with
  | enc => exact (exec_enc_reacts h).oq_length
  | dec => exact (exec_dec_reacts h).oq_length
  | pack => exact (exec_pack_reacts h).oq_length
  | unpk => exact (exec_unpk_reacts h).oq_length

/-! ### Flags -/

theorem EncUnit.Reacts.done_changed {e e' : EncUnit} (h : e.Reacts i e') (hne : e'.ctl.done ≠ e.ctl.done) :
    (i = .encStart ∧ e'.ctl.done = false) ∨ (i = .encEnd ∧ e'.ctl.done = true ∧ e'.ctl.phase = .idle) := by
  cases h with
  | started => exact .inl ⟨rfl, rfl⟩
  | endedEmpty | ended => exact .inr ⟨rfl, rfl, rfl⟩
  | _ => exact absurd rfl hne

theorem DecUnit.Reacts.done_changed {d d' : DecUnit} (h : d.Reacts i d') (hne : d'.ctl.done ≠ d.ctl.done) :
    (i = .decStart ∧ d'.ctl.done = false) ∨ (i = .decEnd ∧ d'.ctl.done = true ∧ d'.ctl.phase = .idle) := by
  cases h with
  | started => exact .inl ⟨rfl, rfl⟩
  | ended => exact .inr ⟨rfl, rfl, rfl⟩
  | _ => exact absurd rfl hne

theorem PackUnit.Reacts.done_changed {p p' : PackUnit} (h : p.Reacts i p') (hne : p'.ctl.done ≠ p.ctl.done) :
    (i = .packStart ∧ p'.ctl.done = false) ∨ (i = .packEnd ∧ p'.ctl.done = true ∧ p'.ctl.phase = .idle) := by
  cases h with
  | started => exact .inl ⟨rfl, rfl⟩
  | endedEven | endedOdd => exact .inr ⟨rfl, rfl, rfl⟩
  | _ => exact absurd rfl hne

theorem UnpkUnit.Reacts.done_changed {p p' : UnpkUnit} (h : p.Reacts i p') (hne : p'.ctl.done ≠ p.ctl.done) :
    (∃ n, i = .unpkStart n ∧ p'.ctl.done = false) ∨ (i = .unpkEnd ∧ p'.ctl.done = true ∧ p'.ctl.phase = .idle) := by
  cases h with
  | @started n => exact .inl ⟨n, rfl, rfl⟩
  | ended => exact .inr ⟨rfl, rfl, rfl⟩
  | _ => exact absurd rfl hne

theorem exec_done_changed {u : UnitId} (h : exec i s = .next t) (hne : (t.ctl u).done ≠ (s.ctl u).done) :
    (isStart i = true ∧ i.unit? = some u ∧ (t.ctl u).done = false) ∨
    (i ∈ [Instr.encEnd, .decEnd, .packEnd, .unpkEnd] ∧ i.unit? = some u ∧ (t.ctl u).done = true ∧
      (t.ctl u).phase = .idle) := by
  cases u with
  | enc =>
    rcases (exec_enc_reacts h).done_changed hne with ⟨rfl, hdone⟩ | ⟨rfl, hdone, hph⟩
    · exact .inl ⟨rfl, rfl, hdone⟩
    · exact .inr ⟨by decide, rfl, hdone, hph⟩
  | dec =>
    rcases (exec_dec_reacts h).done_changed hne with ⟨rfl, hdone⟩ | ⟨rfl, hdone, hph⟩
    · exact .inl ⟨rfl, rfl, hdone⟩
    · exact .inr ⟨by decide, rfl, hdone, hph⟩
  | pack =>
    rcases (exec_pack_reacts h).done_changed hne with ⟨rfl, hdone⟩ | ⟨rfl, hdone, hph⟩
    · exact .inl ⟨rfl, rfl, hdone⟩
    · exact .inr ⟨by decide, rfl, hdone, hph⟩
  | unpk =>
    rcases (exec_unpk_reacts h).done_changed hne with ⟨n, rfl, hdone⟩ | ⟨rfl, hdone, hph⟩
    · exact .inl ⟨rfl, rfl, hdone⟩
    · exact .inr ⟨by decide, rfl, hdone, hph⟩

/-- A flag that is only ever or-ed with something is true once it has changed. -/
theorem or_changed {a b : Bool} (h : (a || b) ≠ a) : (a || b) = true := by
  cases a <;> simp_all

theorem DecUnit.Reacts.anom_changed {d d' : DecUnit} (h : d.Reacts i d') (hne : d'.anom ≠ d.anom) :
    (i = .decStart ∧ d'.anom = false) ∨ ∃ k, i = .decCode k ∧ d'.anom = true := by
  cases h with
  | started => exact .inl ⟨rfl, rfl⟩
  | @decoded k => exact .inr ⟨k, rfl, or_changed hne⟩
  | _ => exact absurd rfl hne

theorem DecUnit.Reacts.stale_changed {d d' : DecUnit} (h : d.Reacts i d') (hne : d'.stale ≠ d.stale) :
    (i = .decStart ∧ d'.stale = false) ∨ ∃ k, i = .decCode k ∧ d'.stale = true := by
  cases h with
  | started => exact .inl ⟨rfl, rfl⟩
  | @decoded k => exact .inr ⟨k, rfl, or_changed hne⟩
  | _ => exact absurd rfl hne

theorem PackUnit.Reacts.hold_changed {p p' : PackUnit} (h : p.Reacts i p') (hne : p'.hold ≠ p.hold) :
    ((i = .packStart ∨ i = .packEnd) ∧ p'.hold = false) ∨ ∃ k, i = .packCode k := by
  cases h with
  | started => exact .inl ⟨.inl rfl, rfl⟩
  | endedOdd => exact .inl ⟨.inr rfl, rfl⟩
  | @evenCode k | @oddCode k => exact .inr ⟨k, rfl⟩
  | _ => exact absurd rfl hne

end

/-- Settles O46: of all that an instruction can do to a unit, only what R29 names writes a flag. -/
theorem flagsChangeOnlyAsTheSpecSays : Obligations.FlagsChangeOnlyAsTheSpecSays := by
  refine ⟨fun i s t h => ⟨fun u => exec_done_changed h, (exec_dec_reacts h).anom_changed,
    (exec_dec_reacts h).stale_changed, (exec_pack_reacts h).hold_changed⟩, fun s t h => ?_⟩
  cases h
  exact ⟨fun u => by rw [State.ctl_hardwareReset]; rfl, rfl, rfl, rfl⟩

end Sys2Proof.Machine
end

section
/-! Proofs about the invariant: what every instruction and every move keeps (10_state.md R30 to R32,
40_dictionary.md R111, 41_encoder.md R126, 42_decoder.md R154). -/

namespace Sys2Proof.Machine

/-! ### The common fields -/

/-- Between two values of the common fields no phase of a run begins: the phase stays, or is IDLE or FAULT. -/
def Ctl.NoRunBegins (c c' : Ctl) : Prop := c'.phase = c.phase ∨ c'.phase = .idle ∨ c'.phase = .fault

theorem Ctl.raise_noRunBegins (c : Ctl) (k : FaultKind) (w : Word) : c.NoRunBegins (c.raise k w) :=
  .inr (.inr rfl)

theorem Ctl.finish_noRunBegins (c : Ctl) : c.NoRunBegins c.finish := .inr (.inl rfl)

theorem Ctl.takeIllegal_noRunBegins (c : Ctl) (e : DecodeError) (w : Word) :
    c.NoRunBegins (c.takeIllegal e w) := by
  rcases c.takeIllegal_cases e w with ⟨-, heq⟩ | ⟨-, heq⟩ <;> rw [heq]
  · exact .inl rfl
  · exact c.raise_noRunBegins _ w

/-- A phase of a run that stands after was there before. -/
theorem Ctl.NoRunBegins.phase_eq {c c' : Ctl} (h : c.NoRunBegins c') {ph : Phase} (hph : c'.phase = ph)
    (hrun : ph = .run ∨ ph = .opened) : c.phase = ph := by
  rcases h with h | h | h
  · exact h.symm.trans hph
  all_goals rcases hrun with rfl | rfl <;> simp [h] at hph

theorem mem_recordableBy_of_common {k : FaultKind} (h : k ∈ commonFaults) (u : UnitId) : k ∈ recordableBy u := by
  cases u with
  | enc | pack => exact h
  | dec | unpk => exact List.mem_append_left _ h

theorem illegalKind_mem (e : DecodeError) (u : UnitId) : illegalKind e ∈ recordableBy u := by
  refine mem_recordableBy_of_common ?_ u
  cases e <;> decide

theorem sequence_mem (u : UnitId) : FaultKind.sequence ∈ recordableBy u :=
  mem_recordableBy_of_common (by decide) u

section
variable {u : UnitId} {c : Ctl}

theorem CtlInv.reset (u : UnitId) : CtlInv u Ctl.reset where
  record := nofun
  noRecord _ := ⟨rfl, rfl, rfl⟩
  doneAfterEnd := nofun

theorem CtlInv.raise {k : FaultKind} (hk : k ∈ recordableBy u) (c : Ctl) (w : Word) : CtlInv u (c.raise k w) where
  record _ := ⟨k, hk, rfl, rfl⟩
  noRecord hph := absurd rfl hph
  doneAfterEnd _ := .inr rfl

theorem CtlInv.restart (u : UnitId) (c : Ctl) {ph : Phase} (hph : ph ≠ .fault) : CtlInv u (c.restart ph) where
  record h := absurd h hph
  noRecord _ := ⟨rfl, rfl, rfl⟩
  doneAfterEnd := nofun

theorem CtlInv.finish (h : CtlInv u c) (hph : c.phase ≠ .fault) : CtlInv u c.finish where
  record := nofun
  noRecord _ := h.noRecord hph
  doneAfterEnd _ := .inl rfl

/-- The first data command of a run takes its unit from OPEN to RUN. -/
theorem CtlInv.run_of_opened (h : CtlInv u c) (hph : c.phase = .opened) : CtlInv u { c with phase := .run } where
  record := nofun
  noRecord _ := h.noRecord (by simp [hph])
  doneAfterEnd hdone := by simpa [hph] using h.doneAfterEnd hdone

theorem CtlInv.withCmdq (h : CtlInv u c) (q : List Word) : CtlInv u { c with cmdq := q } where
  record := h.record
  noRecord := h.noRecord
  doneAfterEnd := h.doneAfterEnd

theorem CtlInv.takeIllegal (h : CtlInv u c) (e : DecodeError) (w : Word) : CtlInv u (c.takeIllegal e w) := by
  rcases c.takeIllegal_cases e w with ⟨-, heq⟩ | ⟨-, heq⟩ <;> rw [heq]
  · exact h
  · exact .raise (illegalKind_mem e u) c w

end

/-! ### The synchronizer -/

section
variable {y : Sync} {p : Code} {c : Byte}

theorem SyncInv.reset : SyncInv Sync.reset where
  low := by decide
  high := by decide
  entries := rfl

theorem SyncInv.start (y : Sync) : SyncInv y.start where
  low := by simp
  high := by simp
  entries := rfl

theorem SyncInv.nextAsCode_toNat (h : SyncInv y) : y.nextAsCode.toNat = y.nextCode.toNat := by
  have := h.high
  simp only [Sync.nextAsCode, BitVec.toNat_setWidth]
  omega

theorem SyncInv.overflow_eq_false (h : SyncInv y) : y.overflow = false := by
  have := h.high
  rw [← Bool.not_eq_true, Sync.overflow_iff]
  omega

/-- SyncInsert between steps: it counts on and puts its entry first, or at 4095 it resets the epoch. -/
theorem SyncInv.insert_cases (h : SyncInv y) (p : Code) (c : Byte) :
    (y.nextCode.toNat < 4095 ∧ (y.insert p c).nextCode.toNat = y.nextCode.toNat + 1 ∧
      (y.insert p c).epoch = y.epoch ∧ (y.insert p c).dict = ⟨y.nextAsCode, p, c⟩ :: y.dict) ∨
    (y.nextCode.toNat = 4095 ∧ (y.insert p c).nextCode.toNat = 256 ∧
      (y.insert p c).epoch ≠ y.epoch ∧ (y.insert p c).dict = []) := by
  have hhigh := h.high
  rcases y.insert_cases p c with ⟨hne, hn, he, hd⟩ | ⟨heq, hn, he, hd⟩
  · refine .inl ⟨?_, ?_, he, ?_⟩
    · bv_omega
    · rw [hn]; bv_omega
    · rw [hd, insertEntry_of_boundBelow p c (h.nextAsCode_toNat ▸ h.entries)]
  · refine .inr ⟨by bv_omega, by rw [hn]; rfl, ?_, hd⟩
    rw [he]
    bv_omega

/-- An insertion that extends a bound code keeps the codes bound from 256 to next_code − 1. -/
theorem SyncInv.insert (h : SyncInv y) (hp : p.toNat < y.nextCode.toNat) (c : Byte) : SyncInv (y.insert p c) := by
  have hlow := h.low
  rcases h.insert_cases p c with ⟨hlt, hn, -, hd⟩ | ⟨-, hn, -, hd⟩
  · refine ⟨by omega, by omega, ?_⟩
    rw [hd, hn]
    exact ⟨by rw [h.nextAsCode_toNat], by rwa [h.nextAsCode_toNat], h.nextAsCode_toNat ▸ h.entries⟩
  · refine ⟨by omega, by omega, ?_⟩
    rw [hd, hn]
    rfl

/-- A key that lookup does not find is no entry's. -/
theorem lookup_none {d : List DictEntry} (h : lookup d p c = none) : ∀ e ∈ d, ¬(p = e.pre ∧ c = e.last) := by
  induction d with
  | nil => nofun
  | cons e rest ih =>
    rw [lookup] at h
    split at h
    · cases h
    next hne =>
      rintro f hf ⟨rfl, rfl⟩
      rcases List.mem_cons.mp hf with rfl | hf
      · exact hne ⟨rfl, rfl⟩
      · exact ih h f hf ⟨rfl, rfl⟩

/-- ENC inserts a key only when lookup did not find it. -/
theorem SyncInv.insert_keysDistinct (h : SyncInv y) (hkeys : keysDistinct y.dict)
    (hfresh : lookup y.dict p c = none) : keysDistinct (y.insert p c).dict := by
  rcases h.insert_cases p c with ⟨-, -, -, hd⟩ | ⟨-, -, -, hd⟩ <;> rw [hd]
  · exact List.pairwise_cons.mpr ⟨lookup_none hfresh, hkeys⟩
  · exact List.Pairwise.nil

end

/-! ### ENC -/

theorem byteCode_lt (c : Byte) : (byteCode c).toNat < 256 := by
  have := c.isLt
  simp only [byteCode, BitVec.toNat_setWidth]
  omega

namespace EncInv
variable {e e' : EncUnit}

theorem reset : EncInv EncUnit.reset where
  ctl := .reset _
  sync := .reset
  keys := .nil
  wBound := nofun
  fresh := nofun

/-- The invariant of ENC outside of a run's own work: the dictionary and `w` stay, and no run begins. -/
theorem of_noRunBegins (h : EncInv e) (hctl : CtlInv .enc e'.ctl) (hph : e.ctl.NoRunBegins e'.ctl)
    (hsync : e'.sync = e.sync := by rfl) (hw : e'.w = e.w := by rfl) : EncInv e' where
  ctl := hctl
  sync := hsync ▸ h.sync
  keys := hsync ▸ h.keys
  wBound hrun := by
    rw [hw, hsync]
    exact h.wBound (hph.phase_eq hrun (.inl rfl))
  fresh hopen := by
    rw [hsync]
    exact h.fresh (hph.phase_eq hopen (.inr rfl))

theorem fault (h : EncInv e) {k : FaultKind} (hk : k ∈ recordableBy .enc) (w : Word) : EncInv (e.fault k w) :=
  h.of_noRunBegins (.raise hk _ _) (Ctl.raise_noRunBegins ..)

theorem start (e : EncUnit) : EncInv e.start where
  ctl := .restart _ _ (by decide)
  sync := .start _
  keys := .nil
  wBound := nofun
  fresh _ := rfl

theorem firstByteIn (h : EncInv e) (hph : e.ctl.phase = .opened) (c : Byte) : EncInv (e.firstByteIn c) where
  ctl := h.ctl.run_of_opened hph
  sync := h.sync
  keys := h.keys
  wBound _ := (byteCode_lt c).trans_le h.sync.low
  fresh := nofun

/-- 41_encoder.md R126 for a longer match. -/
theorem extended (h : EncInv e) (hph : e.ctl.phase = .run) {c : Byte} {x : Code}
    (hlookup : lookup e.sync.dict e.w c = some x) (n : Word) : EncInv { e with inBytes := n, w := x } where
  ctl := h.ctl
  sync := h.sync
  keys := h.keys
  wBound _ := (h.sync.entries.mem (lookup_some hlookup)).2.1
  fresh hopen := by simp [hph] at hopen

/-- 41_encoder.md R126 for an emitted code and the insertion that goes with it. -/
theorem emitted (h : EncInv e) (hph : e.ctl.phase = .run) {c : Byte} (hlookup : lookup e.sync.dict e.w c = none)
    (q : List (Item 12)) (n m : Word) :
    EncInv { e with inBytes := n, oq := q, outCodes := m, sync := e.sync.insert e.w c, w := byteCode c } where
  ctl := h.ctl
  sync := h.sync.insert (h.wBound hph) c
  keys := h.sync.insert_keysDistinct h.keys hlookup
  wBound _ := (byteCode_lt c).trans_le (h.sync.insert (h.wBound hph) c).low
  fresh hopen := by simp [hph] at hopen

theorem reacts (h : EncInv e) {i : Instr} (hr : e.Reacts i e') : EncInv e' := by
  cases hr with
  | other | refused | dropped => exact h
  | started => exact start e
  | outOfSequence => exact h.fault (sequence_mem _) _
  | firstByte hph => exact h.firstByteIn hph _
  | extended hph hlookup => exact h.extended hph hlookup _
  | overflowed _ _ hover => simp [h.sync.overflow_eq_false] at hover
  | emitted hph hlookup => exact h.emitted hph hlookup _ _ _
  | endedEmpty hph | ended hph => exact h.of_noRunBegins (h.ctl.finish (by simp [hph])) (Ctl.finish_noRunBegins _)

end EncInv

/-! ### DEC -/

namespace DecInv
variable {d d' : DecUnit}

theorem reset : DecInv DecUnit.reset where
  ctl := .reset _
  sync := .reset
  priorBound := nofun
  staleUnbound := nofun
  fresh := nofun

/-- The invariant of DEC outside of a run's own work: dictionary, `prior` and flags stay, and no run begins. -/
theorem of_noRunBegins (h : DecInv d) (hctl : CtlInv .dec d'.ctl) (hph : d.ctl.NoRunBegins d'.ctl)
    (hsync : d'.sync = d.sync := by rfl) (hprior : d'.prior = d.prior := by rfl)
    (hstale : d'.stale = d.stale := by rfl) (hanom : d'.anom = d.anom := by rfl) : DecInv d' where
  ctl := hctl
  sync := hsync ▸ h.sync
  priorBound hrun hfalse := by
    rw [hprior, hsync]
    exact h.priorBound (hph.phase_eq hrun (.inl rfl)) (hstale ▸ hfalse)
  staleUnbound htrue := by
    rw [hprior, hsync]
    exact h.staleUnbound (hstale ▸ htrue)
  fresh hopen := by
    rw [hsync, hstale, hanom]
    exact h.fresh (hph.phase_eq hopen (.inr rfl))

theorem fault (h : DecInv d) {k : FaultKind} (hk : k ∈ recordableBy .dec) (w : Word) : DecInv (d.fault k w) :=
  h.of_noRunBegins (.raise hk _ _) (Ctl.raise_noRunBegins ..)

theorem start (d : DecUnit) : DecInv d.start where
  ctl := .restart _ _ (by decide)
  sync := .start _
  priorBound := nofun
  staleUnbound := nofun
  fresh _ := ⟨rfl, rfl, rfl⟩

theorem firstCode (h : DecInv d) (hph : d.ctl.phase = .opened) {k : Operand} (hk : k.toNat < 256)
    (q : List (Item 8)) (n m : Word) :
    DecInv { d with oq := q, prior := operandCode k, inCodes := n, outBytes := m,
                    ctl := { d.ctl with phase := .run } } where
  ctl := h.ctl.run_of_opened hph
  sync := h.sync
  priorBound _ _ := by
    have := h.sync.low
    rw [operandCode_toNat (by omega)]
    exact hk.trans_le this
  staleUnbound htrue := by
    obtain ⟨-, hfalse, -⟩ := h.fresh hph
    simp [hfalse] at htrue
  fresh := nofun

/-- The codeword is a bound code, or the code that this very step binds. -/
theorem codeword_le (h : DecInv d) {k : Operand} (hk : k.toNat ≤ 4095) :
    (d.codeword k).toNat ≤ d.sync.nextCode.toNat := by
  unfold DecUnit.codeword
  split
  next hbound =>
    rw [operandCode_toNat hk]
    exact ((d.sync.bound_iff _).mp hbound).le
  · exact h.sync.nextAsCode_toNat.le

/-- The step that decodes a code either counts on, and `prior` is bound, or resets the epoch, and `prior` is bound
only if it is a singleton; that is what STALE records (42_decoder.md R147, R154). -/
theorem decodeOne (h : DecInv d) (hph : d.ctl.phase = .run) {k : Operand} (hk : k.toNat ≤ 4095)
    (hstale : d.stale = false) : DecInv (d.decodeOne k) := by
  have hcw : (d.codeword k).toNat ≤ d.sync.nextCode.toNat := h.codeword_le hk
  have hprior : d.prior.toNat < d.sync.nextCode.toNat := h.priorBound hph hstale
  have hunbound : (d.decodeOne k).stale = true ↔
      (d.decodeOne k).sync.nextCode.toNat ≤ (d.codeword k).toNat := by
    simp only [DecUnit.decodeOne, staleAfter, hstale, Bool.false_or, Bool.and_eq_true, decide_eq_true_eq]
    rcases h.sync.insert_cases d.prior (d.codewordFirst k) with ⟨-, hn, he, -⟩ | ⟨-, hn, he, -⟩
    · rw [hn]
      simp only [he, ne_eq, not_true_eq_false, false_and, false_iff]
      omega
    · rw [hn]
      simp [he]
  exact
    { ctl := h.ctl
      sync := h.sync.insert hprior _
      priorBound := fun _ hfalse => by rwa [← Bool.not_eq_true, hunbound, not_le] at hfalse
      staleUnbound := hunbound.mp
      fresh := fun hopen => by simp [DecUnit.decodeOne, hph] at hopen }

theorem reacts (h : DecInv d) {i : Instr} (hr : d.Reacts i d') : DecInv d' := by
  cases hr with
  | other | refused | dropped => exact h
  | started => exact start d
  | outOfSequence => exact h.fault (sequence_mem _) _
  | outOfRange | firstUnbound | staled | endedEmpty => exact h.fault (by decide) _
  | firstCode hph hk => exact h.firstCode hph hk _ _ _
  | overflowed _ hover => simp [h.sync.overflow_eq_false] at hover
  | decoded hph hk hstale => exact h.decodeOne hph hk hstale
  | ended hph => exact h.of_noRunBegins (h.ctl.finish (by simp [hph])) (Ctl.finish_noRunBegins _)

end DecInv

/-! ### PACK -/

namespace PackInv
variable {p p' : PackUnit}

theorem reset : PackInv PackUnit.reset where
  ctl := .reset _
  neverOpen := by decide
  nibClear _ := rfl

theorem of_noRunBegins (h : PackInv p) (hctl : CtlInv .pack p'.ctl) (hph : p.ctl.NoRunBegins p'.ctl)
    (hnib : p'.hold = false → p'.nib = 0#4) : PackInv p' where
  ctl := hctl
  neverOpen hopen := h.neverOpen (hph.phase_eq hopen (.inr rfl))
  nibClear := hnib

theorem fault (h : PackInv p) {k : FaultKind} (hk : k ∈ recordableBy .pack) (w : Word) : PackInv (p.fault k w) :=
  h.of_noRunBegins (.raise hk _ _) (Ctl.raise_noRunBegins ..) h.nibClear

theorem start (p : PackUnit) : PackInv p.start where
  ctl := .restart _ _ (by decide)
  neverOpen := nofun
  nibClear _ := rfl

theorem reacts (h : PackInv p) {i : Instr} (hr : p.Reacts i p') : PackInv p' := by
  cases hr with
  | other | refused | dropped => exact h
  | started => exact start p
  | outOfSequence => exact h.fault (sequence_mem _) _
  | evenCode => exact h.of_noRunBegins h.ctl (.inl rfl) nofun
  | oddCode => exact h.of_noRunBegins h.ctl (.inl rfl) fun _ => rfl
  | endedEven hph =>
    exact h.of_noRunBegins (h.ctl.finish (by simp [hph])) (Ctl.finish_noRunBegins _) h.nibClear
  | endedOdd hph =>
    exact h.of_noRunBegins (h.ctl.finish (by simp [hph])) (Ctl.finish_noRunBegins _) fun _ => rfl

end PackInv

/-! ### UNPK -/

/-- The second byte of the last code ends the group, and its lower nibble is dropped (44_bitunpacker.md R178). -/
theorem UnpkUnit.byte1In_of_last {p : UnpkUnit} (b : Byte) (hlast : p.produced + 1#24 = p.expected) :
    p.byte1In b = { p with oq := emit p.oq [.data (unpackCode0 p.acc b)], produced := p.produced + 1#24,
                           inBytes := bump p.inBytes 1, acc := 0#8, pos := .byte0 } := by
  simp [UnpkUnit.byte1In, hlast]

/-- Below the last code the second byte's lower nibble is carried to the third byte (44_bitunpacker.md R178). -/
theorem UnpkUnit.byte1In_of_not_last {p : UnpkUnit} (b : Byte) (hlast : p.produced + 1#24 ≠ p.expected) :
    p.byte1In b = { p with oq := emit p.oq [.data (unpackCode0 p.acc b)], produced := p.produced + 1#24,
                           inBytes := bump p.inBytes 1, acc := carriedNibble b, pos := .byte2 } := by
  simp [UnpkUnit.byte1In, hlast]

theorem carriedNibble_le (b : Byte) : (carriedNibble b).toNat ≤ 15 := by
  have := (b.extractLsb' 0 4).isLt
  simp only [carriedNibble, BitVec.toNat_setWidth]
  omega

namespace UnpkInv
variable {p p' : UnpkUnit}

theorem reset : UnpkInv UnpkUnit.reset where
  ctl := .reset _
  neverOpen := by decide
  withinCount := le_rfl
  atByte0 _ := ⟨rfl, .inl rfl⟩
  atByte1 := nofun
  atByte2 := nofun

/-- The invariant of UNPK outside of a run's own work: count and group stay, and no run begins. -/
theorem of_noRunBegins (h : UnpkInv p) (hctl : CtlInv .unpk p'.ctl) (hph : p.ctl.NoRunBegins p'.ctl)
    (hexpected : p'.expected = p.expected := by rfl) (hproduced : p'.produced = p.produced := by rfl)
    (hpos : p'.pos = p.pos := by rfl) (hacc : p'.acc = p.acc := by rfl) : UnpkInv p' where
  ctl := hctl
  neverOpen hopen := h.neverOpen (hph.phase_eq hopen (.inr rfl))
  withinCount := by simpa only [hexpected, hproduced] using h.withinCount
  atByte0 := by simpa only [hexpected, hproduced, hpos, hacc] using h.atByte0
  atByte1 := by simpa only [hexpected, hproduced, hpos] using h.atByte1
  atByte2 := by simpa only [hexpected, hproduced, hpos, hacc] using h.atByte2

theorem fault (h : UnpkInv p) {k : FaultKind} (hk : k ∈ recordableBy .unpk) (w : Word) : UnpkInv (p.fault k w) :=
  h.of_noRunBegins (.raise hk _ _) (Ctl.raise_noRunBegins ..)

theorem start (p : UnpkUnit) (n : BitVec 24) : UnpkInv (p.start n) where
  ctl := .restart _ _ (by decide)
  neverOpen := nofun
  withinCount := Nat.zero_le _
  atByte0 _ := ⟨rfl, .inl rfl⟩
  atByte1 := nofun
  atByte2 := nofun

/-- A group begins only below the count, where an even number of codes has been produced. -/
theorem byte0 (h : UnpkInv p) (hpos : p.pos = .byte0) (hcount : p.produced ≠ p.expected) (b : Byte) (n : Word) :
    UnpkInv { p with acc := b, pos := .byte1, inBytes := n } := by
  obtain ⟨-, heven | hall⟩ := h.atByte0 hpos
  · have hlt : p.produced.toNat < p.expected.toNat :=
      lt_of_le_of_ne h.withinCount fun heq => hcount (BitVec.eq_of_toNat_eq heq)
    exact { ctl := h.ctl, neverOpen := h.neverOpen, withinCount := h.withinCount, atByte0 := nofun,
            atByte1 := fun _ => ⟨heven, hlt⟩, atByte2 := nofun }
  · exact absurd hall hcount

/-- Below the count one more code does not wrap `produced`. -/
theorem produced_succ (hlt : p.produced.toNat < p.expected.toNat) :
    (p.produced + 1#24).toNat = p.produced.toNat + 1 := by
  bv_omega

theorem byte1In (h : UnpkInv p) (hpos : p.pos = .byte1) (b : Byte) : UnpkInv (p.byte1In b) := by
  obtain ⟨heven, hlt⟩ := h.atByte1 hpos
  have hsucc := produced_succ hlt
  have hwithin : (p.produced + 1#24).toNat ≤ p.expected.toNat := by omega
  by_cases hlast : p.produced + 1#24 = p.expected
  · rw [UnpkUnit.byte1In_of_last b hlast]
    exact { ctl := h.ctl, neverOpen := h.neverOpen, withinCount := hwithin,
            atByte0 := fun _ => ⟨rfl, .inr hlast⟩, atByte1 := nofun, atByte2 := nofun }
  · have hne : (p.produced + 1#24).toNat ≠ p.expected.toNat := fun heq => hlast (BitVec.eq_of_toNat_eq heq)
    have hodd : (p.produced + 1#24).toNat % 2 = 1 := by omega
    rw [UnpkUnit.byte1In_of_not_last b hlast]
    exact { ctl := h.ctl, neverOpen := h.neverOpen, withinCount := hwithin, atByte0 := nofun, atByte1 := nofun,
            atByte2 := fun _ => ⟨carriedNibble_le b, hodd, lt_of_le_of_ne hwithin hne⟩ }

theorem byte2In (h : UnpkInv p) (hpos : p.pos = .byte2) (b : Byte) : UnpkInv (p.byte2In b) := by
  obtain ⟨-, hodd, hlt⟩ := h.atByte2 hpos
  have hsucc := produced_succ hlt
  have hwithin : (p.produced + 1#24).toNat ≤ p.expected.toNat := by omega
  have heven : (p.produced + 1#24).toNat % 2 = 0 := by omega
  exact { ctl := h.ctl, neverOpen := h.neverOpen, withinCount := hwithin,
          atByte0 := fun _ => ⟨rfl, .inl heven⟩,
          atByte1 := nofun, atByte2 := nofun }

theorem reacts (h : UnpkInv p) {i : Instr} (hr : p.Reacts i p') : UnpkInv p' := by
  cases hr with
  | other | refused | dropped => exact h
  | started => exact start p _
  | outOfSequence => exact h.fault (sequence_mem _) _
  | exceeded | truncated => exact h.fault (by decide) _
  | byte0 _ hpos hcount => exact h.byte0 hpos hcount _ _
  | byte1 _ hpos => exact h.byte1In hpos _
  | byte2 _ hpos => exact h.byte2In hpos _
  | ended hph => exact h.of_noRunBegins (h.ctl.finish (by simp [hph])) (Ctl.finish_noRunBegins _)

end UnpkInv

/-! ### The four units -/

/-- The units' part of the invariant: that of the queues and the pin is `Inv`'s own. -/
structure UnitsInv (s : State) : Prop where
  enc : EncInv s.enc
  dec : DecInv s.dec
  pack : PackInv s.pack
  unpk : UnpkInv s.unpk

namespace UnitsInv
variable {s t : State}

theorem ctl (h : UnitsInv s) (u : UnitId) : CtlInv u (s.ctl u) := by
  cases u with
  | enc => exact h.enc.ctl
  | dec => exact h.dec.ctl
  | pack => exact h.pack.ctl
  | unpk => exact h.unpk.ctl

theorem setCtl (h : UnitsInv s) {u : UnitId} {c : Ctl} (hc : CtlInv u c) (hph : (s.ctl u).NoRunBegins c) :
    UnitsInv (s.setCtl u c) := by
  cases u with
  | enc => exact { h with enc := h.enc.of_noRunBegins hc hph }
  | dec => exact { h with dec := h.dec.of_noRunBegins hc hph }
  | pack => exact { h with pack := h.pack.of_noRunBegins hc hph h.pack.nibClear }
  | unpk => exact { h with unpk := h.unpk.of_noRunBegins hc hph }

theorem setCmdq (h : UnitsInv s) (u : UnitId) (q : List Word) : UnitsInv (s.setCmdq u q) :=
  h.setCtl ((h.ctl u).withCmdq q) (.inl rfl)

theorem take (h : UnitsInv s) (u : UnitId) (k : Nat) : UnitsInv (s.take u k) := by
  cases u with
  | enc => exact { h with enc := h.enc.of_noRunBegins h.enc.ctl (.inl rfl) }
  | dec => exact { h with dec := h.dec.of_noRunBegins h.dec.ctl (.inl rfl) }
  | pack => exact { h with pack := h.pack.of_noRunBegins h.pack.ctl (.inl rfl) h.pack.nibClear }
  | unpk => exact { h with unpk := h.unpk.of_noRunBegins h.unpk.ctl (.inl rfl) }

theorem exec (h : UnitsInv s) {i : Instr} (hexec : exec i s = .next t) : UnitsInv t where
  enc := h.enc.reacts (exec_enc_reacts hexec)
  dec := h.dec.reacts (exec_dec_reacts hexec)
  pack := h.pack.reacts (exec_pack_reacts hexec)
  unpk := h.unpk.reacts (exec_unpk_reacts hexec)

theorem execWord (h : UnitsInv s) {u : UnitId} {w : Word} (hexec : execWord u w s = .next t) : UnitsInv t := by
  rcases execWord_cases u w s with ⟨i, -, heq⟩ | ⟨e, -, heq⟩ <;> rw [heq] at hexec
  · exact h.exec hexec
  · cases hexec
    exact h.setCtl ((h.ctl u).takeIllegal e w) (Ctl.takeIllegal_noRunBegins ..)

end UnitsInv

/-! ### What an executed word leaves unchanged, and what it emits -/

section
variable {u : UnitId} {w : Word} {s t : State}

theorem execWord_rstN (h : execWord u w s = .next t) : t.rstN = s.rstN := by
  rcases execWord_cases u w s with ⟨i, -, heq⟩ | ⟨e, -, heq⟩ <;> rw [heq] at h
  · exact exec_rstN h
  · cases h
    exact s.rstN_setCtl u _

theorem execWord_params (h : execWord u w s = .next t) : t.params = s.params := by
  rcases execWord_cases u w s with ⟨i, -, heq⟩ | ⟨e, -, heq⟩ <;> rw [heq] at h
  · exact exec_params h
  · cases h
    exact s.params_setCtl u _

theorem Ctl.takeIllegal_cmdq (c : Ctl) (e : DecodeError) (w : Word) : (c.takeIllegal e w).cmdq = c.cmdq := by
  rcases c.takeIllegal_cases e w with ⟨-, heq⟩ | ⟨-, heq⟩ <;> rw [heq]
  rfl

theorem execWord_cmdq (h : execWord u w s = .next t) (v : UnitId) : (t.ctl v).cmdq = (s.ctl v).cmdq := by
  rcases execWord_cases u w s with ⟨i, -, heq⟩ | ⟨e, -, heq⟩ <;> rw [heq] at h
  · exact exec_cmdq h v
  · cases h
    by_cases hv : v = u
    · subst hv
      rw [State.takeIllegal, State.ctl_setCtl_self, Ctl.takeIllegal_cmdq]
    · rw [State.takeIllegal, State.ctl_setCtl_ne s _ hv]

/-- A word adds to its unit's output queue what 45_common.md R193 counts, and nothing to another's. -/
theorem execWord_oqLen (h : execWord u w s = .next t) (v : UnitId) :
    t.oqLen v = s.oqLen v + if v = u then s.noutWord u w else 0 := by
  rcases execWord_cases u w s with ⟨i, hdec, heq⟩ | ⟨e, hdec, heq⟩ <;> rw [heq] at h
  · rw [exec_oqLen h v, State.noutWord, hdec]
    rcases (wellFormed_cmd_iff u i).mp (wellFormed_of_decodeCmd hdec) with rfl | hu
    · simp [Instr.unit?, nout]
    · simp only [hu, Option.some.injEq, eq_comm]
  · cases h
    simp [State.takeIllegal, State.noutWord, hdec]

theorem nout_setCmdq (i : Instr) (s : State) (u : UnitId) (q : List Word) : nout i (s.setCmdq u q) = nout i s := by
  cases i <;> cases u <;> rfl

theorem State.noutWord_setCmdq (s : State) (u v : UnitId) (q : List Word) (w : Word) :
    (s.setCmdq u q).noutWord v w = s.noutWord v w := by
  simp only [State.noutWord, nout_setCmdq]

end

/-! ### The moves -/

namespace Inv
variable {s t : State}

theorem units (h : Inv s) : UnitsInv s := ⟨h.enc, h.dec, h.pack, h.unpk⟩

/-- While rst_n is high the invariant speaks of the units and the queue levels only. -/
theorem of_units (hunits : UnitsInv t) (hr : t.rstN = true)
    (hcmdq : ∀ u, (t.ctl u).cmdq.length ≤ t.params.cmdqDepth) (hoq : ∀ u, t.oqLen u ≤ t.params.oqDepth u) :
    Inv t where
  enc := hunits.enc
  dec := hunits.dec
  pack := hunits.pack
  unpk := hunits.unpk
  cmdqBound := hcmdq
  oqBound := hoq
  inReset hlow := by simp [hr] at hlow

theorem hardwareReset (s : State) : Inv s.hardwareReset where
  enc := .reset
  dec := .reset
  pack := .reset
  unpk := .reset
  cmdqBound u := by simp [Ctl.reset]
  oqBound u := by simp
  inReset _ := ⟨rfl, rfl, rfl, rfl⟩

theorem reset : Inv State.reset :=
  of_units ⟨.reset, .reset, .reset, .reset⟩ rfl (fun u => by cases u <;> exact Nat.zero_le _)
    (fun u => by cases u <;> exact Nat.zero_le _)

theorem deassertReset (h : Inv s) : Inv { s with rstN := true } :=
  of_units ⟨h.enc, h.dec, h.pack, h.unpk⟩ rfl h.cmdqBound h.oqBound

/-- The host's side is no part of the invariant. -/
theorem withHost (h : Inv s) (x : HostSide) : Inv { s with host := x } :=
  { h with cmdqBound := h.cmdqBound, oqBound := h.oqBound }

theorem acceptWord (h : Inv s) {u : UnitId} (hen : s.acceptEnabled u = true) : Inv (s.acceptWord u) := by
  obtain ⟨hr, hroom, -⟩ := (s.acceptEnabled_iff u).mp hen
  unfold State.acceptWord
  split
  · exact h
  next w ws _ =>
    refine withHost (of_units (h.units.setCmdq u _) (by simp [hr]) (fun v => ?_) (fun v => ?_)) _
    · by_cases hv : v = u
      · subst hv
        simpa using hroom
      · simpa [State.ctl_setCmdq_ne s _ hv] using h.cmdqBound v
    · simpa using h.oqBound v

theorem take (h : Inv s) (hr : s.rstN = true) (u : UnitId) (k : Nat) : Inv (s.take u k) := by
  refine of_units (h.units.take u k) (by simp [hr]) (fun v => by simpa using h.cmdqBound v) (fun v => ?_)
  rw [State.params_take]
  by_cases hv : v = u
  · subst hv
    rw [State.oqLen_take_self]
    exact (Nat.sub_le ..).trans (h.oqBound v)
  · rw [State.oqLen_take_ne s k hv]
    exact h.oqBound v

/-- The hold rule keeps the output queue within its depth (10_state.md R31, 45_common.md R193). -/
theorem runUnit (h : Inv s) {u : UnitId} (hrun : runUnit u s = .next t) : Inv t := by
  rcases runUnit_cases u s with ⟨-, heq⟩ | ⟨w, ws, hq, hr, hroom, heq⟩ <;> rw [heq] at hrun
  · cases hrun
    exact h
  · refine of_units ((h.units.setCmdq u ws).execWord hrun) (by simp [execWord_rstN hrun, hr])
      (fun v => ?_) (fun v => ?_)
    · rw [execWord_cmdq hrun v, execWord_params hrun, State.params_setCmdq]
      by_cases hv : v = u
      · subst hv
        have := h.cmdqBound v
        rw [hq, List.length_cons] at this
        simp only [State.ctl_setCmdq_self]
        omega
      · rw [State.ctl_setCmdq_ne s _ hv]
        exact h.cmdqBound v
    · rw [execWord_oqLen hrun v, execWord_params hrun, State.params_setCmdq, State.oqLen_setCmdq,
        State.noutWord_setCmdq]
      split
      next hv => exact hv ▸ (s.hasRoom_iff u w).mp hroom
      · exact h.oqBound v

theorem doMove (h : Inv s) {m : Move} (hm : doMove m s = .next t) : Inv t := by
  cases m with
  | accept u =>
    cases hm
    split
    next hen => exact h.acceptWord hen
    · exact h
  | drain u =>
    cases hm
    split
    next hen => exact h.take ((s.outValid_iff u).mp hen).1 u 1
    · exact h
  | csrRead a => cases hm; exact h.withHost _
  | assertReset => cases hm; exact hardwareReset s
  | deassertReset => cases hm; exact h.deassertReset
  | unitStep u => exact h.runUnit hm

end Inv

/-- Settles O16: the reset values of each unit meet its invariant. -/
theorem invariantHoldsAtReset : Obligations.InvariantHoldsAtReset :=
  ⟨.reset, rfl, rfl, rfl, rfl, rfl, rfl, rfl⟩

/-- Settles O40: a step is a move or nothing, and every move keeps the invariant. -/
theorem everyStepKeepsTheInvariant : Obligations.EveryStepKeepsTheInvariant := by
  intro s t h hstep
  rcases step_cases s with ⟨m, rest, -, heq⟩ | ⟨m, -, -, heq⟩ | ⟨-, -, heq⟩ <;> rw [heq] at hstep
  · exact (h.withHost _).doMove hstep
  · exact h.doMove hstep
  · cases hstep
    exact h

end Sys2Proof.Machine
end

section
/-! Proofs about the order of moves: a unit step reads and writes its own unit only, so two units' steps commute
(20_memory.md R73). -/

namespace Sys2Proof

/-- The type of a unit's fields (10_state.md R23 to R28). -/
def UnitId.Fields : UnitId → Type
  | .enc => Machine.EncUnit
  | .dec => Machine.DecUnit
  | .pack => Machine.PackUnit
  | .unpk => Machine.UnpkUnit

namespace Machine

namespace State

/-! ### One unit of the state -/

/-- The fields of unit `u`. -/
def unit (s : State) : (u : UnitId) → u.Fields
  | .enc => s.enc
  | .dec => s.dec
  | .pack => s.pack
  | .unpk => s.unpk

/-- `s` with the fields of unit `u` replaced. -/
def setUnit (s : State) : (u : UnitId) → u.Fields → State
  | .enc, x => { s with enc := x }
  | .dec, x => { s with dec := x }
  | .pack, x => { s with pack := x }
  | .unpk, x => { s with unpk := x }

@[simp] theorem setUnit_unit (s : State) (u : UnitId) : s.setUnit u (s.unit u) = s := by cases u <;> rfl
@[simp] theorem rstN_setUnit (s : State) (u : UnitId) (x : u.Fields) : (s.setUnit u x).rstN = s.rstN := by
  cases u <;> rfl
@[simp] theorem params_setUnit (s : State) (u : UnitId) (x : u.Fields) : (s.setUnit u x).params = s.params := by
  cases u <;> rfl
@[simp] theorem host_setUnit (s : State) (u : UnitId) (x : u.Fields) : (s.setUnit u x).host = s.host := by
  cases u <;> rfl

theorem unit_setUnit_ne (s : State) {u v : UnitId} (x : u.Fields) (h : v ≠ u) :
    (s.setUnit u x).unit v = s.unit v := by
  cases u <;> cases v <;> first | rfl | exact absurd rfl h

theorem setUnit_comm (s : State) {u v : UnitId} (h : u ≠ v) (x : u.Fields) (y : v.Fields) :
    (s.setUnit u x).setUnit v y = (s.setUnit v y).setUnit u x := by
  cases u <;> cases v <;> first | rfl | exact absurd rfl h

theorem setUnit_setCmdq (s : State) (u : UnitId) (q : List Word) (x : u.Fields) :
    (s.setCmdq u q).setUnit u x = s.setUnit u x := by cases u <;> rfl

/-! ### States that look alike to one unit -/

/-- `s` and `t` agree on all that Step(u) reads: the unit, the pin and the depths (45_common.md R192). -/
structure AgreesOn (u : UnitId) (s t : State) : Prop where
  unit : t.unit u = s.unit u
  rstN : t.rstN = s.rstN
  params : t.params = s.params

theorem AgreesOn.refl (u : UnitId) (s : State) : AgreesOn u s s := ⟨rfl, rfl, rfl⟩

theorem agreesOn_setUnit (s : State) {u v : UnitId} (x : u.Fields) (h : v ≠ u) : AgreesOn v s (s.setUnit u x) :=
  ⟨s.unit_setUnit_ne x h, s.rstN_setUnit u x, s.params_setUnit u x⟩

section
variable {u : UnitId} {s t : State}

theorem ctl_congr (h : t.unit u = s.unit u) : t.ctl u = s.ctl u := by
  cases u with
  | enc => exact congrArg EncUnit.ctl h
  | dec => exact congrArg DecUnit.ctl h
  | pack => exact congrArg PackUnit.ctl h
  | unpk => exact congrArg UnpkUnit.ctl h

theorem oqLen_congr (h : t.unit u = s.unit u) : t.oqLen u = s.oqLen u := by
  cases u with
  | enc => exact congrArg (fun e : EncUnit => e.oq.length) h
  | dec => exact congrArg (fun d : DecUnit => d.oq.length) h
  | pack => exact congrArg (fun p : PackUnit => p.oq.length) h
  | unpk => exact congrArg (fun p : UnpkUnit => p.oq.length) h

theorem unit_setCmdq_congr (h : t.unit u = s.unit u) (q : List Word) :
    (t.setCmdq u q).unit u = (s.setCmdq u q).unit u := by
  cases u with
  | enc => exact congrArg (fun e : EncUnit => { e with ctl := { e.ctl with cmdq := q } }) h
  | dec => exact congrArg (fun d : DecUnit => { d with ctl := { d.ctl with cmdq := q } }) h
  | pack => exact congrArg (fun p : PackUnit => { p with ctl := { p.ctl with cmdq := q } }) h
  | unpk => exact congrArg (fun p : UnpkUnit => { p with ctl := { p.ctl with cmdq := q } }) h

/-- What an instruction of `u` would emit is a function of that unit. -/
theorem nout_congr {i : Instr} (hi : i.wellFormed (.cmd u) = true) (h : t.unit u = s.unit u) :
    nout i t = nout i s := by
  rcases (wellFormed_cmd_iff u i).mp hi with rfl | hu
  · rfl
  · cases i with
    | nop | csrRead => cases hu
    | encStart | decStart | packStart | unpkStart => rfl
    | encByte c => cases hu; exact congrArg (fun e : EncUnit => e.noutByte c) h
    | encEnd => cases hu; exact congrArg EncUnit.noutEnd h
    | decCode k => cases hu; exact congrArg (fun d : DecUnit => d.noutCode k) h
    | decEnd => cases hu; exact congrArg DecUnit.noutEnd h
    | packCode | packEnd => cases hu; exact congrArg PackUnit.noutHold h
    | unpkByte => cases hu; exact congrArg UnpkUnit.noutByte h
    | unpkEnd => cases hu; exact congrArg UnpkUnit.noutEnd h

theorem noutWord_congr (h : t.unit u = s.unit u) (w : Word) : t.noutWord u w = s.noutWord u w := by
  unfold noutWord
  split
  next i hi => exact nout_congr (wellFormed_of_decodeCmd hi) h
  · rfl

theorem AgreesOn.stepEnabled (h : AgreesOn u s t) : t.stepEnabled u = s.stepEnabled u := by
  simp only [State.stepEnabled, hasRoom, ctl_congr h.unit, oqLen_congr h.unit, noutWord_congr h.unit, h.rstN,
    h.params]

end

end State

/-! ### What a unit's commands read and write -/

/-- A command of `u` is a function of that unit's fields. -/
theorem exec_local {u : UnitId} {i : Instr} (hi : i.wellFormed (.cmd u) = true) :
    ∃ f : u.Fields → u.Fields, ∀ s, exec i s = .next (s.setUnit u (f (s.unit u))) := by
  rcases (wellFormed_cmd_iff u i).mp hi with rfl | hu
  · exact ⟨id, fun s => by simp [exec_nop]⟩
  · cases i with
    | nop | csrRead => cases hu
    | encStart => cases hu; exact ⟨EncUnit.onStart, exec_encStart⟩
    | encByte c => cases hu; exact ⟨fun e : EncUnit => e.onByte c, exec_encByte c⟩
    | encEnd => cases hu; exact ⟨EncUnit.onEnd, exec_encEnd⟩
    | decStart => cases hu; exact ⟨DecUnit.onStart, exec_decStart⟩
    | decCode k => cases hu; exact ⟨fun d : DecUnit => d.onCode k, exec_decCode k⟩
    | decEnd => cases hu; exact ⟨DecUnit.onEnd, exec_decEnd⟩
    | packStart => cases hu; exact ⟨PackUnit.onStart, exec_packStart⟩
    | packCode k => cases hu; exact ⟨fun p : PackUnit => p.onCode k, exec_packCode k⟩
    | packEnd => cases hu; exact ⟨PackUnit.onEnd, exec_packEnd⟩
    | unpkStart n => cases hu; exact ⟨fun p : UnpkUnit => p.onStart n, exec_unpkStart n⟩
    | unpkByte b => cases hu; exact ⟨fun p : UnpkUnit => p.onByte b, exec_unpkByte b⟩
    | unpkEnd => cases hu; exact ⟨UnpkUnit.onEnd, exec_unpkEnd⟩

/-- So is an illegal word. -/
theorem State.takeIllegal_local (u : UnitId) (e : DecodeError) (w : Word) :
    ∃ f : u.Fields → u.Fields, ∀ s : State, s.takeIllegal u e w = s.setUnit u (f (s.unit u)) := by
  cases u with
  | enc => exact ⟨fun x : EncUnit => { x with ctl := x.ctl.takeIllegal e w }, fun _ => rfl⟩
  | dec => exact ⟨fun x : DecUnit => { x with ctl := x.ctl.takeIllegal e w }, fun _ => rfl⟩
  | pack => exact ⟨fun x : PackUnit => { x with ctl := x.ctl.takeIllegal e w }, fun _ => rfl⟩
  | unpk => exact ⟨fun x : UnpkUnit => { x with ctl := x.ctl.takeIllegal e w }, fun _ => rfl⟩

theorem execWord_local (u : UnitId) (w : Word) :
    ∃ f : u.Fields → u.Fields, ∀ s, execWord u w s = .next (s.setUnit u (f (s.unit u))) := by
  unfold execWord
  split
  next i hi => exact exec_local (wellFormed_of_decodeCmd hi)
  next e _ =>
    obtain ⟨f, hf⟩ := State.takeIllegal_local u e w
    exact ⟨f, fun s => congrArg _ (hf s)⟩

theorem runUnit_of_stepEnabled {u : UnitId} {s : State} {w : Word} {ws : List Word} (h : s.stepEnabled u = true)
    (hq : (s.ctl u).cmdq = w :: ws) : runUnit u s = execWord u w (s.setCmdq u ws) := by
  simp [runUnit, h, hq]

/-- Step(u) writes the same fields of `u`, and nothing else, in all states that agree on what it reads. -/
theorem runUnit_local (u : UnitId) (s : State) :
    ∃ x : u.Fields, ∀ t, State.AgreesOn u s t → runUnit u t = .next (t.setUnit u x) := by
  cases hen : s.stepEnabled u with
  | false =>
    refine ⟨s.unit u, fun t ht => ?_⟩
    rw [runUnit_of_not_stepEnabled (ht.stepEnabled.trans hen), ← ht.unit, State.setUnit_unit]
  | true =>
    obtain ⟨-, w, ws, hq, -⟩ := (s.stepEnabled_iff u).mp hen
    obtain ⟨f, hf⟩ := execWord_local u w
    refine ⟨f ((s.setCmdq u ws).unit u), fun t ht => ?_⟩
    have hqt : (t.ctl u).cmdq = w :: ws := by rw [State.ctl_congr ht.unit, hq]
    rw [runUnit_of_stepEnabled (ht.stepEnabled.trans hen) hqt, hf, State.unit_setCmdq_congr ht.unit,
      State.setUnit_setCmdq]

/-- A unit step writes its own unit only (10_state.md R20). -/
theorem runUnit_eq_setUnit {u : UnitId} {s t : State} (h : runUnit u s = .next t) :
    ∃ x : u.Fields, t = s.setUnit u x := by
  obtain ⟨x, hx⟩ := runUnit_local u s
  rw [hx s (.refl u s)] at h
  cases h
  exact ⟨x, rfl⟩

/-- Settles O43: what each step writes depends on nothing that the other writes. -/
theorem stepsOfTwoUnitsCommute : Obligations.StepsOfTwoUnitsCommute := by
  intro u v s huv
  obtain ⟨x, hx⟩ := runUnit_local u s
  obtain ⟨y, hy⟩ := runUnit_local v s
  calc andThen (runUnit u s) (runUnit v)
      = runUnit v (s.setUnit u x) := by rw [hx s (.refl u s), andThen]
    _ = .next ((s.setUnit u x).setUnit v y) := hy _ (s.agreesOn_setUnit x huv.symm)
    _ = .next ((s.setUnit v y).setUnit u x) := by rw [s.setUnit_comm huv]
    _ = runUnit u (s.setUnit v y) := (hx _ (s.agreesOn_setUnit y huv)).symm
    _ = andThen (runUnit v s) (runUnit u) := by rw [hy s (.refl v s), andThen]

end Machine

end Sys2Proof
end

section
/-! Proofs about the queues: no move but hardware reset loses or reorders an output item or a command word
(20_memory.md R71, R72; 70_reset_and_hazards.md R244). -/

namespace Sys2Proof

/-- The data width of a unit's output items (30_encoding.md R91). -/
def UnitId.itemWidth : UnitId → Nat
  | .enc => 12
  | .dec => 8
  | .pack => 8
  | .unpk => 12

namespace Machine

/-! ### The moves a step can make -/

/-- With hardware reset not scheduled, a step is another move or nothing: no reset comes of itself. -/
theorem step_eq_doMove {s t : State} (h : step s = .next t) (hr : s.host.schedule.head? ≠ some .assertReset) :
    (∃ l m, m ≠ .assertReset ∧ doMove m (s.setSchedule l) = .next t) ∨ t = s := by
  rcases step_cases s with ⟨m, rest, hs, heq⟩ | ⟨m, -, hm, heq⟩ | ⟨-, -, heq⟩ <;> rw [heq] at h
  · refine .inl ⟨rest, m, ?_, h⟩
    rintro rfl
    exact hr (by rw [hs, List.head?_cons])
  · refine .inl ⟨s.host.schedule, m, ?_, h⟩
    rintro rfl
    exact absurd (List.find?_some hm) Bool.false_ne_true
  · cases h
    exact .inr rfl

/-! ### Output items -/

/-- What the host has taken of u's output (log 7). -/
def HostSide.taken (x : HostSide) : (u : UnitId) → List (Item u.itemWidth)
  | .enc => x.encTaken
  | .dec => x.decTaken
  | .pack => x.packTaken
  | .unpk => x.unpkTaken

namespace State

/-- The output queue of unit `u` (10_state.md R23). -/
def oq (s : State) : (u : UnitId) → List (Item u.itemWidth)
  | .enc => s.enc.oq
  | .dec => s.dec.oq
  | .pack => s.pack.oq
  | .unpk => s.unpk.oq

/-- All of u's output, taken or still queued, in order. -/
def output (s : State) (u : UnitId) : List (Item u.itemWidth) := s.host.taken u ++ s.oq u

@[simp] theorem oq_setCmdq (s : State) (u v : UnitId) (q : List Word) : (s.setCmdq u q).oq v = s.oq v := by
  cases u <;> cases v <;> rfl

@[simp] theorem output_setSchedule (s : State) (l : List Move) (u : UnitId) :
    (s.setSchedule l).output u = s.output u := by cases u <;> rfl
@[simp] theorem output_setCmdq (s : State) (u v : UnitId) (q : List Word) :
    (s.setCmdq u q).output v = s.output v := by cases u <;> cases v <;> rfl
@[simp] theorem output_setOffered (s : State) (u v : UnitId) (q : List Word) :
    (s.setOffered u q).output v = s.output v := by cases v <;> rfl

/-- What the host takes from the head of a queue joins the end of what it has taken. -/
theorem output_take_self (s : State) (u : UnitId) (k : Nat) : (s.take u k).output u = s.output u := by
  have htaken : (s.take u k).host.taken u = s.host.taken u ++ (s.oq u).take k := by cases u <;> rfl
  have hoq : (s.take u k).oq u = (s.oq u).drop k := by cases u <;> rfl
  rw [output, output, htaken, hoq, List.append_assoc, List.take_append_drop]

theorem output_take_ne (s : State) {u v : UnitId} (k : Nat) (h : v ≠ u) : (s.take u k).output v = s.output v := by
  cases u <;> cases v <;> first | rfl | exact absurd rfl h

theorem output_acceptWord (s : State) (u v : UnitId) : (s.acceptWord u).output v = s.output v := by
  unfold acceptWord
  split
  · rfl
  · simp

end State

section
variable {i : Instr}

theorem EncUnit.Reacts.oq_prefix {e e' : EncUnit} (h : e.Reacts i e') : e.oq <+: e'.oq := by
  cases h with
  | emitted | endedEmpty | ended => exact List.prefix_append ..
  | _ => exact List.prefix_rfl

theorem DecUnit.Reacts.oq_prefix {d d' : DecUnit} (h : d.Reacts i d') : d.oq <+: d'.oq := by
  cases h with
  | firstCode | decoded | ended => exact List.prefix_append ..
  | _ => exact List.prefix_rfl

theorem PackUnit.Reacts.oq_prefix {p p' : PackUnit} (h : p.Reacts i p') : p.oq <+: p'.oq := by
  cases h with
  | evenCode | oddCode | endedEven | endedOdd => exact List.prefix_append ..
  | _ => exact List.prefix_rfl

theorem UnpkUnit.Reacts.oq_prefix {p p' : UnpkUnit} (h : p.Reacts i p') : p.oq <+: p'.oq := by
  cases h with
  | byte1 | byte2 | ended => exact List.prefix_append ..
  | _ => exact List.prefix_rfl

variable {s t : State}

/-- An instruction adds to the end of an output queue or leaves it (00_scope.md R15). -/
theorem exec_oq_prefix (h : exec i s = .next t) (u : UnitId) : s.oq u <+: t.oq u := by
  cases u with
  | enc => exact (exec_enc_reacts h).oq_prefix
  | dec => exact (exec_dec_reacts h).oq_prefix
  | pack => exact (exec_pack_reacts h).oq_prefix
  | unpk => exact (exec_unpk_reacts h).oq_prefix

theorem execWord_oq_prefix {u : UnitId} {w : Word} (h : execWord u w s = .next t) (v : UnitId) :
    s.oq v <+: t.oq v := by
  rcases execWord_cases u w s with ⟨i, -, heq⟩ | ⟨e, -, heq⟩ <;> rw [heq] at h
  · exact exec_oq_prefix h v
  · cases h
    cases u <;> cases v <;> exact List.prefix_rfl

theorem runUnit_host {u : UnitId} (h : runUnit u s = .next t) : t.host = s.host := by
  obtain ⟨x, rfl⟩ := runUnit_eq_setUnit h
  exact s.host_setUnit u x

theorem runUnit_output_prefix {u : UnitId} (h : runUnit u s = .next t) (v : UnitId) :
    s.output v <+: t.output v := by
  have hoq : s.oq v <+: t.oq v := by
    rcases runUnit_cases u s with ⟨-, heq⟩ | ⟨w, ws, -, -, -, heq⟩ <;> rw [heq] at h
    · cases h
      exact List.prefix_rfl
    · simpa using execWord_oq_prefix h v
  rw [State.output, State.output, runUnit_host h]
  exact (List.prefix_append_right_inj _).mpr hoq

/-- Drain moves an item from the queue to what was taken, a unit step adds at the end, and no other move but
hardware reset concerns the output. -/
theorem doMove_output_prefix {m : Move} (h : doMove m s = .next t) (hm : m ≠ .assertReset) (u : UnitId) :
    s.output u <+: t.output u := by
  cases m with
  | assertReset => exact absurd rfl hm
  | accept v =>
    cases h
    split
    · rw [State.output_acceptWord]
    · exact List.prefix_rfl
  | drain v =>
    cases h
    split
    · by_cases hu : u = v
      · rw [hu, State.output_take_self]
      · rw [State.output_take_ne s 1 hu]
    · exact List.prefix_rfl
  | csrRead a => cases h; cases u <;> exact List.prefix_rfl
  | deassertReset => cases h; cases u <;> exact List.prefix_rfl
  | unitStep v => exact runUnit_output_prefix h u

theorem step_output_prefix (h : step s = .next t) (hr : s.host.schedule.head? ≠ some .assertReset) (u : UnitId) :
    s.output u <+: t.output u := by
  rcases step_eq_doMove h hr with ⟨l, m, hm, hmove⟩ | rfl
  · simpa using doMove_output_prefix hmove hm u
  · exact List.prefix_rfl

end

/-- Settles O44: of the moves other than hardware reset, only drains and unit steps concern the output. -/
theorem noStepLosesAnItem : Obligations.NoStepLosesAnItem := fun _ _ h hr =>
  ⟨step_output_prefix h hr .enc, step_output_prefix h hr .dec, step_output_prefix h hr .pack,
    step_output_prefix h hr .unpk⟩

/-! ### Command words -/

/-- The words of unit `u` still to execute, in order: its command queue, then those the host holds on its port
(log 5). -/
def State.words (s : State) (u : UnitId) : List Word := (s.ctl u).cmdq ++ s.host.offered.get u

/-- From `s` to `t` the words of `u` stay, but for at most the head of its command queue, which executes. -/
def State.WordsInOrder (u : UnitId) (s t : State) : Prop :=
  t.words u = s.words u ∨
    ((s.ctl u).cmdq ≠ [] ∧ t.words u = (s.ctl u).cmdq.tail ++ s.host.offered.get u)

/-- An accepted word goes from the head of the offered words to the end of the queue. -/
theorem State.words_acceptWord (s : State) (u v : UnitId) : (s.acceptWord u).words v = s.words v := by
  unfold acceptWord
  split
  · rfl
  next w rest hoffered =>
    by_cases hv : v = u
    · subst hv
      simp [words, hoffered]
    · simp [words, ctl_setCmdq_ne s _ hv, PerUnit.get_set_ne _ _ hv]

section
variable {s t : State}

theorem runUnit_wordsInOrder {u : UnitId} (h : runUnit u s = .next t) (v : UnitId) : s.WordsInOrder v t := by
  have hoffered : t.host.offered = s.host.offered := by rw [runUnit_host h]
  rcases runUnit_cases u s with ⟨-, heq⟩ | ⟨w, ws, hq, -, -, heq⟩ <;> rw [heq] at h
  · cases h
    exact .inl rfl
  · have hcmdq := execWord_cmdq h v
    by_cases hv : v = u
    · subst hv
      exact .inr (by simp [State.words, hcmdq, hq, hoffered])
    · exact .inl (by simp [State.words, hcmdq, State.ctl_setCmdq_ne s _ hv, hoffered])

/-- Accept keeps a unit's words, a unit step removes the head of its own queue, and no other move but hardware
reset concerns them. -/
theorem doMove_wordsInOrder {m : Move} (h : doMove m s = .next t) (hm : m ≠ .assertReset) (u : UnitId) :
    s.WordsInOrder u t := by
  cases m with
  | assertReset => exact absurd rfl hm
  | accept v =>
    cases h
    split
    · exact .inl (s.words_acceptWord v u)
    · exact .inl rfl
  | drain v =>
    cases h
    split
    · exact .inl (by simp [State.words])
    · exact .inl rfl
  | csrRead a => cases h; exact .inl (by simp [State.words])
  | deassertReset => cases h; exact .inl (by cases u <;> rfl)
  | unitStep v => exact runUnit_wordsInOrder h u

end

/-- Settles O45: a step is a move, and every move but hardware reset keeps the words in order. -/
theorem commandsStayInOrder : Obligations.CommandsStayInOrder := by
  intro s t u h hr
  rcases step_eq_doMove h hr with ⟨l, m, hm, hmove⟩ | rfl
  · simpa [State.WordsInOrder, State.words] using doMove_wordsInOrder hmove hm u
  · exact .inl rfl

end Machine

end Sys2Proof
end

section
/-! Proofs about the command words: the decoder's checks in their order, the rows of the opcode map, and the round
trip between words and instructions (30_encoding.md R80 to R89, R96); no word or move stops the machine
(60_exceptions.md R200). -/

namespace Sys2Proof.Machine

/-! ### Operand fields -/

open BitVec in
/-- With no bit from `n` up set, the low `n` bits are the whole value. -/
theorem setWidth_extractLsb'_of_masked {w n : Nat} {o : BitVec w} (h : o &&& allOnes w <<< n = 0#w) :
    (o.extractLsb' 0 n).setWidth w = o := by
  ext i hi
  have hbit : (o &&& allOnes w <<< n)[i] = false := by simp [h]
  by_cases hn : i < n
  · simp [hn, getLsbD_eq_getElem hi]
  · have hoff : o[i] = false := by simpa [hi, hn] using hbit
    simp [hn, hoff]

open BitVec in
/-- A value of `n` bits, widened, has no bit from `n` up set. -/
theorem setWidth_and_allOnes_shiftLeft {w n : Nat} (x : BitVec n) : x.setWidth w &&& allOnes w <<< n = 0#w := by
  ext i hi
  by_cases hn : i < n
  · simp [hn]
  · simp [hn, getLsbD_of_ge x i (Nat.not_lt.mp hn)]

/-- The low bits of a widened value are the value. -/
theorem extractLsb'_setWidth_self {w n : Nat} (h : n ≤ w) (x : BitVec n) : (x.setWidth w).extractLsb' 0 n = x := by
  rw [BitVec.extractLsb'_setWidth_of_le (by omega), BitVec.extractLsb'_eq_self]

/-! ### Words and their fields -/

@[simp] theorem opcodeOf_encode (i : Instr) : opcodeOf (encode i) = i.opcode :=
  (Laws.WordLayout.append_fields i.opcode i.operand).1

@[simp] theorem operandOf_encode (i : Instr) : operandOf (encode i) = i.operand :=
  (Laws.WordLayout.append_fields i.opcode i.operand).2

/-- A word is its opcode above its operand (30_encoding.md R80). -/
theorem opcodeOf_append_operandOf (w : Word) : opcodeOf w ++ operandOf w = w :=
  (BitVec.extractLsb'_append_extractLsb'_eq_extractLsb' rfl).trans BitVec.extractLsb'_eq_self

theorem encode_eq_of_fields {i : Instr} {w : Word} (hop : i.opcode = opcodeOf w) (ho : i.operand = operandOf w) :
    encode i = w := by
  rw [encode, hop, ho, opcodeOf_append_operandOf]

/-- The upper half of a unit's opcodes names the unit (30_encoding.md R80). -/
theorem opcode_unit {i : Instr} {u : UnitId} (h : i.unit? = some u) : i.opcode.extractLsb' 4 4 = unitId u := by
  cases i <;> cases h
  all_goals
    dsimp only [Instr.opcode]
    rfl

/-! ### The rows of the opcode map -/

/-- The row that the decoder finds for an opcode. -/
def opcodeRow (op : BitVec 8) : Option OpRow := opcodeMap.find? (fun r => r.opcode == op)

theorem opcodeRow_eq_none_iff {op : BitVec 8} : opcodeRow op = none ↔ op ∉ definedOpcodes := by
  have hops : opcodeMap.map OpRow.opcode = definedOpcodes := rfl
  simp [opcodeRow, ← hops]

theorem opcodeRow_some {op : BitVec 8} {r : OpRow} (h : opcodeRow op = some r) : r ∈ opcodeMap ∧ r.opcode = op :=
  ⟨List.mem_of_find?_eq_some h, by simpa using List.find?_some h⟩

/-- The masks of the map are those of 30_encoding.md R89. -/
theorem opcodeMap_mbz : ∀ r ∈ opcodeMap, r.mbz = mbzMask r.opcode := by decide

theorem opcodeRow_mbz {op : BitVec 8} {r : OpRow} (h : opcodeRow op = some r) : r.mbz = mbzMask op := by
  obtain ⟨hr, rfl⟩ := opcodeRow_some h
  exact opcodeMap_mbz r hr

/-- What a row builds from an operand with no must-be-zero bit set has the row's opcode and that operand
(30_encoding.md R83). -/
theorem opcodeMap_build {r : OpRow} (hr : r ∈ opcodeMap) {o : Operand} (ho : o &&& r.mbz = 0#24) :
    (r.build o).opcode = r.opcode ∧ (r.build o).operand = o := by
  have hnone (h : o &&& 0xFFFFFF#24 = 0#24) : 0#24 = o := h.symm.trans BitVec.and_allOnes
  simp only [opcodeMap, List.mem_cons, List.not_mem_nil, or_false] at hr
  rcases hr with rfl | rfl | rfl | rfl | rfl | rfl | rfl | rfl | rfl | rfl | rfl | rfl | rfl
  iterate 2 exact ⟨rfl, hnone ho⟩
  · exact ⟨rfl, setWidth_extractLsb'_of_masked ho⟩
  iterate 2 exact ⟨rfl, hnone ho⟩
  · exact ⟨rfl, rfl⟩
  iterate 2 exact ⟨rfl, hnone ho⟩
  · exact ⟨rfl, setWidth_extractLsb'_of_masked ho⟩
  · exact ⟨rfl, hnone ho⟩
  · exact ⟨rfl, rfl⟩
  · exact ⟨rfl, setWidth_extractLsb'_of_masked ho⟩
  · exact ⟨rfl, hnone ho⟩

/-- The row of a command's opcode builds the command from its operand, in which no must-be-zero bit is set. -/
theorem opcodeRow_of_wellFormed {i : Instr} {u : UnitId} (hi : i.wellFormed (.cmd u) = true) :
    ∃ r, opcodeRow i.opcode = some r ∧ i.operand &&& r.mbz = 0#24 ∧ r.build i.operand = i := by
  cases i with
  | csrRead => cases hi
  | nop | encStart | encEnd | decStart | decEnd | packStart | packEnd | unpkEnd => exact ⟨_, rfl, rfl, rfl⟩
  | decCode | unpkStart => exact ⟨_, rfl, BitVec.and_zero, rfl⟩
  | encByte x | unpkByte x =>
    exact ⟨_, rfl, setWidth_and_allOnes_shiftLeft x, congrArg _ (extractLsb'_setWidth_self (by decide) x)⟩
  | packCode x =>
    exact ⟨_, rfl, setWidth_and_allOnes_shiftLeft x, congrArg _ (extractLsb'_setWidth_self (by decide) x)⟩

/-! ### The decoder's checks -/

section
variable {u : UnitId} {w : Word}

theorem decodeCmd_of_opcodeRow_none (h : opcodeRow (opcodeOf w) = none) :
    decodeCmd u w = .illegal .undefinedOpcode := by
  unfold opcodeRow at h
  simp [decodeCmd, h]

/-- With the opcode defined, the unit is checked before the operand (30_encoding.md R89). -/
theorem decodeCmd_of_opcodeRow {r : OpRow} (h : opcodeRow (opcodeOf w) = some r) :
    decodeCmd u w =
      if opcodeOf w ≠ 0x00#8 ∧ (opcodeOf w).extractLsb' 4 4 ≠ unitId u then .illegal .wrongUnit
      else if operandOf w &&& mbzMask (opcodeOf w) ≠ 0#24 then .illegal .operand
      else .cmd (r.build (operandOf w)) := by
  rw [← opcodeRow_mbz h]
  unfold opcodeRow at h
  simp only [decodeCmd, h]

/-- Every word is one of four things on a port. -/
theorem decodeCmd_cases (u : UnitId) (w : Word) :
    (opcodeOf w ∉ definedOpcodes ∧ decodeCmd u w = .illegal .undefinedOpcode) ∨
    (opcodeOf w ∈ definedOpcodes ∧ opcodeOf w ≠ 0x00#8 ∧ (opcodeOf w).extractLsb' 4 4 ≠ unitId u ∧
      decodeCmd u w = .illegal .wrongUnit) ∨
    (opcodeOf w ∈ definedOpcodes ∧ (opcodeOf w = 0x00#8 ∨ (opcodeOf w).extractLsb' 4 4 = unitId u) ∧
      operandOf w &&& mbzMask (opcodeOf w) ≠ 0#24 ∧ decodeCmd u w = .illegal .operand) ∨
    (opcodeOf w ∈ definedOpcodes ∧ (opcodeOf w = 0x00#8 ∨ (opcodeOf w).extractLsb' 4 4 = unitId u) ∧
      operandOf w &&& mbzMask (opcodeOf w) = 0#24 ∧ ∃ i, decodeCmd u w = .cmd i) := by
  cases hrow : opcodeRow (opcodeOf w) with
  | none => exact .inl ⟨opcodeRow_eq_none_iff.mp hrow, decodeCmd_of_opcodeRow_none hrow⟩
  | some r =>
    have hdef : opcodeOf w ∈ definedOpcodes := by
      by_contra hundef
      simp [opcodeRow_eq_none_iff.mpr hundef] at hrow
    right
    rw [decodeCmd_of_opcodeRow hrow]
    split
    next hother =>
      obtain ⟨hne, hunit⟩ := hother
      exact .inl ⟨hdef, hne, hunit, rfl⟩
    next hown =>
      have hunit : opcodeOf w = 0x00#8 ∨ (opcodeOf w).extractLsb' 4 4 = unitId u := by
        simpa only [not_and_or, not_not] using hown
      split
      next hmbz => exact .inr (.inl ⟨hdef, hunit, hmbz, rfl⟩)
      next hmbz => exact .inr (.inr ⟨hdef, hunit, not_not.mp hmbz, _, rfl⟩)

/-- No bit of a legal word is dropped (30_encoding.md R87). -/
theorem fields_of_decodeCmd {i : Instr} (h : decodeCmd u w = .cmd i) :
    i.opcode = opcodeOf w ∧ i.operand = operandOf w := by
  obtain ⟨r, hr, hop, -, hmbz, rfl⟩ := decodeCmd_cmd h
  rw [← hop]
  exact opcodeMap_build hr hmbz

theorem decodeCmd_encode {i : Instr} (hi : i.wellFormed (.cmd u) = true) : decodeCmd u (encode i) = .cmd i := by
  obtain ⟨r, hrow, hmbz, hbuild⟩ := opcodeRow_of_wellFormed hi
  have hunit : ¬(i.opcode ≠ 0x00#8 ∧ i.opcode.extractLsb' 4 4 ≠ unitId u) := by
    rintro ⟨hne, hother⟩
    rcases (wellFormed_cmd_iff u i).mp hi with rfl | hu
    · exact hne rfl
    · exact hother (opcode_unit hu)
  rw [decodeCmd_of_opcodeRow (by rwa [opcodeOf_encode]), opcodeOf_encode, operandOf_encode, ← opcodeRow_mbz hrow,
    if_neg hunit, if_neg (not_not.mpr hmbz), hbuild]

end

/-! ### Table words -/

theorem csrRead_or_command (i : Instr) :
    (∃ a, i = .csrRead a) ∨ (i.nbits = 32 ∧ ∃ u, i.wellFormed (.cmd u) = true) := by
  cases i with
  | csrRead a => exact .inl ⟨a, rfl⟩
  | nop | encStart | encByte | encEnd => exact .inr ⟨rfl, .enc, rfl⟩
  | decStart | decCode | decEnd => exact .inr ⟨rfl, .dec, rfl⟩
  | packStart | packCode | packEnd => exact .inr ⟨rfl, .pack, rfl⟩
  | unpkStart | unpkByte | unpkEnd => exact .inr ⟨rfl, .unpk, rfl⟩

/-- The unit field of a unit's command names its port (log 17). -/
theorem portOf_encode {i : Instr} {u : UnitId} (h : i.unit? = some u) : portOf (encode i) = u := by
  have hfield : (encode i).extractLsb' 28 4 = unitId u :=
    extractLsb'_append_add.trans (opcode_unit h)
  rw [portOf, hfield]
  cases u <;> rfl

theorem wellFormed_portOf_encode {i : Instr} {u : UnitId} (hi : i.wellFormed (.cmd u) = true) :
    i.wellFormed (.cmd (portOf (encode i))) = true := by
  rcases (wellFormed_cmd_iff u i).mp hi with rfl | hu
  · rfl
  · rwa [portOf_encode hu]

/-- The address of a CSR read is the low byte of its word (30_encoding.md R96). -/
theorem encode_csrRead_setWidth (a : BitVec 8) : (encode (.csrRead a)).setWidth 8 = a := by
  have hlow : (encode (.csrRead a)).setWidth 8 = (operandOf (encode (.csrRead a))).setWidth 8 := by
    ext i hi
    simp [operandOf, show i < 24 by omega]
  rw [hlow, operandOf_encode]
  simp [Instr.operand]

theorem decodeTableWord_encode (i : Instr) : decodeTableWord i.nbits (encode i).toNat = some i := by
  rcases csrRead_or_command i with ⟨a, rfl⟩ | ⟨hbits, u, hi⟩
  · exact congrArg (fun b => some (Instr.csrRead b)) (encode_csrRead_setWidth a)
  · simp [decodeTableWord, hbits, decodeCmd_encode (wellFormed_portOf_encode hi)]

/-- Settles O2: the row of an instruction's opcode passes the decoder's checks and builds the instruction. -/
theorem decodeOfEncodeIsTheInstruction : Obligations.DecodeOfEncodeIsTheInstruction := by
  refine ⟨fun u i hi => decodeCmd_encode hi, fun i hi => ?_, decodeTableWord_encode⟩
  cases i with
  | csrRead a => exact congrArg Instr.csrRead (encode_csrRead_setWidth a)
  | _ => cases hi

/-- Settles O3: a row builds an instruction with the word's two fields. -/
theorem decodedWordIsTheEncodingOfItsInstruction : Obligations.DecodedWordIsTheEncodingOfItsInstruction := by
  intro u w i h
  obtain ⟨hop, ho⟩ := fields_of_decodeCmd h
  exact ⟨encode_eq_of_fields hop ho, wellFormed_of_decodeCmd h⟩

/-- Settles O4: the four things a word can be exclude each other. -/
theorem everyWordDecodesInTheSpecsOrder : Obligations.EveryWordDecodesInTheSpecsOrder := by
  refine ⟨⟨rfl, rfl, rfl, rfl⟩, fun u w => ?_⟩
  rw [← and_assoc, ← and_assoc, ← and_assoc]
  refine ⟨?_, fun i h => fields_of_decodeCmd h⟩
  rcases decodeCmd_cases u w with ⟨hdef, heq⟩ | ⟨hdef, hne, hunit, heq⟩ | ⟨hdef, hunit, hmbz, heq⟩ |
    ⟨hdef, hunit, hmbz, i, heq⟩
  · simp [heq, hdef]
  · simp [heq, hdef, hne, hunit]
  · simpa [heq, hdef, hunit, hmbz] using or_iff_not_imp_left.mp hunit
  · simpa [heq, hdef, hunit, hmbz] using or_iff_not_imp_left.mp hunit

/-- What an illegal word does in a phase other than FAULT (60_exceptions.md R204). -/
theorem execWord_of_illegal {u : UnitId} {w : Word} {e : DecodeError} {s : State}
    (hdec : decodeCmd u w = .illegal e) (hph : (s.ctl u).phase ≠ .fault) :
    execWord u w s = .next (s.setCtl u ((s.ctl u).raise (illegalKind e) w)) := by
  rw [execWord, hdec]
  simp [State.takeIllegal, Ctl.takeIllegal, hph]

theorem not_undefinedRange_of_defined : ∀ op ∈ definedOpcodes, ¬undefinedRange op := by
  unfold undefinedRange
  decide

/-- Settles O5: each illegal word raises the fault that its failed check names. -/
theorem illegalWordFaultsWithItsDetail : Obligations.IllegalWordFaultsWithItsDetail := by
  intro u w s hph
  obtain ⟨-, hdecode⟩ := everyWordDecodesInTheSpecsOrder
  obtain ⟨hundefined, hwrongUnit, hoperand, -, -⟩ := hdecode u w
  refine ⟨fun hrange => execWord_of_illegal (hundefined.mpr fun hdef => ?_) hph,
    fun hdef hne hunit => execWord_of_illegal (hwrongUnit.mpr ⟨hdef, hne, hunit⟩) hph,
    fun hdef hunit hmbz => execWord_of_illegal (hoperand.mpr ⟨hdef, hunit, hmbz⟩) hph⟩
  exact not_undefinedRange_of_defined _ hdef hrange

/-! ### Every move answers a state -/

theorem State.params_acceptWord (s : State) (u : UnitId) : (s.acceptWord u).params = s.params := by
  unfold acceptWord
  split
  · rfl
  · simp

theorem doMove_answers (m : Move) (s : State) : ∃ t, doMove m s = .next t ∧ t.params = s.params := by
  cases m with
  | accept u =>
    refine ⟨_, rfl, ?_⟩
    split
    · exact s.params_acceptWord u
    · rfl
  | drain u =>
    refine ⟨_, rfl, ?_⟩
    split
    · exact s.params_take u 1
    · rfl
  | csrRead a => exact ⟨_, rfl, s.params_recordCsr a _⟩
  | assertReset => exact ⟨_, rfl, s.params_hardwareReset⟩
  | deassertReset => exact ⟨_, rfl, rfl⟩
  | unitStep u =>
    obtain ⟨x, hx⟩ := runUnit_local u s
    exact ⟨_, hx s (.refl u s), s.params_setUnit u x⟩

/-- Settles O41: a step is a move or nothing. -/
theorem everyStepAnswersAState : Obligations.EveryStepAnswersAState := by
  intro s
  rcases step_cases s with ⟨m, rest, -, heq⟩ | ⟨m, -, -, heq⟩ | ⟨-, -, heq⟩ <;> rw [heq]
  · exact doMove_answers m (s.setSchedule rest)
  · exact doMove_answers m s
  · exact ⟨s, rfl, rfl⟩

/-- Settles O1: the decoder is run on each word. -/
theorem writtenWordsDecodeToTheirInstructions : Obligations.WrittenWordsDecodeToTheirInstructions := by
  unfold Obligations.WrittenWordsDecodeToTheirInstructions
  decide

end Sys2Proof.Machine
end

section
/-! Proofs about the dictionary and the synchronizer: exact lookup, the symbols of bound codes, and the counting law
(40_dictionary.md R103 to R106, R111, R112). -/

namespace Sys2Proof.Machine

/-! ### The synchronizer -/

/-- Settles O34: whether the counter reaches 4096 decides between the two cases. -/
theorem syncInsertCountsAndResets : Obligations.SyncInsertCountsAndResets := by
  intro y p c
  refine ⟨fun hlt => if_neg ?_, fun heq => if_pos ?_⟩ <;> bv_omega

/-- `y` stands where `m` insertions after a start leave it (40_dictionary.md R112). -/
def Sync.CountsInserted (y : Sync) (m : Nat) : Prop :=
  y.nextCode.toNat = 256 + m % 3840 ∧ y.epoch = BitVec.ofNat 32 (m / 3840)

/-- One insertion is counted in `next_code`, and every 3840th one in `epoch`. -/
theorem Sync.CountsInserted.insert {y : Sync} {m : Nat} (h : y.CountsInserted m) (p : Code) (c : Byte) :
    (y.insert p c).CountsInserted (m + 1) := by
  obtain ⟨hnext, hepoch⟩ := h
  rcases y.insert_cases p c with ⟨hne, hn, he, -⟩ | ⟨heq, hn, he, -⟩
  · have hm : m % 3840 ≠ 3839 := by bv_omega
    refine ⟨?_, ?_⟩
    · rw [hn]
      bv_omega
    · rw [he, hepoch]
      congr 1
      omega
  · have hm : m % 3840 = 3839 := by bv_omega
    have hdiv : (m + 1) / 3840 = m / 3840 + 1 := by omega
    refine ⟨?_, ?_⟩
    · rw [hn]
      bv_omega
    · rw [he, hepoch, hdiv, BitVec.ofNat_add]

theorem Sync.CountsInserted.insertAll {y : Sync} {m : Nat} (h : y.CountsInserted m) (es : List (Code × Byte)) :
    (insertAll y es).CountsInserted (m + es.length) := by
  induction es generalizing y m with
  | nil => exact h
  | cons e rest ih =>
    rw [List.length_cons, Nat.add_comm rest.length, ← Nat.add_assoc]
    exact ih (h.insert e.1 e.2)

/-- Settles O37, by induction on the insertions. -/
theorem countingLawOfInsertions : Obligations.CountingLawOfInsertions := by
  intro es
  have hstart : Sync.CountsInserted ⟨256#13, 0#32, []⟩ 0 := ⟨rfl, rfl⟩
  simpa [Sync.CountsInserted] using hstart.insertAll es

/-! ### Lookup -/

theorem lookup_eq_none_iff {d : List DictEntry} {p : Code} {c : Byte} :
    lookup d p c = none ↔ ∀ e ∈ d, ¬(e.pre = p ∧ e.last = c) := by
  constructor
  · rintro h e he ⟨rfl, rfl⟩
    exact lookup_none h e he ⟨rfl, rfl⟩
  · intro h
    cases hfound : lookup d p c with
    | none => rfl
    | some x => exact absurd ⟨rfl, rfl⟩ (h _ (lookup_some hfound))

/-- With distinct keys no earlier entry hides a stored one. -/
theorem keysDistinct.lookup_of_mem {d : List DictEntry} {e : DictEntry} (h : keysDistinct d) (he : e ∈ d) :
    lookup d e.pre e.last = some e.code := by
  induction d with
  | nil => cases he
  | cons f rest ih =>
    obtain ⟨hhead, hrest⟩ := List.pairwise_cons.mp h
    rcases List.mem_cons.mp he with rfl | he
    · simp [lookup]
    · rw [lookup, if_neg (hhead e he), ih hrest he]

/-- Settles O35: a lookup stops at an entry with its key, and a fresh entry is put first. -/
theorem lookupFindsExactlyTheBindings : Obligations.LookupFindsExactlyTheBindings := by
  refine ⟨fun d p c x hkeys => ⟨lookup_some, hkeys.lookup_of_mem⟩, fun d p c => lookup_eq_none_iff, ?_⟩
  intro d x p q c b hbound _
  rw [insertEntry_of_boundBelow p c hbound, lookup]
  simp only [eq_comm]

/-! ### Symbols of bound codes -/

/-- Different singleton codes name different bytes (40_dictionary.md R102). -/
theorem codeByte_injective {j k : Code} (hj : j.toNat < 256) (hk : k.toNat < 256) (h : codeByte j = codeByte k) :
    j = k := by
  unfold codeByte at h
  bv_omega

theorem symbolOf_head? (d : List DictEntry) (k : Code) : (symbolOf d k).head? = some (firstByte d k) := by
  obtain ⟨rest, h⟩ := symbolOf_eq_cons d k
  rw [h, List.head?_cons]

theorem symbolLen_pos (d : List DictEntry) (k : Code) : 0 < symbolLen d k := by
  obtain ⟨rest, h⟩ := symbolOf_eq_cons d k
  simp [symbolLen, h]

/-- The head entry's code extends the symbol that `e.pre` has among the rest. -/
theorem symbolOf_cons_self {e : DictEntry} {d : List DictEntry} (h : 256 ≤ e.code.toNat) :
    symbolOf (e :: d) e.code = symbolOf d e.pre ++ [e.last] := by
  rw [symbolOf, if_neg (Nat.not_lt.mpr h), if_pos rfl]

section
variable {d : List DictEntry} {n : Nat} {e : DictEntry} {j k : Code}

theorem boundBelow.exists_mem_code (h : boundBelow d n) (hlow : 256 ≤ k.toNat) (hk : k.toNat < n) :
    ∃ e ∈ d, e.code = k := by
  induction d generalizing n with
  | nil =>
    have hn : n = 256 := h
    omega
  | cons f rest ih =>
    obtain ⟨hcode, -, hrest⟩ := h
    by_cases hf : f.code = k
    · exact ⟨f, List.mem_cons_self, hf⟩
    · have hlt : k.toNat < f.code.toNat := by bv_omega
      obtain ⟨e, he, hek⟩ := ih hrest hlt
      exact ⟨e, List.mem_cons_of_mem f he, hek⟩

theorem boundBelow.entryAt_of_mem (h : boundBelow d n) (he : e ∈ d) : entryAt d e.code = some e := by
  induction d generalizing n with
  | nil => cases he
  | cons f rest ih =>
    obtain ⟨-, -, hrest⟩ := h
    rcases List.mem_cons.mp he with rfl | he
    · simp [entryAt]
    · obtain ⟨-, hlt, -⟩ := hrest.mem he
      rw [entryAt, if_neg (by bv_omega), ih hrest he]

/-- 40_dictionary.md R104: the entries listed before have larger codes, so they take no part in the symbol of an
entry's code nor in that of the code it extends. -/
theorem boundBelow.symbolOf_code (h : boundBelow d n) (he : e ∈ d) :
    symbolOf d e.code = symbolOf d e.pre ++ [e.last] := by
  induction d generalizing n with
  | nil => cases he
  | cons f rest ih =>
    obtain ⟨-, hpre, hrest⟩ := h
    rcases List.mem_cons.mp he with rfl | he
    · rw [symbolOf_cons_self hrest.le, symbolOf_cons_ne (by bv_omega)]
    · obtain ⟨-, hlt, hpre⟩ := hrest.mem he
      rw [symbolOf_cons_ne (by bv_omega), symbolOf_cons_ne (by bv_omega), ih hrest he]

theorem boundBelow.firstByte_code (h : boundBelow d n) (he : e ∈ d) : firstByte d e.code = firstByte d e.pre := by
  apply Option.some_injective
  rw [← symbolOf_head?, ← symbolOf_head?, h.symbolOf_code he, List.head?_append, symbolOf_head?, Option.some_or]

theorem boundBelow.symbolLen_code (h : boundBelow d n) (he : e ∈ d) :
    symbolLen d e.code = symbolLen d e.pre + 1 := by
  simp [symbolLen, h.symbolOf_code he]

/-- Among the bound codes only the singletons name one byte. -/
theorem boundBelow.symbolLen_eq_one_iff (h : boundBelow d n) (hk : k.toNat < n) :
    symbolLen d k = 1 ↔ k.toNat < 256 := by
  refine ⟨fun hone => Nat.lt_of_not_le fun hlow => ?_, symbolLen_singleton d⟩
  obtain ⟨e, he, rfl⟩ := h.exists_mem_code hlow hk
  have := h.symbolLen_code he
  have := symbolLen_pos d e.pre
  omega

/-- 40_dictionary.md R111 (b): equal symbols end in the same byte and extend equal symbols, so with distinct keys
they have the same entry. -/
theorem boundBelow.symbolOf_injective (h : boundBelow d n) (hkeys : keysDistinct d) (hj : j.toNat < n)
    (hk : k.toNat < n) (heq : symbolOf d j = symbolOf d k) : j = k := by
  induction hsize : j.toNat using Nat.strong_induction_on generalizing j k with
  | _ m ih =>
    have hiff : j.toNat < 256 ↔ k.toNat < 256 := by
      rw [← h.symbolLen_eq_one_iff hj, ← h.symbolLen_eq_one_iff hk, symbolLen, symbolLen, heq]
    by_cases hlow : j.toNat < 256
    · have hbyte : codeByte j = codeByte k := by
        simpa [symbolOf_singleton d hlow, symbolOf_singleton d (hiff.mp hlow)] using heq
      exact codeByte_injective hlow (hiff.mp hlow) hbyte
    · obtain ⟨e, he, rfl⟩ := h.exists_mem_code (Nat.le_of_not_lt hlow) hj
      obtain ⟨f, hf, rfl⟩ := h.exists_mem_code (Nat.le_of_not_lt (hiff.not.mp hlow)) hk
      rw [h.symbolOf_code he, h.symbolOf_code hf] at heq
      obtain ⟨hinit, hlast⟩ := List.append_inj' heq rfl
      obtain ⟨-, -, hepre⟩ := h.mem he
      obtain ⟨-, -, hfpre⟩ := h.mem hf
      have hpre : e.pre = f.pre := ih _ (hsize ▸ hepre) (by omega) (by omega) hinit rfl
      have hcodes : some e.code = some f.code := by
        rw [← hkeys.lookup_of_mem he, ← hkeys.lookup_of_mem hf, hpre, List.singleton_inj.mp hlast]
      exact Option.some_injective _ hcodes

end

/-- Settles O36: a bound code that is no singleton has an entry, and its symbol is that of the entry. -/
theorem symbolOfACodeExtendsItsPrefix : Obligations.SymbolOfACodeExtendsItsPrefix := by
  intro d n h
  refine ⟨fun k hk => ⟨symbolOf_singleton d hk, firstByte_singleton d hk, symbolLen_singleton d hk⟩,
    fun k hlow hk => ?_, fun k => ⟨symbolOf_head? d k, rfl⟩⟩
  obtain ⟨e, he, rfl⟩ := h.exists_mem_code hlow hk
  obtain ⟨-, -, hpre⟩ := h.mem he
  exact ⟨e, h.entryAt_of_mem he, rfl, hpre, h.symbolOf_code he, h.firstByte_code he,
    h.symbolLen_code he⟩

/-- Settles O38: ENC's invariant gives bound codes in order and distinct keys. -/
theorem encoderSymbolsAreDistinct : Obligations.EncoderSymbolsAreDistinct :=
  fun _ _ _ h hj hk heq => h.sync.entries.symbolOf_injective h.keys hj hk heq

end Sys2Proof.Machine
end

section
/-! Proofs about single commands: what a START clears, what a command out of sequence does, and the effects, the frame
and the emitted codes of ENC's commands (41_encoder.md R121 to R127, 45_common.md R193). -/

namespace Sys2Proof.Machine

/-- Settles O8: each outcome of an instruction adds the items that `nout` counts. -/
theorem noutCountsTheItemsEmitted : Obligations.NoutCountsTheItemsEmitted :=
  fun _ _ _ u h => exec_oqLen h u

/-! ### START -/

theorem EncUnit.onStart_of_canStart {e : EncUnit} (h : e.ctl.canStart = true) : e.onStart = e.start := if_pos h
theorem DecUnit.onStart_of_canStart {d : DecUnit} (h : d.ctl.canStart = true) : d.onStart = d.start := if_pos h
theorem PackUnit.onStart_of_canStart {p : PackUnit} (h : p.ctl.canStart = true) : p.onStart = p.start := if_pos h
theorem UnpkUnit.onStart_of_canStart {p : UnpkUnit} {n : BitVec 24} (h : p.ctl.canStart = true) :
    p.onStart n = p.start n := if_pos h

/-- A START that its unit turns away changes nothing (45_common.md R195). -/
theorem exec_start_of_not_canStart {i : Instr} {u : UnitId} {s : State} (hstart : isStart i = true)
    (hi : i.unit? = some u) (hc : (s.ctl u).canStart = false) : exec i s = .next s := by
  cases i with
  | encStart => cases hi; simp_all [State.ctl, exec_encStart, EncUnit.onStart]
  | decStart => cases hi; simp_all [State.ctl, exec_decStart, DecUnit.onStart]
  | packStart => cases hi; simp_all [State.ctl, exec_packStart, PackUnit.onStart]
  | unpkStart => cases hi; simp_all [State.ctl, exec_unpkStart, UnpkUnit.onStart]
  | _ => cases hstart

/-- Settles O21: a START that is not turned away is its unit's `start`. -/
theorem startClearsTheRunAndKeepsTheQueues : Obligations.StartClearsTheRunAndKeepsTheQueues := by
  refine ⟨fun s h => ?_, fun s h => ?_, fun s h => ?_, fun n s h => ?_, fun i u s hstart hi hph hcause => ?_⟩
  · rw [exec_encStart, EncUnit.onStart_of_canStart ((Ctl.canStart_iff _).mpr h)]
    rfl
  · rw [exec_decStart, DecUnit.onStart_of_canStart ((Ctl.canStart_iff _).mpr h)]
    rfl
  · rw [exec_packStart, PackUnit.onStart_of_canStart ((Ctl.canStart_iff _).mpr h)]
    rfl
  · rw [exec_unpkStart, UnpkUnit.onStart_of_canStart ((Ctl.canStart_iff _).mpr h)]
    rfl
  · exact exec_start_of_not_canStart hstart hi (by simp [Ctl.canStart, hph, hcause])

/-! ### Commands out of sequence -/

section
variable {i : Instr} {u : UnitId} {s : State}

/-- 41_encoder.md R125 and its three counterparts, in IDLE. -/
theorem exec_of_idle (hi : i.unit? = some u) (hstart : isStart i = false) (hph : (s.ctl u).phase = .idle) :
    exec i s = .next (s.setCtl u ((s.ctl u).raise .sequence (encode i))) := by
  cases i with
  | nop | csrRead => cases hi
  | encStart | decStart | packStart | unpkStart => cases hstart
  | encByte | encEnd =>
    cases hi
    simp_all [State.ctl, State.setCtl, exec_encByte, exec_encEnd, EncUnit.onByte, EncUnit.onEnd, EncUnit.fault]
  | decCode | decEnd =>
    cases hi
    simp_all [State.ctl, State.setCtl, exec_decCode, exec_decEnd, DecUnit.onCode, DecUnit.onEnd, DecUnit.fault]
  | packCode | packEnd =>
    cases hi
    simp_all [State.ctl, State.setCtl, exec_packCode, exec_packEnd, PackUnit.onCode, PackUnit.onEnd, PackUnit.fault]
  | unpkByte | unpkEnd =>
    cases hi
    simp_all [State.ctl, State.setCtl, exec_unpkByte, exec_unpkEnd, UnpkUnit.onByte, UnpkUnit.onEnd, UnpkUnit.fault]

/-- 41_encoder.md R125 and its three counterparts, in FAULT. -/
theorem exec_of_fault (hi : i.unit? = some u) (hstart : isStart i = false) (hph : (s.ctl u).phase = .fault) :
    exec i s = .next s := by
  cases i with
  | nop | csrRead => cases hi
  | encStart | decStart | packStart | unpkStart => cases hstart
  | encByte | encEnd =>
    cases hi
    simp_all [State.ctl, exec_encByte, exec_encEnd, EncUnit.onByte, EncUnit.onEnd]
  | decCode | decEnd =>
    cases hi
    simp_all [State.ctl, exec_decCode, exec_decEnd, DecUnit.onCode, DecUnit.onEnd]
  | packCode | packEnd =>
    cases hi
    simp_all [State.ctl, exec_packCode, exec_packEnd, PackUnit.onCode, PackUnit.onEnd]
  | unpkByte | unpkEnd =>
    cases hi
    simp_all [State.ctl, exec_unpkByte, exec_unpkEnd, UnpkUnit.onByte, UnpkUnit.onEnd]

end

/-- Settles O11: in IDLE and FAULT every unit looks at the phase only. -/
theorem outOfSequenceCommandFaultsSequence : Obligations.OutOfSequenceCommandFaultsSequence :=
  fun _ _ _ hi hstart => ⟨exec_of_idle hi hstart, exec_of_fault hi hstart⟩

/-! ### ENC's commands in OPEN and in RUN -/

section
variable {e : EncUnit} {c : Byte}

theorem EncUnit.onByte_of_opened (h : e.ctl.phase = .opened) : e.onByte c = e.firstByteIn c := by
  simp [onByte, h]

theorem EncUnit.onByte_of_run (h : e.ctl.phase = .run) : e.onByte c = e.nextByteIn c := by
  simp [onByte, h]

theorem EncUnit.nextByteIn_of_found {x : Code} (h : lookup e.sync.dict e.w c = some x) :
    e.nextByteIn c = { e with inBytes := bump e.inBytes 1, w := x } := by
  simp [nextByteIn, h]

theorem EncUnit.nextByteIn_of_fresh (h : lookup e.sync.dict e.w c = none) (hover : e.sync.overflow = false) :
    e.nextByteIn c = { e with inBytes := bump e.inBytes 1, oq := emit e.oq [.data e.w],
                              outCodes := bump e.outCodes 1, sync := e.sync.insert e.w c, w := byteCode c } := by
  simp [nextByteIn, h, hover]

theorem EncUnit.nextByteIn_of_overflow (h : lookup e.sync.dict e.w c = none) (hover : e.sync.overflow = true) :
    e.nextByteIn c = e.fault .counter (encode (.encByte c)) := by
  simp [nextByteIn, h, hover]

theorem EncUnit.onEnd_of_opened (h : e.ctl.phase = .opened) : e.onEnd = e.finishEmpty := by
  simp [onEnd, h]

theorem EncUnit.onEnd_of_run (h : e.ctl.phase = .run) : e.onEnd = e.finishRun := by
  simp [onEnd, h]

end

/-- The word of ENC.BYTE (30_encoding.md R83). -/
theorem encode_encByte (c : Byte) : encode (.encByte c) = 0x110000#24 ++ c := by
  have hc := c.isLt
  apply BitVec.eq_of_toNat_eq
  simp only [encode, Instr.opcode, Instr.operand, BitVec.toNat_append, BitVec.toNat_setWidth]
  rw [← Nat.shiftLeft_add_eq_or_of_lt (by omega), ← Nat.shiftLeft_add_eq_or_of_lt (by omega)]
  simp only [BitVec.toNat_ofNat]
  omega

/-- Settles O22: in OPEN a byte is the first of its run. -/
theorem firstEncByteSetsTheSymbol : Obligations.FirstEncByteSetsTheSymbol := by
  intro c s hph
  rw [exec_encByte, EncUnit.onByte_of_opened hph]
  rfl

/-- Settles O23: the lookup decides between extending and emitting, the counter between inserting and the fault. -/
theorem nextEncByteExtendsOrEmits : Obligations.NextEncByteExtendsOrEmits := by
  intro c s hph
  rw [exec_encByte, EncUnit.onByte_of_run hph]
  refine ⟨fun x hfound => ?_, fun hnone hlt => ?_, fun hnone hge => ?_⟩
  · rw [EncUnit.nextByteIn_of_found hfound]
    rfl
  · have hover : s.enc.sync.overflow = false := by
      rw [← Bool.not_eq_true, Sync.overflow_iff]
      omega
    rw [EncUnit.nextByteIn_of_fresh hnone hover]
    rfl
  · rw [EncUnit.nextByteIn_of_overflow hnone ((Sync.overflow_iff _).mpr hge), encode_encByte]
    rfl

/-- Settles O24: only in RUN is there a symbol to flush. -/
theorem encEndFlushesTheFinalCode : Obligations.EncEndFlushesTheFinalCode := by
  refine fun s => ⟨fun hph => ?_, fun hph => ?_⟩
  · rw [exec_encEnd, EncUnit.onEnd_of_run hph]
    rfl
  · rw [exec_encEnd, EncUnit.onEnd_of_opened hph]
    rfl

/-! ### The frame of ENC's commands -/

section
variable {i : Instr} {e e' : EncUnit}

theorem exec_enc_frame {s t : State} (hi : i.unit? = some .enc) (h : exec i s = .next t) :
    t = { s with enc := t.enc } := by
  cases i <;> cases hi <;> cases h <;> rfl

theorem EncUnit.Reacts.oq_of_start (h : e.Reacts .encStart e') : e'.oq = e.oq := by cases h <;> rfl

theorem EncUnit.Reacts.kept_by_end (h : e.Reacts .encEnd e') :
    e'.w = e.w ∧ e'.sync = e.sync ∧ e'.inBytes = e.inBytes := by
  cases h <;> exact ⟨rfl, rfl, rfl⟩

theorem EncUnit.Reacts.done_of_byte {c : Byte} (h : e.Reacts (.encByte c) e') : e'.ctl.done = e.ctl.done := by
  cases h <;> rfl

/-- The dictionary changes only in the step that emits the code of `w` (41_encoder.md R123). -/
theorem EncUnit.Reacts.sync_changed_by_byte {c : Byte} (h : e.Reacts (.encByte c) e') (hne : e'.sync ≠ e.sync) :
    e.ctl.phase = .run ∧ lookup e.sync.dict e.w c = none ∧ e'.oq = e.oq ++ [.data e.w] := by
  cases h with
  | emitted hph hlookup => exact ⟨hph, hlookup, rfl⟩
  | _ => exact absurd rfl hne

/-- ENC's only data items are the code of `w`, in RUN (41_encoder.md R123, R124). -/
theorem EncUnit.Reacts.data_mem_new (h : e.Reacts i e') {new : List (Item 12)} (hnew : e'.oq = e.oq ++ new) {v : Code}
    (hv : .data v ∈ new) : e.ctl.phase = .run ∧ v = e.w := by
  cases h with
  | emitted hph | ended hph =>
    obtain rfl := List.append_cancel_left hnew
    exact ⟨hph, by simpa using hv⟩
  | endedEmpty =>
    obtain rfl := List.append_cancel_left hnew
    simp at hv
  | _ =>
    obtain rfl : new = [] := List.self_eq_append_right.mp hnew
    cases hv

end

/-- Settles O47, from the outcomes of ENC's commands. -/
theorem encCommandsFrame : Obligations.EncCommandsFrame := by
  intro i s t hi h
  have hreacts : s.enc.Reacts i t.enc := exec_enc_reacts h
  refine ⟨exec_enc_frame hi h, hreacts.cmdq_eq, hreacts.oq_prefix, ?_, ?_, ?_⟩
  · rintro rfl
    exact hreacts.oq_of_start
  · rintro rfl
    exact hreacts.kept_by_end
  · rintro c rfl
    exact ⟨hreacts.done_of_byte, hreacts.sync_changed_by_byte⟩

/-- Settles O51: what ENC emits is `w`, which the invariant bounds in RUN. -/
theorem encoderNeverEmitsCode4095 : Obligations.EncoderNeverEmitsCode4095 := by
  intro i s t v hinv _ h new hnew hv
  obtain ⟨hph, rfl⟩ := (exec_enc_reacts h).data_mem_new hnew hv
  have hbound := hinv.wBound hph
  have hhigh := hinv.sync.high
  exact ⟨hbound, by omega⟩

end Sys2Proof.Machine
end

section
/-! Proofs about encoder runs: ENC follows the source's encoder byte by byte, with a symbol's code in place of the
symbol, and counts its bytes, codes and insertions (41_encoder.md R130, R131). -/

namespace Sys2Proof.Machine

open Assembler

/-! ### A run as one function of ENC -/

theorem execAll_append (is js : List Instr) (s : State) :
    execAll (is ++ js) s = andThen (execAll is s) (execAll js) := by
  induction is generalizing s with
  | nil => rfl
  | cons i rest ih =>
    rw [List.cons_append, execAll, execAll]
    cases exec i s with
    | next t => exact ih t
    | fault | refused => rfl

theorem execAll_encBytes (xs : List Byte) (s : State) :
    execAll (encBytes xs) s = .next { s with enc := xs.foldl EncUnit.onByte s.enc } := by
  induction xs generalizing s with
  | nil => rfl
  | cons c rest ih => exact ih { s with enc := s.enc.onByte c }

theorem execAll_encRun (xs : List Byte) (s : State) :
    execAll (encRun xs) s = .next { s with enc := (xs.foldl EncUnit.onByte s.enc.onStart).onEnd } := by
  rw [encRun, execAll, exec_encStart]
  dsimp only
  rw [execAll_append, execAll_encBytes]
  rfl

/-! ### The source's dictionary -/

/-- The dictionary the source's encoder holds where ENC holds `d`: each symbol with its code. -/
def symbolTable (d : List DictEntry) : List (List Byte × Nat) :=
  d.map fun e => (symbolOf d e.code, e.code.toNat)

/-- A new entry changes no other entry's symbol. -/
theorem symbolTable_cons {e : DictEntry} {d : List DictEntry} (h : boundBelow d e.code.toNat) :
    symbolTable (e :: d) = (symbolOf d e.pre ++ [e.last], e.code.toNat) :: symbolTable d := by
  rw [symbolTable, List.map_cons, symbolOf_cons_self h.le]
  refine congrArg _ (List.map_congr_left fun f hf => ?_)
  obtain ⟨-, hlt, -⟩ := h.mem hf
  rw [symbolOf_cons_ne (by bv_omega)]

namespace SourceEncoder
variable {m : SourceEncoder} {d : List DictEntry} {n : Nat}

/-- A symbol of two bytes or more is looked for in the dictionary. -/
theorem codeOf_of_two_le {sym : List Byte} (h : 2 ≤ sym.length) :
    m.codeOf sym = (m.dict.find? (fun e => e.1 == sym)).map (fun e => e.2) := by
  match sym, h with
  | _ :: _ :: _, _ => rfl

/-- The code of a symbol of two bytes or more is that of an entry with this symbol. -/
theorem codeOf_some {sym : List Byte} {x : Nat} (hdict : m.dict = symbolTable d) (hsym : 2 ≤ sym.length)
    (h : m.codeOf sym = some x) : ∃ e ∈ d, symbolOf d e.code = sym ∧ e.code.toNat = x := by
  rw [codeOf_of_two_le hsym, hdict, Option.map_eq_some_iff] at h
  obtain ⟨r, hfind, rfl⟩ := h
  obtain ⟨e, he, rfl⟩ := List.mem_map.mp (List.mem_of_find?_eq_some hfind)
  exact ⟨e, he, by simpa using List.find?_some hfind, rfl⟩

/-- No entry has a symbol of two bytes or more without a code. -/
theorem codeOf_none {sym : List Byte} (hdict : m.dict = symbolTable d) (hsym : 2 ≤ sym.length)
    (h : m.codeOf sym = none) : ∀ e ∈ d, symbolOf d e.code ≠ sym := by
  rw [codeOf_of_two_le hsym, hdict, Option.map_eq_none_iff, List.find?_eq_none] at h
  exact fun e he => by simpa using h _ (List.mem_map_of_mem he)

/-- In the source's dictionary the symbol of a bound code has that code. -/
theorem codeOf_symbolOf {k : Code} (hdict : m.dict = symbolTable d) (hbound : boundBelow d n)
    (hkeys : keysDistinct d) (hk : k.toNat < n) : m.codeOf (symbolOf d k) = some k.toNat := by
  by_cases hlow : k.toNat < 256
  · rw [symbolOf_singleton d hlow, codeOf, codeByte, BitVec.toNat_setWidth, Nat.mod_eq_of_lt hlow]
  · obtain ⟨e, he, rfl⟩ := hbound.exists_mem_code (Nat.le_of_not_lt hlow) hk
    have hsym : 2 ≤ (symbolOf d e.code).length := by
      have := hbound.symbolLen_code he
      have := symbolLen_pos d e.pre
      unfold symbolLen at *
      omega
    cases hcode : m.codeOf (symbolOf d e.code) with
    | none => exact absurd rfl (codeOf_none hdict hsym hcode e he)
    | some x =>
      obtain ⟨f, hf, heq, rfl⟩ := codeOf_some hdict hsym hcode
      obtain ⟨-, hfn, -⟩ := hbound.mem hf
      rw [hbound.symbolOf_injective hkeys hfn hk heq]

/-- Extending the symbol of `w` by a byte: the source finds what `lookup` finds. -/
theorem codeOf_extended {w : Code} (hdict : m.dict = symbolTable d) (hbound : boundBelow d n)
    (hkeys : keysDistinct d) (hw : w.toNat < n) (c : Byte) :
    m.codeOf (symbolOf d w ++ [c]) = (lookup d w c).map BitVec.toNat := by
  cases hlookup : lookup d w c with
  | some x =>
    have hmem := lookup_some hlookup
    obtain ⟨-, hx, -⟩ := hbound.mem hmem
    rw [← hbound.symbolOf_code hmem, codeOf_symbolOf hdict hbound hkeys hx, Option.map_some]
  | none =>
    have hsym : 2 ≤ (symbolOf d w ++ [c]).length := by
      have := symbolLen_pos d w
      rw [List.length_append]
      exact Nat.succ_le_succ this
    cases hcode : m.codeOf (symbolOf d w ++ [c]) with
    | none => rfl
    | some x =>
      obtain ⟨e, he, heq, -⟩ := codeOf_some hdict hsym hcode
      rw [hbound.symbolOf_code he] at heq
      obtain ⟨hinit, hlast⟩ := List.append_inj' heq rfl
      obtain ⟨-, hen, hpre⟩ := hbound.mem he
      have hprew : e.pre = w := hbound.symbolOf_injective hkeys (by omega) hw hinit
      exact absurd ⟨hprew, List.singleton_inj.mp hlast⟩ (lookup_eq_none_iff.mp hlookup e he)

theorem byte_of_bound {c : Byte} {x : Nat} (h : m.codeOf (m.w ++ [c]) = some x) :
    m.byte c = ([], { m with w := m.w ++ [c] }) := by
  simp [byte, h]

theorem byte_of_fresh {c : Byte} (h : m.codeOf (m.w ++ [c]) = none) (hnext : m.next + 1 ≠ 4096) :
    m.byte c = ([m.codeOf m.w], ⟨[c], m.next + 1, (m.w ++ [c], m.next) :: m.dict⟩) := by
  simp [byte, h, hnext]

theorem byte_of_fresh_last {c : Byte} (h : m.codeOf (m.w ++ [c]) = none) (hnext : m.next + 1 = 4096) :
    m.byte c = ([m.codeOf m.w], ⟨[c], 256, []⟩) := by
  simp [byte, h, hnext]

end SourceEncoder

/-! ### ENC follows the source's encoder -/

/-- ENC stands in a run where the source's encoder stands in `m`, after `n` bytes and `k` codes of the run. -/
structure EncUnit.Follows (e : EncUnit) (m : SourceEncoder) (n k : Nat) : Prop where
  inv : EncInv e
  run : e.ctl.phase = .run
  w : m.w = symbolOf e.sync.dict e.w
  next : m.next = e.sync.nextCode.toNat
  dict : m.dict = symbolTable e.sync.dict
  inBytes : e.inBytes = BitVec.ofNat 32 n
  outCodes : e.outCodes = BitVec.ofNat 32 k
  inserted : e.sync.CountsInserted k

theorem bump_ofNat (n k : Nat) : bump (BitVec.ofNat 32 n) k = BitVec.ofNat 32 (n + k) := by
  rw [bump, BitVec.ofNat_add]

theorem symbolOf_byteCode (d : List DictEntry) (c : Byte) : symbolOf d (byteCode c) = [c] := by
  rw [symbolOf_singleton d (byteCode_lt c)]
  simp [codeByte, byteCode]

namespace EncUnit

theorem firstByteIn_follows (e : EncUnit) (c : Byte) : (e.start.firstByteIn c).Follows ⟨[c], 256, []⟩ 1 0 where
  inv := (EncInv.start e).firstByteIn rfl c
  run := rfl
  w := (symbolOf_byteCode _ c).symm
  next := rfl
  dict := rfl
  inBytes := rfl
  outCodes := rfl
  inserted := ⟨rfl, rfl⟩

namespace Follows
variable {e : EncUnit} {m : SourceEncoder} {n k : Nat}

theorem wBound (h : e.Follows m n k) : e.w.toNat < e.sync.nextCode.toNat := h.inv.wBound h.run

theorem codeOf_w (h : e.Follows m n k) : m.codeOf m.w = some e.w.toNat := by
  rw [h.w, SourceEncoder.codeOf_symbolOf h.dict h.inv.sync.entries h.inv.keys h.wBound]

theorem codeOf_extended (h : e.Follows m n k) (c : Byte) :
    m.codeOf (m.w ++ [c]) = (lookup e.sync.dict e.w c).map BitVec.toNat := by
  rw [h.w, SourceEncoder.codeOf_extended h.dict h.inv.sync.entries h.inv.keys h.wBound]

/-- A longer match emits nothing. -/
theorem extended (h : e.Follows m n k) {c : Byte} {x : Code} (hfound : lookup e.sync.dict e.w c = some x) :
    (e.onByte c).oq = e.oq ∧ (m.byte c).1 = [] ∧ (e.onByte c).Follows (m.byte c).2 (n + 1) k := by
  have hcode : m.codeOf (m.w ++ [c]) = some x.toNat := by rw [h.codeOf_extended, hfound, Option.map_some]
  rw [onByte_of_run h.run, nextByteIn_of_found hfound, SourceEncoder.byte_of_bound hcode]
  exact ⟨rfl, rfl,
    { h with
      inv := h.inv.extended h.run hfound _
      w := by rw [h.w, h.inv.sync.entries.symbolOf_code (lookup_some hfound)]
      inBytes := by rw [h.inBytes, bump_ofNat] }⟩

/-- A match that ends emits the code of `w`; the source binds the same symbol, or clears its dictionary, in the same
step as ENC does. -/
theorem emitted (h : e.Follows m n k) {c : Byte} (hfresh : lookup e.sync.dict e.w c = none) :
    (e.onByte c).oq = e.oq ++ [.data e.w] ∧ (m.byte c).1 = [some e.w.toNat] ∧
      (e.onByte c).Follows (m.byte c).2 (n + 1) (k + 1) := by
  have hcode : m.codeOf (m.w ++ [c]) = none := by rw [h.codeOf_extended, hfresh, Option.map_none]
  have hnext := h.next
  rw [onByte_of_run h.run, nextByteIn_of_fresh hfresh h.inv.sync.overflow_eq_false]
  have hinv := h.inv.emitted h.run hfresh (emit e.oq [.data e.w]) (bump e.inBytes 1) (bump e.outCodes 1)
  have hin : bump e.inBytes 1 = BitVec.ofNat 32 (n + 1) := by rw [h.inBytes, bump_ofNat]
  have hout : bump e.outCodes 1 = BitVec.ofNat 32 (k + 1) := by rw [h.outCodes, bump_ofNat]
  rcases h.inv.sync.insert_cases e.w c with ⟨hlt, hn, -, hd⟩ | ⟨hlast, hn, -, hd⟩
  · rw [SourceEncoder.byte_of_fresh hcode (by omega), h.codeOf_w]
    refine ⟨rfl, rfl,
      { inv := hinv, run := h.run, w := (symbolOf_byteCode _ c).symm, next := by rw [hn, hnext], dict := ?_,
        inBytes := hin, outCodes := hout, inserted := h.inserted.insert e.w c }⟩
    have hcodeNext := h.inv.sync.nextAsCode_toNat
    rw [hd, symbolTable_cons (hcodeNext ▸ h.inv.sync.entries), ← h.w, h.dict, hnext, hcodeNext]
  · rw [SourceEncoder.byte_of_fresh_last hcode (by omega), h.codeOf_w]
    exact ⟨rfl, rfl,
      { inv := hinv, run := h.run, w := (symbolOf_byteCode _ c).symm, next := hn.symm, dict := by rw [hd]; rfl,
        inBytes := hin, outCodes := hout, inserted := h.inserted.insert e.w c }⟩

/-- One byte: ENC emits the codes that the source emits. -/
theorem onByte (h : e.Follows m n k) (c : Byte) :
    ∃ ks : List Code, (e.onByte c).oq = e.oq ++ ks.map .data ∧ (m.byte c).1 = ks.map (fun x => some x.toNat) ∧
      (e.onByte c).Follows (m.byte c).2 (n + 1) (k + ks.length) := by
  cases hlookup : lookup e.sync.dict e.w c with
  | some x =>
    obtain ⟨hoq, hsource, hfollows⟩ := h.extended hlookup
    exact ⟨[], by simpa using hoq, hsource, hfollows⟩
  | none =>
    obtain ⟨hoq, hsource, hfollows⟩ := h.emitted hlookup
    exact ⟨[e.w], hoq, hsource, hfollows⟩

/-- Any bytes, by induction on them; the source adds its final flush (41_encoder.md R124). -/
theorem onBytes (h : e.Follows m n k) (xs : List Byte) :
    ∃ (ks : List Code) (m' : SourceEncoder),
      (xs.foldl EncUnit.onByte e).oq = e.oq ++ ks.map .data ∧
      m.bytes xs = ks.map (fun x => some x.toNat) ++ [m'.codeOf m'.w] ∧
      (xs.foldl EncUnit.onByte e).Follows m' (n + xs.length) (k + ks.length) := by
  induction xs generalizing e m n k with
  | nil => exact ⟨[], m, by simp, rfl, h⟩
  | cons c rest ih =>
    obtain ⟨ks, hoq, hsource, hfollows⟩ := h.onByte c
    obtain ⟨ls, m', hoq', hsource', hfollows'⟩ := ih hfollows
    refine ⟨ks ++ ls, m', ?_, ?_, ?_⟩
    · rw [List.foldl_cons, hoq', hoq, List.map_append, List.append_assoc]
    · rw [SourceEncoder.bytes, hsource, hsource', List.map_append, List.append_assoc]
    · rw [List.length_cons, List.length_append, Nat.add_comm rest.length, ← Nat.add_assoc, ← Nat.add_assoc]
      exact hfollows'

end Follows

end EncUnit

/-! ### Whole runs -/

/-- A run of a non-empty input: ENC follows the source from the first byte on, and END flushes the code `w` that it
ends with. -/
theorem execAll_encRun_cons (c : Byte) (xs : List Byte) {s : State} (hstart : s.enc.ctl.canStart = true) :
    ∃ (ks : List Code) (w : Code) (t : State), execAll (encRun (c :: xs)) s = .next t ∧
      t.enc.oq = s.enc.oq ++ (ks ++ [w]).map .data ++ [.eos] ∧
      SourceEncoder.encodeBytes (c :: xs) = (ks ++ [w]).map (fun k => some k.toNat) ∧
      t.enc.inBytes = BitVec.ofNat 32 (xs.length + 1) ∧ t.enc.outCodes = BitVec.ofNat 32 (ks.length + 1) ∧
      t.enc.sync.CountsInserted ks.length := by
  obtain ⟨ks, m, hoq, hsource, hfollows⟩ := (s.enc.firstByteIn_follows c).onBytes xs
  have hkept : (s.enc.start.firstByteIn c).oq = s.enc.oq := rfl
  refine ⟨ks, (xs.foldl EncUnit.onByte (s.enc.start.firstByteIn c)).w, _, execAll_encRun (c :: xs) s, ?_⟩
  rw [List.foldl_cons, EncUnit.onStart_of_canStart hstart, EncUnit.onByte_of_opened rfl,
    EncUnit.onEnd_of_run hfollows.run]
  refine ⟨?_, ?_, ?_, ?_, ?_⟩
  · simp [EncUnit.finishRun, emit, hoq, hkept]
  · rw [SourceEncoder.encodeBytes, hsource, hfollows.codeOf_w, List.map_append]
    rfl
  · exact hfollows.inBytes.trans (by rw [Nat.add_comm])
  · dsimp only [EncUnit.finishRun]
    rw [hfollows.outCodes, bump_ofNat, Nat.zero_add]
  · exact Nat.zero_add ks.length ▸ hfollows.inserted

/-- Settles O56: each code but the last went with an insertion, and the counting law says where insertions lead. -/
theorem encoderRunCounts : Obligations.EncoderRunCounts := by
  intro xs s hne hstart
  obtain ⟨c, rest, rfl⟩ := List.exists_cons_of_ne_nil hne
  obtain ⟨ks, w, t, hrun, hoq, -, hin, hout, hnext, hepoch⟩ := execAll_encRun_cons c rest hstart
  exact ⟨ks ++ [w], t, hrun, hoq, by simp, hin, by simpa using hout, by simpa using hepoch, by simpa using hnext⟩

/-- Settles O57: after START with no byte both emit nothing, and from the first byte on ENC follows the source. -/
theorem encoderAgreesWithTheSourceAlgorithm : Obligations.EncoderAgreesWithTheSourceAlgorithm := by
  intro xs s hstart
  cases xs with
  | nil =>
    refine ⟨[], _, execAll_encRun [] s, ?_, rfl⟩
    rw [List.foldl_nil, EncUnit.onStart_of_canStart hstart, EncUnit.onEnd_of_opened rfl]
    simp [EncUnit.finishEmpty, emit, EncUnit.start]
  | cons c rest =>
    obtain ⟨ks, w, t, hrun, hoq, hsource, -⟩ := execAll_encRun_cons c rest hstart
    exact ⟨ks ++ [w], t, hrun, hoq, hsource⟩

end Sys2Proof.Machine
end

section
/-! Proofs about DEC's commands: their effects in OPEN and in RUN, and their frame (42_decoder.md R141 to R149). -/

namespace Sys2Proof.Machine

/-! ### DEC's commands in OPEN and in RUN -/

section
variable {d : DecUnit} {k : Operand}

theorem DecUnit.onCode_of_opened (h : d.ctl.phase = .opened) : d.onCode k = d.firstCodeIn k := by
  simp [onCode, h]

theorem DecUnit.onCode_of_run (h : d.ctl.phase = .run) : d.onCode k = d.nextCodeIn k := by
  simp [onCode, h]

theorem DecUnit.firstCodeIn_of_outOfRange (hk : 4095 < k.toNat) :
    d.firstCodeIn k = d.fault .range (encode (.decCode k)) := if_pos hk

theorem DecUnit.firstCodeIn_of_unbound (hlow : 256 ≤ k.toNat) (hk : k.toNat ≤ 4095) :
    d.firstCodeIn k = d.fault .firstUnbound (encode (.decCode k)) := by
  rw [firstCodeIn, if_neg (Nat.not_lt.mpr hk), if_pos hlow]

theorem DecUnit.firstCodeIn_of_singleton (hk : k.toNat < 256) :
    d.firstCodeIn k = { d with oq := emit d.oq [.data (codeByte (operandCode k))], prior := operandCode k,
                               inCodes := 1#32, outBytes := 1#32, ctl := { d.ctl with phase := .run } } := by
  rw [firstCodeIn, if_neg (by omega), if_neg (Nat.not_le.mpr hk)]

theorem DecUnit.nextCodeIn_of_outOfRange (hk : 4095 < k.toNat) :
    d.nextCodeIn k = d.fault .range (encode (.decCode k)) := if_pos hk

theorem DecUnit.nextCodeIn_of_stale (hk : k.toNat ≤ 4095) (hstale : d.stale = true) :
    d.nextCodeIn k = d.fault .stale (encode (.decCode k)) := by
  rw [nextCodeIn, if_neg (Nat.not_lt.mpr hk), if_pos hstale]

theorem DecUnit.nextCodeIn_of_overflow (hk : k.toNat ≤ 4095) (hstale : d.stale = false)
    (hover : d.sync.overflow = true) : d.nextCodeIn k = d.fault .counter (encode (.decCode k)) := by
  simp [nextCodeIn, Nat.not_lt.mpr hk, hstale, hover]

theorem DecUnit.nextCodeIn_of_accepted (hk : k.toNat ≤ 4095) (hstale : d.stale = false)
    (hover : d.sync.overflow = false) : d.nextCodeIn k = d.decodeOne k := by
  simp [nextCodeIn, Nat.not_lt.mpr hk, hstale, hover]

theorem DecUnit.onEnd_of_opened (h : d.ctl.phase = .opened) : d.onEnd = d.fault .empty (encode .decEnd) := by
  simp [onEnd, h]

theorem DecUnit.onEnd_of_run (h : d.ctl.phase = .run) : d.onEnd = d.finishRun := by
  simp [onEnd, h]

/-- 42_decoder.md R144: a bound code is its own codeword. -/
theorem DecUnit.codeword_of_bound (h : k.toNat < d.sync.nextCode.toNat) :
    d.codeword k = operandCode k ∧ d.codewordBytes k = symbolOf d.sync.dict (operandCode k) ∧
      d.codewordFirst k = firstByte d.sync.dict (operandCode k) := by
  have hbound := (d.sync.bound_iff _).mpr h
  exact ⟨if_pos hbound, if_pos hbound, if_pos hbound⟩

/-- 42_decoder.md R145: the codeword of an unbound code is the code bound in this step, which repeats the first byte of
the prior symbol. -/
theorem DecUnit.codeword_of_unbound (h : d.sync.nextCode.toNat ≤ k.toNat) :
    d.codeword k = d.sync.nextAsCode ∧
      d.codewordBytes k = symbolOf d.sync.dict d.prior ++ [firstByte d.sync.dict d.prior] ∧
      d.codewordFirst k = firstByte d.sync.dict d.prior := by
  have hbound : ¬d.sync.bound k.toNat = true := by
    rw [Sync.bound_iff]
    exact Nat.not_lt.mpr h
  exact ⟨if_neg hbound, if_neg hbound, if_neg hbound⟩

/-- A code up to the next one to be bound leaves ANOM as it is. -/
theorem anomAfter_of_le {anom : Bool} {k x : Nat} (h : k ≤ x) : anomAfter anom k x = anom := by
  simp [anomAfter, Nat.not_lt.mpr h]

theorem staleAfter_false (epoch epoch' : Word) (cw : Code) :
    staleAfter false epoch epoch' cw = decide (epoch' ≠ epoch ∧ 256 ≤ cw.toNat) := by
  simp [staleAfter]

theorem Sync.overflow_eq_false {y : Sync} (h : y.nextCode.toNat < 4096) : y.overflow = false := by
  rw [← Bool.not_eq_true, Sync.overflow_iff]
  exact Nat.not_le.mpr h

/-- An insertion changes the epoch only where it binds code 4095 (40_dictionary.md R106). -/
theorem Sync.nextAsCode_of_epoch_changed {y : Sync} {p : Code} {c : Byte} (h : (y.insert p c).epoch ≠ y.epoch) :
    y.nextAsCode = 4095#12 := by
  rcases y.insert_cases p c with ⟨-, -, he, -⟩ | ⟨hlast, -⟩
  · exact absurd he h
  · unfold Sync.nextAsCode
    bv_omega

end

/-- Settles O25: the two ranges of faults come first. -/
theorem firstDecCodeMustBeASingleton : Obligations.FirstDecCodeMustBeASingleton := by
  intro k s hph
  rw [exec_decCode, DecUnit.onCode_of_opened hph]
  refine ⟨fun hk => ?_, fun hlow hk => ?_, fun hk => ?_⟩
  · rw [DecUnit.firstCodeIn_of_outOfRange hk]
    rfl
  · rw [DecUnit.firstCodeIn_of_unbound hlow hk]
    rfl
  · have hbyte : codeByte (operandCode k) = k.setWidth 8 := BitVec.setWidth_setWidth_of_le _ (by decide)
    rw [DecUnit.firstCodeIn_of_singleton hk, hbyte]
    rfl

/-- Settles O26: after the checks a bound code is its own codeword, and its symbol has a first byte. -/
theorem boundDecCodeEmitsItsSymbol : Obligations.BoundDecCodeEmitsItsSymbol := by
  intro k s hph
  rw [exec_decCode, DecUnit.onCode_of_run hph]
  refine ⟨fun hk => ?_, fun hk hstale => ?_, fun hk hstale hover => ?_, fun hk hstale hlt hbound => ?_⟩
  · rw [DecUnit.nextCodeIn_of_outOfRange hk]
    rfl
  · rw [DecUnit.nextCodeIn_of_stale hk hstale]
    rfl
  · rw [DecUnit.nextCodeIn_of_overflow hk hstale ((Sync.overflow_iff _).mpr hover)]
    rfl
  · obtain ⟨bs, hsym⟩ := symbolOf_eq_cons s.dec.sync.dict (operandCode k)
    obtain ⟨hcode, hbytes, hfirst⟩ := DecUnit.codeword_of_bound hbound
    refine ⟨_, bs, hsym, ?_⟩
    rw [DecUnit.nextCodeIn_of_accepted hk hstale (Sync.overflow_eq_false hlt), DecUnit.decodeOne, hcode, hbytes, hfirst,
      hsym, anomAfter_of_le hbound.le, hstale, staleAfter_false, operandCode_toNat hk]
    rfl

/-- Settles O27: the codeword is the code bound in this step; where that step resets the epoch it is 4095, so no
singleton. -/
theorem unboundDecCodeRepeatsThePriorSymbol : Obligations.UnboundDecCodeRepeatsThePriorSymbol := by
  intro k s hph hk hstale hlt hunbound
  obtain ⟨bs, hsym⟩ := symbolOf_eq_cons s.dec.sync.dict s.dec.prior
  obtain ⟨hcode, hbytes, hfirst⟩ := DecUnit.codeword_of_unbound hunbound
  have hanom : decide (s.dec.sync.nextCode.toNat < k.toNat) = decide (k.toNat ≠ s.dec.sync.nextCode.toNat) :=
    decide_eq_decide.mpr (by omega)
  have hreset : ∀ c : Byte, (s.dec.sync.insert s.dec.prior c).epoch ≠ s.dec.sync.epoch ∧
      256 ≤ s.dec.sync.nextAsCode.toNat ↔ (s.dec.sync.insert s.dec.prior c).epoch ≠ s.dec.sync.epoch :=
    fun c => and_iff_left_of_imp fun h => by simp [Sync.nextAsCode_of_epoch_changed h]
  refine ⟨_, bs, hsym, ?_⟩
  rw [exec_decCode, DecUnit.onCode_of_run hph, DecUnit.nextCodeIn_of_accepted hk hstale (Sync.overflow_eq_false hlt),
    DecUnit.decodeOne, hcode, hbytes, hfirst, hsym, anomAfter, hanom, hstale, staleAfter_false, List.length_append]
  simp only [hreset]
  rfl

/-- Settles O28: OPEN has had no code, RUN has had one. -/
theorem decEndNeedsAtLeastOneCode : Obligations.DecEndNeedsAtLeastOneCode := by
  refine fun s => ⟨fun hph => ?_, fun hph => ?_⟩
  · rw [exec_decEnd, DecUnit.onEnd_of_opened hph]
    rfl
  · rw [exec_decEnd, DecUnit.onEnd_of_run hph]
    rfl

/-! ### The frame of DEC's commands -/

section
variable {i : Instr} {d d' : DecUnit}

theorem exec_dec_frame {s t : State} (hi : i.unit? = some .dec) (h : exec i s = .next t) :
    t = { s with dec := t.dec } := by
  cases i <;> cases hi <;> cases h <;> rfl

theorem DecUnit.Reacts.oq_of_start (h : d.Reacts .decStart d') : d'.oq = d.oq := by cases h <;> rfl

theorem DecUnit.Reacts.kept_by_end (h : d.Reacts .decEnd d') :
    d'.prior = d.prior ∧ d'.sync = d.sync ∧ d'.anom = d.anom ∧ d'.stale = d.stale ∧ d'.inCodes = d.inCodes ∧
      d'.outBytes = d.outBytes := by
  cases h <;> exact ⟨rfl, rfl, rfl, rfl, rfl, rfl⟩

theorem DecUnit.Reacts.done_of_code {k : Operand} (h : d.Reacts (.decCode k) d') : d'.ctl.done = d.ctl.done := by
  cases h <;> rfl

/-- No codeword is empty (40_dictionary.md R104). -/
theorem DecUnit.codewordBytes_ne_nil (d : DecUnit) (k : Operand) : d.codewordBytes k ≠ [] := by
  have hlen := d.codewordBytes_length k
  have := symbolLen_pos d.sync.dict (operandCode k)
  refine List.ne_nil_of_length_pos ?_
  split at hlen <;> omega

/-- The dictionary changes only in the step that decodes a code and emits its codeword (42_decoder.md R143). -/
theorem DecUnit.Reacts.sync_changed_by_code {k : Operand} (h : d.Reacts (.decCode k) d') (hne : d'.sync ≠ d.sync) :
    d.ctl.phase = .run ∧ k.toNat ≤ 4095 ∧ d.stale = false ∧ d.oq ≠ d'.oq := by
  cases h with
  | decoded hph hk hstale =>
    refine ⟨hph, hk, hstale, fun heq => d.codewordBytes_ne_nil k ?_⟩
    exact List.map_eq_nil_iff.mp (List.self_eq_append_right.mp heq)
  | _ => exact absurd rfl hne

end

/-- Settles O48, from the outcomes of DEC's commands. -/
theorem decCommandsFrame : Obligations.DecCommandsFrame := by
  intro i s t hi h
  have hreacts : s.dec.Reacts i t.dec := exec_dec_reacts h
  refine ⟨exec_dec_frame hi h, hreacts.cmdq_eq, hreacts.oq_prefix, ?_, ?_, ?_⟩
  · rintro rfl
    exact hreacts.oq_of_start
  · rintro rfl
    exact hreacts.kept_by_end
  · rintro k rfl
    exact ⟨hreacts.done_of_code, hreacts.sync_changed_by_code⟩

end Sys2Proof.Machine
end

section
/-! Proofs about decoder runs: DEC follows ENC one insertion behind, and catches up with each code that ENC emits
(42_decoder.md R151 to R153). -/

namespace Sys2Proof.Machine

open Assembler

/-! ### A run as one function of DEC -/

theorem execAll_decCodes (ks : List Operand) (s : State) :
    execAll (decCodes ks) s = .next { s with dec := ks.foldl DecUnit.onCode s.dec } := by
  induction ks generalizing s with
  | nil => rfl
  | cons k rest ih => exact ih { s with dec := s.dec.onCode k }

theorem execAll_decRun (ks : List Operand) (s : State) :
    execAll (decRun ks) s = .next { s with dec := (ks.foldl DecUnit.onCode s.dec.onStart).onEnd } := by
  rw [decRun, execAll, exec_decStart]
  dsimp only
  rw [execAll_append, execAll_decCodes]
  rfl

/-! ### Codes as operands of DEC.CODE -/

/-- The operand that gives the code `w` to DEC (30_encoding.md R84). -/
def codeOperand (w : Code) : Operand := w.setWidth 24

@[simp] theorem codeOperand_toNat (w : Code) : (codeOperand w).toNat = w.toNat := by
  have := w.isLt
  simp only [codeOperand, BitVec.toNat_setWidth]
  omega

@[simp] theorem operandCode_codeOperand (w : Code) : operandCode (codeOperand w) = w := by
  simp [operandCode, codeOperand]

theorem codeOperand_le (w : Code) : (codeOperand w).toNat ≤ 4095 := by
  have := w.isLt
  rw [codeOperand_toNat]
  omega

/-- DEC after the codes `ks`. -/
def DecUnit.onCodes (d : DecUnit) (ks : List Code) : DecUnit := (ks.map codeOperand).foldl DecUnit.onCode d

@[simp] theorem DecUnit.onCodes_nil (d : DecUnit) : d.onCodes [] = d := rfl

theorem DecUnit.onCodes_append (d : DecUnit) (ks ls : List Code) :
    d.onCodes (ks ++ ls) = (d.onCodes ks).onCodes ls := by
  simp [onCodes]

theorem DecUnit.onCodes_singleton (d : DecUnit) (w : Code) : d.onCodes [w] = d.onCode (codeOperand w) := rfl

theorem execAll_encRun_decRun (xs : List Byte) (ks : List Code) (s : State) :
    execAll (encRun xs ++ decRun (ks.map codeOperand)) s =
      .next { s with enc := (xs.foldl EncUnit.onByte s.enc.onStart).onEnd,
                     dec := (s.dec.onStart.onCodes ks).onEnd } := by
  rw [execAll_append, execAll_encRun, andThen, execAll_decRun]
  rfl

/-! ### Decoding one insertion behind -/

/-- The head entry's code begins as the code it extends. -/
theorem firstByte_cons_self {e : DictEntry} {d : List DictEntry} (h : 256 ≤ e.code.toNat) :
    firstByte (e :: d) e.code = firstByte d e.pre := by
  rw [firstByte, if_neg (Nat.not_lt.mpr h), if_pos rfl]

section
variable {d : DecUnit} {w : Code} {b : Byte}

theorem DecUnit.codeword_codeOperand (h : w.toNat < d.sync.nextCode.toNat) :
    d.codeword (codeOperand w) = w ∧ d.codewordBytes (codeOperand w) = symbolOf d.sync.dict w ∧
      d.codewordFirst (codeOperand w) = firstByte d.sync.dict w := by
  have hbound := DecUnit.codeword_of_bound (d := d) (k := codeOperand w) (by rwa [codeOperand_toNat])
  rwa [operandCode_codeOperand] at hbound

/-- 42_decoder.md R144, R145, R151: let ENC's dictionary be DEC's after inserting the prior symbol with the first byte
of `w`. DEC reads `w` as ENC does: by its own dictionary, or, for the code that only this insertion binds, as the
special case; and no code names its codeword past an epoch reset but a singleton. -/
theorem DecUnit.codeword_of_lag (hinv : SyncInv d.sync) (hw : w.toNat < (d.sync.insert d.prior b).nextCode.toNat)
    (hb : firstByte (d.sync.insert d.prior b).dict w = b) :
    (d.codeword (codeOperand w) = w ∧
      d.codewordBytes (codeOperand w) = symbolOf (d.sync.insert d.prior b).dict w ∧
      d.codewordFirst (codeOperand w) = b) ∧
    w.toNat ≤ d.sync.nextCode.toNat ∧
    ((d.sync.insert d.prior b).epoch ≠ d.sync.epoch → w.toNat < 256) := by
  have hnext := hinv.nextAsCode_toNat
  have hlow := hinv.low
  rcases hinv.insert_cases d.prior b with ⟨-, hn, he, hdict⟩ | ⟨hlast, hn, -, hdict⟩
  · rw [hn] at hw
    rw [hdict] at hb ⊢
    refine ⟨?_, by omega, fun hne => absurd he hne⟩
    by_cases hlt : w.toNat < d.sync.nextCode.toNat
    · obtain ⟨hcode, hbytes, hfirst⟩ := DecUnit.codeword_codeOperand hlt
      have hne : d.sync.nextAsCode ≠ w := by bv_omega
      rw [firstByte_cons_ne hne] at hb
      exact ⟨hcode, hbytes.trans (symbolOf_cons_ne hne).symm, hfirst.trans hb⟩
    · obtain ⟨hcode, hbytes, hfirst⟩ := DecUnit.codeword_of_unbound (k := codeOperand w) (by simpa using hlt)
      obtain rfl : d.sync.nextAsCode = w := by bv_omega
      have hx : 256 ≤ d.sync.nextAsCode.toNat := by omega
      rw [firstByte_cons_self hx] at hb
      rw [symbolOf_cons_self hx, ← hb]
      exact ⟨hcode, hbytes, hfirst⟩
  · rw [hn] at hw
    rw [hdict] at hb ⊢
    have hlt : w.toNat < d.sync.nextCode.toNat := by omega
    obtain ⟨hcode, hbytes, hfirst⟩ := DecUnit.codeword_codeOperand hlt
    rw [firstByte_singleton _ hw] at hb hfirst
    rw [symbolOf_singleton _ hw] at hbytes ⊢
    exact ⟨⟨hcode, hbytes, hfirst.trans hb⟩, hlt.le, fun _ => hw⟩

/-- The step that decodes `w` makes the insertion that ENC had made before, and sets neither ANOM nor STALE. -/
theorem DecUnit.decodeOne_of_lag (hinv : SyncInv d.sync) (hw : w.toNat < (d.sync.insert d.prior b).nextCode.toNat)
    (hb : firstByte (d.sync.insert d.prior b).dict w = b) (hstale : d.stale = false) :
    d.decodeOne (codeOperand w) =
      { d with sync := d.sync.insert d.prior b,
               oq := emit d.oq ((symbolOf (d.sync.insert d.prior b).dict w).map .data),
               outBytes := bump d.outBytes (symbolOf (d.sync.insert d.prior b).dict w).length,
               inCodes := bump d.inCodes 1,
               prior := w } := by
  obtain ⟨⟨hcode, hbytes, hfirst⟩, hle, hreset⟩ := DecUnit.codeword_of_lag hinv hw hb
  have hanom : anomAfter d.anom (codeOperand w).toNat d.sync.nextCode.toNat = d.anom :=
    anomAfter_of_le (by simpa using hle)
  have hclean : staleAfter d.stale d.sync.epoch (d.sync.insert d.prior b).epoch w = d.stale := by
    rw [hstale, staleAfter_false, decide_eq_false_iff_not, not_and, Nat.not_le]
    exact hreset
  rw [DecUnit.decodeOne, hcode, hbytes, hfirst, hanom, hclean]

end

/-! ### DEC follows ENC -/

/-- DEC has had every code that ENC has sent, and `w` comes next: in OPEN nothing is bound in either unit; in RUN ENC is
one insertion ahead, that of the prior symbol with the first byte of `w`. -/
structure DecUnit.Awaits (d : DecUnit) (e : EncUnit) : Prop where
  anom : d.anom = false
  stale : d.stale = false
  lag : (d.ctl.phase = .opened ∧ d.sync = e.sync ∧ e.sync.nextCode.toNat = 256) ∨
    (d.ctl.phase = .run ∧ SyncInv d.sync ∧ e.sync = d.sync.insert d.prior (firstByte e.sync.dict e.w))

/-- DEC has had the code `w` too and stands where ENC stands. -/
structure DecUnit.CaughtUp (d : DecUnit) (e : EncUnit) : Prop where
  run : d.ctl.phase = .run
  anom : d.anom = false
  stale : d.stale = false
  sync : d.sync = e.sync
  prior : d.prior = e.w

section
variable {d : DecUnit} {e : EncUnit}

/-- Given `w`, DEC emits its symbol and catches up. -/
theorem DecUnit.Awaits.onCode (h : d.Awaits e) (hw : e.w.toNat < e.sync.nextCode.toNat) :
    (d.onCode (codeOperand e.w)).CaughtUp e ∧
      (d.onCode (codeOperand e.w)).oq = d.oq ++ (symbolOf e.sync.dict e.w).map .data := by
  rcases h.lag with ⟨hph, hsync, hnext⟩ | ⟨hph, hinv, hsync⟩
  · have hlow : e.w.toNat < 256 := hnext ▸ hw
    rw [DecUnit.onCode_of_opened hph, DecUnit.firstCodeIn_of_singleton (by simpa using hlow), symbolOf_singleton _ hlow,
      operandCode_codeOperand]
    exact ⟨⟨rfl, h.anom, h.stale, hsync, rfl⟩, rfl⟩
  · have hb : firstByte (d.sync.insert d.prior (firstByte e.sync.dict e.w)).dict e.w = firstByte e.sync.dict e.w := by
      rw [← hsync]
    rw [DecUnit.onCode_of_run hph,
      DecUnit.nextCodeIn_of_accepted (codeOperand_le _) h.stale hinv.overflow_eq_false,
      DecUnit.decodeOne_of_lag hinv (hsync ▸ hw) hb h.stale, ← hsync]
    exact ⟨⟨hph, h.anom, h.stale, rfl, rfl⟩, rfl⟩

/-- While ENC only extends its match, DEC awaits the longer one's code. -/
theorem DecUnit.Awaits.extended (h : d.Awaits e) {c : Byte} {x : Code}
    (hentries : boundBelow e.sync.dict e.sync.nextCode.toNat) (hfound : lookup e.sync.dict e.w c = some x) (n : Word) :
    d.Awaits { e with inBytes := n, w := x } where
  anom := h.anom
  stale := h.stale
  lag := by
    have hfirst : firstByte e.sync.dict x = firstByte e.sync.dict e.w := hentries.firstByte_code (lookup_some hfound)
    rw [hfirst]
    exact h.lag

/-- ENC's next insertion is one ahead of a DEC that stood where ENC stood. -/
theorem DecUnit.CaughtUp.awaits (h : d.CaughtUp e) (hinv : SyncInv e.sync) {e' : EncUnit} {c : Byte}
    (hsync : e'.sync = e.sync.insert e.w c) (hw : e'.w = byteCode c) : d.Awaits e' where
  anom := h.anom
  stale := h.stale
  lag := by
    have hfirst : firstByte e'.sync.dict e'.w = c := by
      rw [hw, firstByte_singleton _ (byteCode_lt c)]
      simp [codeByte, byteCode]
    refine .inr ⟨h.run, h.sync ▸ hinv, ?_⟩
    rw [hfirst, h.sync, h.prior, hsync]

end

/-- ENC and DEC in a run over the bytes `xs`: of these DEC has emitted, onto the items `q`, all but the symbol of ENC's
`w`. -/
structure DecUnit.Trails (d : DecUnit) (e : EncUnit) (q : List (Item 8)) (xs : List Byte) : Prop where
  inv : EncInv e
  run : e.ctl.phase = .run
  awaits : d.Awaits e
  bytes : d.oq ++ (symbolOf e.sync.dict e.w).map .data = q ++ xs.map .data

theorem DecUnit.start_trails (d : DecUnit) (e : EncUnit) (c : Byte) :
    d.start.Trails (e.start.firstByteIn c) d.oq [c] where
  inv := (EncInv.start e).firstByteIn rfl c
  run := rfl
  awaits := ⟨rfl, rfl, .inl ⟨rfl, rfl, rfl⟩⟩
  bytes := congrArg (fun sym => d.oq ++ sym.map .data) (symbolOf_byteCode _ c)

namespace DecUnit.Trails
variable {d : DecUnit} {e : EncUnit} {q : List (Item 8)} {xs : List Byte}

/-- The code of `w` brings DEC level with ENC. -/
theorem onCode (h : d.Trails e q xs) :
    (d.onCode (codeOperand e.w)).CaughtUp e ∧ (d.onCode (codeOperand e.w)).oq = q ++ xs.map .data := by
  obtain ⟨hcaught, hoq⟩ := h.awaits.onCode (h.inv.wBound h.run)
  exact ⟨hcaught, hoq.trans h.bytes⟩

/-- One more byte: ENC extends its match and DEC waits, or ENC emits the code of `w` and DEC decodes it. -/
theorem onByte (h : d.Trails e q xs) (c : Byte) :
    ∃ ks : List Code, (e.onByte c).oq = e.oq ++ ks.map .data ∧ (d.onCodes ks).Trails (e.onByte c) q (xs ++ [c]) := by
  rw [EncUnit.onByte_of_run h.run]
  cases hlookup : lookup e.sync.dict e.w c with
  | some x =>
    rw [EncUnit.nextByteIn_of_found hlookup]
    refine ⟨[], by simp, h.inv.extended h.run hlookup _, h.run, h.awaits.extended h.inv.sync.entries hlookup _, ?_⟩
    have hsym : symbolOf e.sync.dict x = symbolOf e.sync.dict e.w ++ [c] :=
      h.inv.sync.entries.symbolOf_code (lookup_some hlookup)
    rw [DecUnit.onCodes_nil, hsym, List.map_append, List.map_append, ← List.append_assoc, h.bytes, List.append_assoc]
  | none =>
    obtain ⟨hcaught, hoq⟩ := h.onCode
    rw [EncUnit.nextByteIn_of_fresh hlookup h.inv.sync.overflow_eq_false]
    refine ⟨[e.w], rfl, h.inv.emitted h.run hlookup _ _ _, h.run, hcaught.awaits h.inv.sync rfl rfl, ?_⟩
    rw [DecUnit.onCodes_singleton, hoq, symbolOf_byteCode, List.append_assoc, List.map_append]

/-- Any more bytes, by induction on them. -/
theorem onBytes (h : d.Trails e q xs) (ys : List Byte) :
    ∃ ks : List Code, (ys.foldl EncUnit.onByte e).oq = e.oq ++ ks.map .data ∧
      (d.onCodes ks).Trails (ys.foldl EncUnit.onByte e) q (xs ++ ys) := by
  induction ys generalizing e d xs with
  | nil => exact ⟨[], by simp, by simpa using h⟩
  | cons c rest ih =>
    obtain ⟨ks, hoq, htrails⟩ := h.onByte c
    obtain ⟨ls, hoq', htrails'⟩ := ih htrails
    refine ⟨ks ++ ls, ?_, ?_⟩
    · rw [List.foldl_cons, hoq', hoq, List.map_append, List.append_assoc]
    · rw [List.foldl_cons, DecUnit.onCodes_append]
      simpa using htrails'

end DecUnit.Trails

/-! ### Whole runs -/

/-- Encoding and decoding a non-empty input: the final code, flushed by ENC.END, brings DEC level with ENC. -/
theorem encode_decode_cons (c : Byte) (xs : List Byte) {e : EncUnit} {d : DecUnit} (he : e.ctl.canStart = true)
    (hd : d.ctl.canStart = true) :
    ∃ ks : List Code,
      ((c :: xs).foldl EncUnit.onByte e.onStart).onEnd.oq = e.oq ++ ks.map .data ++ [.eos] ∧
      (d.onStart.onCodes ks).CaughtUp ((c :: xs).foldl EncUnit.onByte e.onStart).onEnd ∧
      (d.onStart.onCodes ks).oq = d.oq ++ (c :: xs).map .data := by
  obtain ⟨ks, hoq, htrails⟩ := (d.start_trails e c).onBytes xs
  obtain ⟨hcaught, hbytes⟩ := htrails.onCode
  rw [List.foldl_cons, EncUnit.onStart_of_canStart he, EncUnit.onByte_of_opened rfl,
    EncUnit.onEnd_of_run htrails.run, DecUnit.onStart_of_canStart hd]
  have hkept : (e.start.firstByteIn c).oq = e.oq := rfl
  refine ⟨ks ++ [(xs.foldl EncUnit.onByte (e.start.firstByteIn c)).w], ?_, ?_, ?_⟩
  · simp [EncUnit.finishRun, emit, hoq, hkept]
  · rw [DecUnit.onCodes_append, DecUnit.onCodes_singleton]
    exact ⟨hcaught.run, hcaught.anom, hcaught.stale, hcaught.sync, hcaught.prior⟩
  · rw [DecUnit.onCodes_append, DecUnit.onCodes_singleton]
    exact hbytes

/-- Settles O58: over a non-empty input DEC ends level with ENC; the empty one leaves both in OPEN, where ENC sends no
code and DEC.END faults. -/
theorem decodingAnEncoderRunGivesTheInput : Obligations.DecodingAnEncoderRunGivesTheInput := by
  intro xs s he hd
  cases xs with
  | nil =>
    refine ⟨[], _, execAll_encRun_decRun [] [] s, ?_, fun hne => absurd rfl hne, fun _ => ⟨rfl, ?_⟩⟩
    · rw [List.foldl_nil, EncUnit.onStart_of_canStart he, EncUnit.onEnd_of_opened rfl]
      simp [EncUnit.finishEmpty, emit, EncUnit.start]
    · rw [List.foldl_nil, DecUnit.onStart_of_canStart hd, DecUnit.onEnd_of_opened rfl]
      exact ⟨rfl, rfl, rfl, rfl⟩
  | cons c rest =>
    obtain ⟨ks, hcodes, hcaught, hbytes⟩ := encode_decode_cons c rest he hd
    refine ⟨ks, _, execAll_encRun_decRun (c :: rest) ks s, hcodes, fun _ => ?_, nofun⟩
    rw [DecUnit.onEnd_of_run hcaught.run]
    exact ⟨congrArg (emit · [.eos]) hbytes, rfl, rfl, hcaught.anom, hcaught.stale, congrArg Sync.nextCode hcaught.sync,
      congrArg Sync.epoch hcaught.sync⟩

end Sys2Proof.Machine
end

section
/-! Proofs about PACK's commands: the bytes they complete, the pad of an odd last code, and their frame (43_bitpacker.md
R161 to R165). -/

namespace Sys2Proof.Machine

/-! ### The packed layout in the source's shifts (30_encoding.md R93) -/

theorem packByte0_eq_shift (k : Code) : packByte0 k = (k >>> 4).setWidth 8 :=
  BitVec.setWidth_ushiftRight_eq_extractLsb.symm

theorem heldNibble_eq_setWidth (k : Code) : heldNibble k = k.setWidth 4 :=
  (BitVec.setWidth_eq_extractLsb' (by decide)).symm

theorem packByte2_eq_setWidth (k : Code) : packByte2 k = k.setWidth 8 :=
  (BitVec.setWidth_eq_extractLsb' (by decide)).symm

theorem packByte1_eq_shift (nib : BitVec 4) (k : Code) :
    packByte1 nib k = (nib.setWidth 8 <<< 4) ||| (k >>> 8).setWidth 8 := by
  refine BitVec.eq_of_getLsbD_eq fun i hi => ?_
  rw [packByte1, BitVec.getLsbD_append]
  by_cases hlow : i < 4
  · simp [hlow, hi]
  · have : k.getLsbD (8 + i) = false := BitVec.getLsbD_of_ge k _ (by omega)
    simp [hlow, hi, this]

/-- The pad stands where the high bits of a code 0 would. -/
theorem padByte_eq_packByte1 (nib : BitVec 4) : padByte nib = packByte1 nib 0#12 := rfl

theorem padByte_eq_shift (nib : BitVec 4) : padByte nib = nib.setWidth 8 <<< 4 := by
  rw [padByte_eq_packByte1, packByte1_eq_shift]
  simp

/-! ### PACK's commands in RUN -/

section
variable {p : PackUnit} {k : Code}

theorem PackUnit.onCode_of_even (hph : p.ctl.phase = .run) (hhold : p.hold = false) :
    p.onCode k = p.evenCodeIn k := by
  simp [onCode, hph, hhold]

theorem PackUnit.onCode_of_odd (hph : p.ctl.phase = .run) (hhold : p.hold = true) :
    p.onCode k = p.oddCodeIn k := by
  simp [onCode, hph, hhold]

theorem PackUnit.onEnd_of_even (hph : p.ctl.phase = .run) (hhold : p.hold = false) : p.onEnd = p.finishEven := by
  simp [onEnd, hph, hhold]

theorem PackUnit.onEnd_of_odd (hph : p.ctl.phase = .run) (hhold : p.hold = true) : p.onEnd = p.finishOdd := by
  simp [onEnd, hph, hhold]

end

/-- Settles O29: the position's parity, kept in `hold`, decides which bytes the code completes. -/
theorem packCodeEmitsTheBytesItCompletes : Obligations.PackCodeEmitsTheBytesItCompletes := by
  refine fun k s hph => ⟨fun hhold => ?_, fun hhold => ?_⟩
  · rw [exec_packCode, PackUnit.onCode_of_even hph hhold, PackUnit.evenCodeIn, packByte0_eq_shift,
      heldNibble_eq_setWidth]
    rfl
  · rw [exec_packCode, PackUnit.onCode_of_odd hph hhold, PackUnit.oddCodeIn, packByte1_eq_shift,
      packByte2_eq_setWidth]
    rfl

/-- Settles O30: only a held nibble leaves a byte to complete. -/
theorem packEndPadsTheOddCode : Obligations.PackEndPadsTheOddCode := by
  refine fun s hph => ⟨fun hhold => ?_, fun hhold => ?_⟩
  · rw [exec_packEnd, PackUnit.onEnd_of_odd hph hhold, PackUnit.finishOdd, padByte_eq_shift]
    rfl
  · rw [exec_packEnd, PackUnit.onEnd_of_even hph hhold]
    rfl

/-! ### The frame of PACK's commands -/

section
variable {i : Instr} {p p' : PackUnit}

theorem exec_pack_frame {s t : State} (hi : i.unit? = some .pack) (h : exec i s = .next t) :
    t = { s with pack := t.pack } := by
  cases i <;> cases hi <;> cases h <;> rfl

theorem PackUnit.Reacts.oq_of_start (h : p.Reacts .packStart p') : p'.oq = p.oq := by cases h <;> rfl

theorem PackUnit.Reacts.inCodes_of_end (h : p.Reacts .packEnd p') : p'.inCodes = p.inCodes := by cases h <;> rfl

theorem PackUnit.Reacts.done_of_code {k : Code} (h : p.Reacts (.packCode k) p') : p'.ctl.done = p.ctl.done := by
  cases h <;> rfl

/-- Outside RUN a code can only fault (43_bitpacker.md R165). -/
theorem PackUnit.Reacts.kept_by_code {k : Code} (h : p.Reacts (.packCode k) p') (hph : p.ctl.phase ≠ .run) :
    { p' with ctl := p.ctl } = p := by
  cases h with
  | other | dropped | outOfSequence => rfl
  | evenCode hrun | oddCode hrun => exact absurd hrun hph

end

/-- Settles O49, from the outcomes of PACK's commands. -/
theorem packCommandsFrame : Obligations.PackCommandsFrame := by
  intro i s t hi h
  have hreacts : s.pack.Reacts i t.pack := exec_pack_reacts h
  refine ⟨exec_pack_frame hi h, hreacts.cmdq_eq, hreacts.oq_prefix, ?_, ?_, ?_⟩
  · rintro rfl
    exact hreacts.oq_of_start
  · rintro rfl
    exact hreacts.inCodes_of_end
  · rintro k rfl
    exact ⟨hreacts.done_of_code, hreacts.kept_by_code⟩

end Sys2Proof.Machine
end

section
/-! Proofs about PACK runs: the bytes are the packed stream of the codes, and UNPK recovers the codes from them
(43_bitpacker.md R167 to R169, 44_bitunpacker.md R185). -/

namespace Sys2Proof.Machine

open Assembler

/-! ### The packed stream, group by group (30_encoding.md R93, R94) -/

theorem shiftLeft_setWidth_eq_heldNibble (c : Code) : (c <<< 4).setWidth 8 = (heldNibble c).setWidth 8 <<< 4 := by
  rw [heldNibble_eq_setWidth]
  refine BitVec.eq_of_toNat_eq ?_
  simp only [BitVec.toNat_setWidth, BitVec.toNat_shiftLeft, Nat.shiftLeft_eq]
  omega

/-- The last code of an odd sequence. -/
theorem packedStream_singleton (c : Code) : packedStream [c] = [packByte0 c, padByte (heldNibble c)] := by
  rw [packedStream, shiftLeft_setWidth_eq_heldNibble, ← packByte0_eq_shift, ← padByte_eq_shift]

/-- A group of two codes. -/
theorem packedStream_cons_cons (c₀ c₁ : Code) (cs : List Code) :
    packedStream (c₀ :: c₁ :: cs) =
      [packByte0 c₀, packByte1 (heldNibble c₀) c₁, packByte2 c₁] ++ packedStream cs := by
  rw [packedStream, shiftLeft_setWidth_eq_heldNibble, ← packByte0_eq_shift, ← packByte1_eq_shift,
    ← packByte2_eq_setWidth]
  rfl

theorem packedStream_length (cs : List Code) : (packedStream cs).length = packedLength cs.length := by
  induction cs using packedStream.induct with
  | case1 => rfl
  | case2 c => simp [packedStream_singleton, packedLength]
  | case3 c₀ c₁ rest ih =>
    rw [packedStream_cons_cons, List.length_append, ih]
    simp only [packedLength, List.length_cons, List.length_nil]
    omega

/-! ### Queues and counts over several steps -/

theorem emit_emit {n : Nat} (q xs ys : List (Item n)) : emit (emit q xs) ys = emit q (xs ++ ys) :=
  List.append_assoc ..

theorem bump_zero (n : Word) : bump n 0 = n := BitVec.add_zero n

theorem bump_bump (n : Word) (j k : Nat) : bump (bump n j) k = bump n (j + k) := by
  rw [bump, bump, bump, BitVec.add_assoc, BitVec.ofNat_add]

/-! ### A run as one function of its unit -/

theorem execAll_packCodes (cs : List Code) (s : State) :
    execAll (packCodes cs) s = .next { s with pack := cs.foldl PackUnit.onCode s.pack } := by
  induction cs generalizing s with
  | nil => rfl
  | cons c rest ih => exact ih { s with pack := s.pack.onCode c }

theorem execAll_packStart_packCodes (cs : List Code) (s : State) :
    execAll (.packStart :: packCodes cs) s = .next { s with pack := cs.foldl PackUnit.onCode s.pack.onStart } :=
  execAll_packCodes cs { s with pack := s.pack.onStart }

theorem execAll_packRun (cs : List Code) (s : State) :
    execAll (packRun cs) s = .next { s with pack := (cs.foldl PackUnit.onCode s.pack.onStart).onEnd } := by
  rw [packRun, ← List.cons_append, execAll_append, execAll_packStart_packCodes]
  rfl

theorem execAll_unpkBytes (bs : List Byte) (s : State) :
    execAll (unpkBytes bs) s = .next { s with unpk := bs.foldl UnpkUnit.onByte s.unpk } := by
  induction bs generalizing s with
  | nil => rfl
  | cons b rest ih => exact ih { s with unpk := s.unpk.onByte b }

theorem execAll_unpkRun (n : BitVec 24) (bs : List Byte) (s : State) :
    execAll (unpkRun n bs) s = .next { s with unpk := (bs.foldl UnpkUnit.onByte (s.unpk.onStart n)).onEnd } := by
  rw [unpkRun, execAll, exec_unpkStart]
  dsimp only
  rw [execAll_append, execAll_unpkBytes]
  rfl

/-! ### PACK in RUN -/

section
variable {p : PackUnit}

/-- A code at an even position and the next one complete a group of three bytes (43_bitpacker.md R162, R163). -/
theorem PackUnit.onCode_onCode (c₀ c₁ : Code) (hph : p.ctl.phase = .run) (hhold : p.hold = false)
    (hnib : p.nib = 0#4) :
    (p.onCode c₀).onCode c₁ =
      { p with oq := emit p.oq ([packByte0 c₀, packByte1 (heldNibble c₀) c₁, packByte2 c₁].map .data),
               inCodes := bump p.inCodes 2, outBytes := bump p.outBytes 3 } := by
  rw [onCode_of_even hph hhold, onCode_of_odd (p := p.evenCodeIn c₀) hph rfl]
  simp [evenCodeIn, oddCodeIn, emit_emit, bump_bump, hhold, hnib]

/-- A code at an even position that END finds alone is padded (43_bitpacker.md R162, R164). -/
theorem PackUnit.onCode_onEnd (c : Code) (hph : p.ctl.phase = .run) (hhold : p.hold = false) (hnib : p.nib = 0#4) :
    (p.onCode c).onEnd =
      { p with oq := emit p.oq ([packByte0 c, padByte (heldNibble c)].map .data ++ [.eos]),
               inCodes := bump p.inCodes 1, outBytes := bump p.outBytes 2, ctl := p.ctl.finish } := by
  rw [onCode_of_even hph hhold, onEnd_of_odd (p := p.evenCodeIn c) hph rfl]
  simp [evenCodeIn, finishOdd, emit_emit, bump_bump, hhold, hnib]

/-- Before END a nibble is held exactly when the number of codes is odd (43_bitpacker.md R168). -/
theorem PackUnit.foldl_onCode_hold (cs : List Code) (hph : p.ctl.phase = .run) (hhold : p.hold = false)
    (hnib : p.nib = 0#4) :
    (cs.foldl onCode p).ctl.phase = .run ∧ (cs.foldl onCode p).hold = decide (cs.length % 2 = 1) := by
  induction cs using packedStream.induct generalizing p with
  | case1 => exact ⟨hph, hhold⟩
  | case2 c =>
    rw [List.foldl_cons, onCode_of_even hph hhold]
    exact ⟨hph, rfl⟩
  | case3 c₀ c₁ rest ih =>
    have hparity : (c₀ :: c₁ :: rest).length % 2 = rest.length % 2 := Nat.add_mod_right rest.length 2
    rw [List.foldl_cons, List.foldl_cons, onCode_onCode c₀ c₁ hph hhold hnib, hparity]
    exact ih hph hhold hnib

/-- All codes of a run and its END, from an even position. -/
theorem PackUnit.foldl_onCode_onEnd (cs : List Code) (hph : p.ctl.phase = .run) (hhold : p.hold = false)
    (hnib : p.nib = 0#4) :
    (cs.foldl onCode p).onEnd =
      { p with oq := emit p.oq ((packedStream cs).map .data ++ [.eos]), inCodes := bump p.inCodes cs.length,
               outBytes := bump p.outBytes (packedStream cs).length, ctl := p.ctl.finish } := by
  induction cs using packedStream.induct generalizing p with
  | case1 => simp [onEnd_of_even hph hhold, finishEven, packedStream, bump_zero]
  | case2 c =>
    rw [packedStream_singleton]
    exact onCode_onEnd c hph hhold hnib
  | case3 c₀ c₁ rest ih =>
    rw [List.foldl_cons, List.foldl_cons, onCode_onCode c₀ c₁ hph hhold hnib, packedStream_cons_cons]
    simp [ih, hph, hhold, hnib, emit_emit, bump_bump, Nat.add_comm 2, Nat.add_comm 3]

end

/-- The whole run of PACK from a state in which it can start. -/
theorem execAll_packRun_of_canStart (cs : List Code) {s : State} (hstart : s.pack.ctl.canStart = true) :
    execAll (packRun cs) s = .next { s with pack := { s.pack.start with
      oq := emit s.pack.oq ((packedStream cs).map .data ++ [.eos]), inCodes := BitVec.ofNat 32 cs.length,
      outBytes := BitVec.ofNat 32 (packedStream cs).length, ctl := s.pack.start.ctl.finish } } := by
  rw [execAll_packRun, PackUnit.onStart_of_canStart hstart, PackUnit.foldl_onCode_onEnd cs rfl rfl rfl]
  simp [PackUnit.start, bump]

/-- Settles O53, from the run's effect on PACK as a whole. -/
theorem packRunEmitsThePackedStream : Obligations.PackRunEmitsThePackedStream := by
  intro cs s hstart
  refine ⟨⟨_, execAll_packStart_packCodes cs s, ?_⟩, _, execAll_packRun_of_canStart cs hstart, ?_⟩
  · rw [PackUnit.onStart_of_canStart hstart]
    exact PackUnit.foldl_onCode_hold cs rfl rfl rfl
  · exact ⟨(List.append_assoc ..).symm, packedStream_length cs, rfl, by rw [packedStream_length], rfl, rfl, rfl, rfl⟩

/-! ### What UNPK makes of a packed group -/

theorem unpackCode0_packByte (c₀ c₁ : Code) : unpackCode0 (packByte0 c₀) (packByte1 (heldNibble c₀) c₁) = c₀ := by
  have hnib : (packByte1 (heldNibble c₀) c₁).extractLsb' 4 4 = heldNibble c₀ := BitVec.extractLsb'_append_eq_left
  rw [unpackCode0, hnib]
  exact (BitVec.extractLsb'_append_extractLsb'_eq_extractLsb' rfl).trans BitVec.extractLsb'_eq_self

theorem extractLsb'_carriedNibble (b : Byte) : (carriedNibble b).extractLsb' 0 4 = b.extractLsb' 0 4 := by
  rw [carriedNibble, BitVec.extractLsb'_setWidth_of_le (by decide)]
  simp

theorem unpackCode1_packByte (nib : BitVec 4) (c : Code) :
    unpackCode1 (carriedNibble (packByte1 nib c)) (packByte2 c) = c := by
  have hhigh : (packByte1 nib c).extractLsb' 0 4 = c.extractLsb' 8 4 := BitVec.extractLsb'_append_eq_right
  rw [unpackCode1, extractLsb'_carriedNibble, hhigh]
  exact (BitVec.extractLsb'_append_extractLsb'_eq_extractLsb' rfl).trans BitVec.extractLsb'_eq_self

/-! ### UNPK in RUN -/

section
variable {p : UnpkUnit} {b : Byte}

theorem UnpkUnit.onByte_of_byte0 (hph : p.ctl.phase = .run) (hpos : p.pos = .byte0)
    (hcount : p.produced ≠ p.expected) :
    p.onByte b = { p with acc := b, pos := .byte1, inBytes := bump p.inBytes 1 } := by
  simp [onByte, byteIn, byte0In, hph, hpos, hcount]

theorem UnpkUnit.onByte_of_byte1 (hph : p.ctl.phase = .run) (hpos : p.pos = .byte1) : p.onByte b = p.byte1In b := by
  simp [onByte, byteIn, hph, hpos]

theorem UnpkUnit.onByte_of_byte2 (hph : p.ctl.phase = .run) (hpos : p.pos = .byte2) : p.onByte b = p.byte2In b := by
  simp [onByte, byteIn, hph, hpos]

theorem UnpkUnit.onEnd_of_complete (hph : p.ctl.phase = .run) (hpos : p.pos = .byte0)
    (hcount : p.produced = p.expected) : p.onEnd = { p with oq := emit p.oq [.eos], ctl := p.ctl.finish } := by
  simp [onEnd, endIn, hph, hpos, hcount]

/-- The last group of an odd count: two bytes, one code (44_bitunpacker.md R177, R178). -/
theorem UnpkUnit.foldl_onByte_last (b₀ b₁ : Byte) (hph : p.ctl.phase = .run) (hpos : p.pos = .byte0)
    (hacc : p.acc = 0#8) (hcount : p.produced.toNat + 1 = p.expected.toNat) :
    [b₀, b₁].foldl onByte p =
      { p with oq := emit p.oq [.data (unpackCode0 b₀ b₁)], produced := p.produced + 1#24,
               inBytes := bump p.inBytes 2 } := by
  have hbelow : p.produced ≠ p.expected := by bv_omega
  have hlast : p.produced + 1#24 = p.expected := by bv_omega
  rw [List.foldl_cons, onByte_of_byte0 hph hpos hbelow]
  simp [onByte_of_byte1, byte1In_of_last, bump_bump, hph, hlast, hpos, hacc]

/-- A full group: three bytes, two codes (44_bitunpacker.md R177 to R179). -/
theorem UnpkUnit.foldl_onByte_group (b₀ b₁ b₂ : Byte) (hph : p.ctl.phase = .run) (hpos : p.pos = .byte0)
    (hacc : p.acc = 0#8) (hcount : p.produced.toNat + 2 ≤ p.expected.toNat) :
    [b₀, b₁, b₂].foldl onByte p =
      { p with oq := emit p.oq [.data (unpackCode0 b₀ b₁), .data (unpackCode1 (carriedNibble b₁) b₂)],
               produced := p.produced + 2#24, inBytes := bump p.inBytes 3 } := by
  have hbelow : p.produced ≠ p.expected := by bv_omega
  have hnotLast : p.produced + 1#24 ≠ p.expected := by bv_omega
  rw [List.foldl_cons, onByte_of_byte0 hph hpos hbelow]
  simp [onByte_of_byte1, byte1In_of_not_last, onByte_of_byte2, byte2In, emit_emit, bump_bump, hph, hnotLast, hpos, hacc,
    BitVec.add_assoc]

/-- Given the packed stream of `cs` when `cs.length` codes are missing, UNPK emits `cs` and has its count. -/
theorem UnpkUnit.foldl_onByte_packedStream (cs : List Code) (hph : p.ctl.phase = .run) (hpos : p.pos = .byte0)
    (hacc : p.acc = 0#8) (hcount : p.produced.toNat + cs.length = p.expected.toNat) :
    (packedStream cs).foldl onByte p =
      { p with oq := emit p.oq (cs.map .data), produced := p.produced + BitVec.ofNat 24 cs.length,
               inBytes := bump p.inBytes (packedStream cs).length } := by
  induction cs using packedStream.induct generalizing p with
  | case1 => simp [packedStream, emit, bump_zero]
  | case2 c =>
    rw [packedStream_singleton, padByte_eq_packByte1, foldl_onByte_last _ _ hph hpos hacc hcount, unpackCode0_packByte]
    rfl
  | case3 c₀ c₁ rest ih =>
    simp only [List.length_cons] at hcount
    have hmissing : (p.produced + 2#24).toNat + rest.length = p.expected.toNat := by bv_omega
    rw [packedStream_cons_cons, List.foldl_append, foldl_onByte_group _ _ _ hph hpos hacc (by omega),
      unpackCode0_packByte, unpackCode1_packByte, ih (by exact hph) (by exact hpos) (by exact hacc) (by exact hmissing)]
    have hproduced :
        p.produced + 2#24 + BitVec.ofNat 24 rest.length = p.produced + BitVec.ofNat 24 (rest.length + 2) := by
      rw [Nat.add_comm, BitVec.ofNat_add, BitVec.add_assoc]
    simp [emit_emit, bump_bump, hproduced, Nat.add_comm 3]

end

/-- Settles O54: the bytes of PACK's run are the packed stream, which UNPK takes group by group. -/
theorem unpackingAPackRunGivesTheCodes : Obligations.UnpackingAPackRunGivesTheCodes := by
  intro cs s hlen hpack hunpk
  have hcount : 0 + cs.length = (BitVec.ofNat 24 cs.length).toNat := by
    rw [Nat.zero_add, BitVec.toNat_ofNat, Nat.mod_eq_of_lt hlen]
  have hbytes :=
    UnpkUnit.foldl_onByte_packedStream (p := s.unpk.start (BitVec.ofNat 24 cs.length)) cs rfl rfl rfl hcount
  refine ⟨packedStream cs, ?_⟩
  rw [execAll_append, execAll_packRun_of_canStart cs hpack, andThen, execAll_unpkRun]
  dsimp only
  rw [UnpkUnit.onStart_of_canStart hunpk, hbytes, UnpkUnit.onEnd_of_complete rfl rfl (BitVec.zero_add _)]
  exact ⟨_, rfl, (List.append_assoc ..).symm, rfl, rfl, rfl⟩

end Sys2Proof.Machine
end

section
/-! Proofs about UNPK's commands: the codes that a group's bytes complete, the check of the count at END, and their
frame (44_bitunpacker.md R176 to R181). -/

namespace Sys2Proof.Machine

/-! ### The slices in the source's shifts (44_bitunpacker.md R178, R179) -/

/-- Two fields side by side, in shifts. -/
theorem append_eq_shiftLeft_or {m n : Nat} (x : BitVec m) (y : BitVec n) :
    x ++ y = (x.setWidth (m + n) <<< n) ||| y.setWidth (m + n) := by
  rw [BitVec.append_def, BitVec.shiftLeftZeroExtend_eq, BitVec.setWidth'_eq]

theorem unpackCode0_eq_shift (a b : Byte) :
    unpackCode0 a b = (a.setWidth 12 <<< 4) ||| (b >>> 4).setWidth 12 := by
  have hnib : (b.extractLsb' 4 4).setWidth 12 = (b >>> 4).setWidth 12 := by
    refine BitVec.eq_of_toNat_eq ?_
    simp only [BitVec.toNat_setWidth, BitVec.extractLsb'_toNat, BitVec.toNat_ushiftRight, Nat.shiftRight_eq_div_pow]
    omega
  rw [unpackCode0, append_eq_shiftLeft_or, hnib]

theorem carriedNibble_eq_and (b : Byte) : carriedNibble b = b &&& 0x0F#8 := by
  have hmask : b.toNat &&& 15 = b.toNat % 16 := Nat.and_two_pow_sub_one_eq_mod b.toNat 4
  refine BitVec.eq_of_toNat_eq ?_
  simp only [carriedNibble, BitVec.toNat_setWidth, BitVec.extractLsb'_toNat, Nat.shiftRight_zero, BitVec.toNat_and,
    BitVec.toNat_ofNat, Nat.reduceMod, Nat.reducePow, hmask]
  omega

theorem unpackCode1_eq_shift (a b : Byte) : unpackCode1 a b = (a.setWidth 12 <<< 8) ||| b.setWidth 12 := by
  have hnib : (a.extractLsb' 0 4).setWidth 12 <<< 8 = a.setWidth 12 <<< 8 := by
    refine BitVec.eq_of_toNat_eq ?_
    simp only [BitVec.toNat_shiftLeft, BitVec.toNat_setWidth, BitVec.extractLsb'_toNat, Nat.shiftRight_zero,
      Nat.shiftLeft_eq]
    omega
  rw [unpackCode1, append_eq_shiftLeft_or, hnib]

/-- The word of UNPK.BYTE (30_encoding.md R83). -/
theorem encode_unpkByte (b : Byte) : encode (.unpkByte b) = 0x410000#24 ++ b :=
  calc encode (.unpkByte b)
      = 0x41#8 ++ (0#16 ++ b) := congrArg (0x41#8 ++ ·) (BitVec.setWidth_eq_append (by decide))
    _ = (0x41#8 ++ 0#16) ++ b := BitVec.append_assoc.symm
    _ = 0x410000#24 ++ b := rfl

/-! ### UNPK's commands in RUN -/

section
variable {p : UnpkUnit}

theorem UnpkUnit.onByte_of_excess {b : Byte} (hph : p.ctl.phase = .run) (hpos : p.pos = .byte0)
    (hcount : p.produced = p.expected) : p.onByte b = p.fault .excess (encode (.unpkByte b)) := by
  simp [onByte, byteIn, byte0In, hph, hpos, hcount]

theorem UnpkUnit.onEnd_of_incomplete (hph : p.ctl.phase = .run) (hcount : p.pos ≠ .byte0 ∨ p.produced ≠ p.expected) :
    p.onEnd = p.fault .truncated (encode .unpkEnd) := by
  simp only [onEnd, endIn, hph, if_pos hcount]

end

/-- Settles O31: the position, and at positions 0 and 1 the count, decide what the byte completes. -/
theorem unpkByteRecoversTheCodes : Obligations.UnpkByteRecoversTheCodes := by
  refine fun b s hph => ⟨fun hpos hcount => ?_, fun hpos hcount => ?_, fun hpos hlast => ?_, fun hpos hlast => ?_,
    fun hpos => ?_⟩
  · rw [exec_unpkByte, UnpkUnit.onByte_of_excess hph hpos hcount, encode_unpkByte]
    rfl
  · rw [exec_unpkByte, UnpkUnit.onByte_of_byte0 hph hpos hcount]
    rfl
  · rw [exec_unpkByte, UnpkUnit.onByte_of_byte1 hph hpos, UnpkUnit.byte1In_of_last b hlast, unpackCode0_eq_shift]
    rfl
  · rw [exec_unpkByte, UnpkUnit.onByte_of_byte1 hph hpos, UnpkUnit.byte1In_of_not_last b hlast, unpackCode0_eq_shift,
      carriedNibble_eq_and]
    rfl
  · rw [exec_unpkByte, UnpkUnit.onByte_of_byte2 hph hpos, UnpkUnit.byte2In, unpackCode1_eq_shift]
    rfl

/-- Settles O32: END closes the run exactly between groups and at the count. -/
theorem unpkEndChecksTheCount : Obligations.UnpkEndChecksTheCount := by
  refine fun s hph => ⟨fun hcount => ?_, fun hpos hcount => ?_⟩
  · rw [exec_unpkEnd, UnpkUnit.onEnd_of_incomplete hph hcount]
    rfl
  · rw [exec_unpkEnd, UnpkUnit.onEnd_of_complete hph hpos hcount]
    rfl

/-! ### The frame of UNPK's commands -/

section
variable {i : Instr} {p p' : UnpkUnit}

theorem exec_unpk_frame {s t : State} (hi : i.unit? = some .unpk) (h : exec i s = .next t) :
    t = { s with unpk := t.unpk } := by
  cases i <;> cases hi <;> cases h <;> rfl

theorem UnpkUnit.Reacts.oq_of_start {n : BitVec 24} (h : p.Reacts (.unpkStart n) p') : p'.oq = p.oq := by
  cases h <;> rfl

theorem UnpkUnit.Reacts.kept_by_end (h : p.Reacts .unpkEnd p') :
    p'.expected = p.expected ∧ p'.produced = p.produced ∧ p'.pos = p.pos ∧ p'.acc = p.acc ∧
      p'.inBytes = p.inBytes := by
  cases h <;> exact ⟨rfl, rfl, rfl, rfl, rfl⟩

theorem UnpkUnit.Reacts.kept_by_byte {b : Byte} (h : p.Reacts (.unpkByte b) p') :
    p'.expected = p.expected ∧ p'.ctl.done = p.ctl.done := by
  cases h <;> exact ⟨rfl, rfl⟩

end

/-- Settles O50, from the outcomes of UNPK's commands. -/
theorem unpkCommandsFrame : Obligations.UnpkCommandsFrame := by
  intro i s t hi h
  have hreacts : s.unpk.Reacts i t.unpk := exec_unpk_reacts h
  refine ⟨exec_unpk_frame hi h, hreacts.cmdq_eq, hreacts.oq_prefix, ?_, ?_, ?_⟩
  · rintro n rfl
    exact hreacts.oq_of_start
  · rintro rfl
    exact hreacts.kept_by_end
  · rintro b rfl
    exact hreacts.kept_by_byte

end Sys2Proof.Machine
end

section
/-! Proofs about UNPK runs on bytes of any values: how many bytes a run of a given count takes, and what it does with
more and with fewer (44_bitunpacker.md R183). -/

namespace Sys2Proof.Machine

/-! ### L(n), code by code (30_encoding.md R94) -/

theorem packedLength_strictMono : StrictMono packedLength :=
  strictMono_nat_of_lt_succ fun n => by unfold packedLength; omega

theorem packedLength_succ_of_even {n : Nat} (h : n % 2 = 0) : packedLength (n + 1) = packedLength n + 2 := by
  unfold packedLength
  omega

theorem packedLength_succ_of_odd {n : Nat} (h : n % 2 = 1) : packedLength (n + 1) = packedLength n + 1 := by
  unfold packedLength
  omega

/-! ### UNPK inside a run -/

namespace UnpkUnit

/-- How many bytes UNPK has taken in its run: `L(produced)`, and at position 1 the byte 0 that waits for the rest of
its code. -/
def takenBytes (p : UnpkUnit) : Nat :=
  packedLength p.produced.toNat + if p.pos = .byte1 then 1 else 0

theorem takenBytes_of_byte1 {p : UnpkUnit} (hpos : p.pos = .byte1) :
    p.takenBytes = packedLength p.produced.toNat + 1 := by
  simp [takenBytes, hpos]

theorem takenBytes_of_ne_byte1 {p : UnpkUnit} (hpos : p.pos ≠ .byte1) :
    p.takenBytes = packedLength p.produced.toNat := by
  simp [takenBytes, hpos]

theorem byte1In_pos_ne_byte1 (p : UnpkUnit) (b : Byte) : (p.byte1In b).pos ≠ .byte1 := by
  by_cases hlast : p.produced + 1#24 = p.expected
  · simp [byte1In_of_last b hlast]
  · simp [byte1In_of_not_last b hlast]

/-- UNPK inside a run of count `n` that found `q` in the output queue and has taken `k` bytes. -/
structure HasTaken (p : UnpkUnit) (q : List (Item 12)) (n : BitVec 24) (k : Nat) : Prop where
  inv : UnpkInv p
  run : p.ctl.phase = .run
  expected : p.expected = n
  taken : p.takenBytes = k
  emitted : ∃ cs : List Code, cs.length = p.produced.toNat ∧ p.oq = q ++ cs.map .data

namespace HasTaken
variable {p : UnpkUnit} {q : List (Item 12)} {n : BitVec 24} {k : Nat}

theorem start (p : UnpkUnit) (n : BitVec 24) : (p.start n).HasTaken p.oq n 0 where
  inv := UnpkInv.start p n
  run := rfl
  expected := rfl
  taken := by simp [takenBytes, UnpkUnit.start, packedLength]
  emitted := ⟨[], rfl, (List.append_nil _).symm⟩

/-- A byte with which the run goes on, completing the codes `new`. -/
theorem onByte_of_run (h : p.HasTaken q n k) (b : Byte) (new : List Code) (hrun : (p.onByte b).ctl.phase = .run)
    (htaken : (p.onByte b).takenBytes = p.takenBytes + 1)
    (hproduced : (p.onByte b).produced.toNat = p.produced.toNat + new.length)
    (hoq : (p.onByte b).oq = emit p.oq (new.map .data)) : (p.onByte b).HasTaken q n (k + 1) := by
  obtain ⟨cs, hlen, hq⟩ := h.emitted
  exact {
    inv := h.inv.reacts (p.onByte_reacts b)
    run := hrun
    expected := (p.onByte_reacts b).kept_by_byte.1.trans h.expected
    taken := by rw [htaken, h.taken]
    emitted := ⟨cs ++ new, by rw [List.length_append, hlen, hproduced], by
      rw [hoq, hq, emit, List.append_assoc, List.map_append]⟩ }

/-- After fewer than `L(n)` bytes UNPK is inside a group or short of its count. -/
theorem incomplete (h : p.HasTaken q n k) (hk : k < packedLength n.toNat) :
    p.pos ≠ .byte0 ∨ p.produced ≠ p.expected := by
  by_contra! hdone
  obtain ⟨hpos, hall⟩ := hdone
  have htaken := h.taken
  rw [takenBytes_of_ne_byte1 (by simp [hpos]), hall, h.expected] at htaken
  omega

/-- Below `L(n)` bytes every byte is taken, whatever its value. -/
theorem onByte (h : p.HasTaken q n k) (hk : k < packedLength n.toNat) (b : Byte) :
    (p.onByte b).HasTaken q n (k + 1) := by
  cases hpos : p.pos with
  | byte0 =>
    have hbelow : p.produced ≠ p.expected := (h.incomplete hk).resolve_left (by simp [hpos])
    have heq := onByte_of_byte0 (b := b) h.run hpos hbelow
    refine h.onByte_of_run b [] ?_ ?_ ?_ ?_ <;> rw [heq]
    · exact h.run
    · rw [takenBytes_of_byte1 rfl, takenBytes_of_ne_byte1 (by simp [hpos])]
    · rfl
    · exact (List.append_nil _).symm
  | byte1 =>
    obtain ⟨heven, hlt⟩ := h.inv.atByte1 hpos
    have hproduced : (p.byte1In b).produced.toNat = p.produced.toNat + 1 := UnpkInv.produced_succ hlt
    refine h.onByte_of_run b [unpackCode0 p.acc b] ?_ ?_ ?_ ?_ <;> rw [onByte_of_byte1 h.run hpos]
    · exact h.run
    · rw [takenBytes_of_ne_byte1 (p.byte1In_pos_ne_byte1 b), hproduced, packedLength_succ_of_even heven,
        takenBytes_of_byte1 hpos]
    · exact hproduced
    · rfl
  | byte2 =>
    obtain ⟨-, hodd, hlt⟩ := h.inv.atByte2 hpos
    have hproduced : (p.byte2In b).produced.toNat = p.produced.toNat + 1 := UnpkInv.produced_succ hlt
    refine h.onByte_of_run b [unpackCode1 p.acc b] ?_ ?_ ?_ ?_ <;> rw [onByte_of_byte2 h.run hpos]
    · exact h.run
    · rw [takenBytes_of_ne_byte1 (p := p.byte2In b) nofun, hproduced, packedLength_succ_of_odd hodd,
        takenBytes_of_ne_byte1 (by simp [hpos])]
    · exact hproduced
    · rfl

theorem onBytes (h : p.HasTaken q n k) (bs : List Byte) (hk : k + bs.length ≤ packedLength n.toNat) :
    (bs.foldl UnpkUnit.onByte p).HasTaken q n (k + bs.length) := by
  induction bs generalizing p k with
  | nil => exact h
  | cons b rest ih =>
    rw [List.length_cons, ← Nat.succ_add_eq_add_succ] at hk ⊢
    exact ih (h.onByte (by omega) b) hk

theorem onBytes_of_start (p : UnpkUnit) (bs : List Byte) (hlen : bs.length ≤ packedLength n.toNat) :
    (bs.foldl UnpkUnit.onByte (p.start n)).HasTaken p.oq n bs.length := by
  rw [← Nat.zero_add bs.length] at hlen ⊢
  exact (start p n).onBytes bs hlen

/-- After `L(n)` bytes UNPK is between groups and has its count. -/
theorem complete (h : p.HasTaken q n (packedLength n.toNat)) : p.pos = .byte0 ∧ p.produced = p.expected := by
  have htaken := h.taken
  rw [← h.expected] at htaken
  cases hpos : p.pos with
  | byte0 =>
    rw [takenBytes_of_ne_byte1 (by simp [hpos])] at htaken
    exact ⟨rfl, BitVec.eq_of_toNat_eq (packedLength_strictMono.injective htaken)⟩
  | byte1 =>
    obtain ⟨heven, hlt⟩ := h.inv.atByte1 hpos
    have hnext : packedLength (p.produced.toNat + 1) ≤ packedLength p.expected.toNat :=
      packedLength_strictMono.monotone hlt
    rw [packedLength_succ_of_even heven] at hnext
    rw [takenBytes_of_byte1 hpos] at htaken
    omega
  | byte2 =>
    obtain ⟨-, -, hlt⟩ := h.inv.atByte2 hpos
    rw [takenBytes_of_ne_byte1 (by simp [hpos])] at htaken
    exact absurd htaken (packedLength_strictMono hlt).ne

end HasTaken

/-! ### The three ends of a run -/

/-- In FAULT every byte and the END are dropped (44_bitunpacker.md R181). -/
theorem foldl_onByte_onEnd_of_fault {p : UnpkUnit} (hph : p.ctl.phase = .fault) (bs : List Byte) :
    (bs.foldl onByte p).onEnd = p := by
  induction bs with
  | nil => simp [onEnd, hph]
  | cons b rest ih =>
    have hdropped : p.onByte b = p := by simp [onByte, hph]
    rw [List.foldl_cons, hdropped, ih]

end UnpkUnit

/-- Settles O55: below `L(N)` bytes the run goes on, at `L(N)` the count is reached, and one byte more exceeds it. -/
theorem unpackRunAcceptsExactlyTheRightLength : Obligations.UnpackRunAcceptsExactlyTheRightLength := by
  intro n bs s hstart
  refine ⟨_, execAll_unpkRun n bs s, ?_⟩
  dsimp only
  rw [UnpkUnit.onStart_of_canStart hstart]
  refine ⟨fun hexact => ?_, fun hlong => ?_, fun hshort => ?_⟩
  · have h := UnpkUnit.HasTaken.onBytes_of_start s.unpk bs hexact.le
    obtain ⟨hpos, hcount⟩ := (hexact ▸ h).complete
    obtain ⟨cs, hlen, hoq⟩ := h.emitted
    rw [UnpkUnit.onEnd_of_complete h.run hpos hcount]
    exact ⟨rfl, rfl, cs, by rw [hlen, hcount, h.expected], congrArg (emit · [.eos]) hoq⟩
  · obtain ⟨xs, b, ys, hlen, rfl⟩ : ∃ xs b ys, xs.length = packedLength n.toNat ∧ bs = xs ++ b :: ys :=
      ⟨bs.take (packedLength n.toNat), bs[packedLength n.toNat], bs.drop (packedLength n.toNat + 1),
        List.length_take_of_le hlong.le, by simp⟩
    have h := UnpkUnit.HasTaken.onBytes_of_start s.unpk xs hlen.le
    obtain ⟨hpos, hcount⟩ := (hlen ▸ h).complete
    rw [List.foldl_append, List.foldl_cons, UnpkUnit.onByte_of_excess h.run hpos hcount,
      UnpkUnit.foldl_onByte_onEnd_of_fault rfl]
    exact ⟨rfl, rfl, rfl, b, by simp [← hlen], encode_unpkByte b⟩
  · have h := UnpkUnit.HasTaken.onBytes_of_start s.unpk bs hshort.le
    rw [UnpkUnit.onEnd_of_incomplete h.run (h.incomplete hshort)]
    exact ⟨rfl, rfl, rfl, rfl⟩

end Sys2Proof.Machine
end

section
/-! Proofs about the rules that all units share: the unit step and its dispatch, the two handshakes, `nop`, and what
takes a unit out of FAULT (45_common.md R191 to R195; 60_exceptions.md R209 to R211). -/

namespace Sys2Proof.Machine

/-! ### The next move -/

theorem step_of_scheduled {s : State} {m : Move} {rest : List Move} (h : s.host.schedule = m :: rest) :
    step s = doMove m (s.setSchedule rest) := by
  simp [step, moveNext, h]

theorem step_of_autoMove {s : State} {m : Move} (h : s.host.schedule = []) (hm : s.autoMove = some m) :
    step s = doMove m s := by
  simp [step, moveNext, h, hm]

theorem step_of_no_move {s : State} (h : s.host.schedule = []) (hm : s.autoMove = none) : step s = .next s := by
  simp [step, moveNext, h, hm]

/-! ### The unit step -/

section
variable {u : UnitId} {w : Word} {s : State}

theorem execWord_of_cmd {i : Instr} (h : decodeCmd u w = .cmd i) : execWord u w s = exec i s := by
  rw [execWord, h]

theorem execWord_eq_takeIllegal {e : DecodeError} (h : decodeCmd u w = .illegal e) :
    execWord u w s = .next (s.takeIllegal u e w) := by
  rw [execWord, h]

/-- No unit step reads the schedule. -/
theorem State.agreesOn_setSchedule (u : UnitId) (s : State) (l : List Move) : AgreesOn u s (s.setSchedule l) :=
  ⟨by cases u <;> rfl, rfl, rfl⟩

/-- A scheduled unit step that is enabled takes the head word off its queue and executes it. -/
theorem step_of_scheduled_unitStep {rest : List Move} {ws : List Word} (hs : s.host.schedule = .unitStep u :: rest)
    (hen : s.stepEnabled u = true) (hq : (s.ctl u).cmdq = w :: ws) :
    step s = execWord u w ((s.setSchedule rest).setCmdq u ws) := by
  have hen' : (s.setSchedule rest).stepEnabled u = true := (s.agreesOn_setSchedule u rest).stepEnabled.trans hen
  rw [step_of_scheduled hs, doMove, runUnit_of_stepEnabled hen' (by rwa [State.ctl_setSchedule])]

end

/-- Settles O6: a step is the next move, and an enabled unit step is its head word's execution. -/
theorem stepRunsTheDecodedInstruction : Obligations.StepRunsTheDecodedInstruction := by
  refine ⟨fun s u rest w ws hs hr hq hroom => ?_, fun s a rest hs => step_of_scheduled hs,
    fun s m => step_of_autoMove, fun s => step_of_no_move⟩
  have hen : s.stepEnabled u = true := (s.stepEnabled_iff u).mpr ⟨hr, w, ws, hq, hroom⟩
  rw [step_of_scheduled_unitStep hs hen hq]
  exact ⟨fun i => execWord_of_cmd, fun e => execWord_eq_takeIllegal⟩

/-- Settles O7: the guard of `runUnit` is that of 45_common.md R192 and R193. -/
theorem heldUnitStepChangesNothing : Obligations.HeldUnitStepChangesNothing :=
  fun s u => ⟨s.stepEnabled_iff u, runUnit_of_not_stepEnabled⟩

/-! ### The handshakes -/

section
variable {u : UnitId} {s : State}

theorem doMove_accept_of_enabled (h : s.acceptEnabled u = true) : doMove (.accept u) s = .next (s.acceptWord u) := by
  simp [doMove, h]

theorem doMove_accept_of_not_enabled (h : s.acceptEnabled u = false) : doMove (.accept u) s = .next s := by
  simp [doMove, h]

theorem doMove_drain_of_not_outValid (h : s.outValid u = false) : doMove (.drain u) s = .next s := by
  simp [doMove, h]

theorem State.acceptWord_of_offered {w : Word} {ws : List Word} (h : s.host.offered.get u = w :: ws) :
    s.acceptWord u = (s.setCmdq u ((s.ctl u).cmdq ++ [w])).setOffered u ws := by
  simp [acceptWord, h]

theorem doMove_drain_of_oq_cons {x : Item u.itemWidth} {xs : List (Item u.itemWidth)} (hr : s.rstN = true)
    (h : s.oq u = x :: xs) : doMove (.drain u) s = .next (s.take u 1) := by
  have hlen : s.oqLen u = (s.oq u).length := by cases u <;> rfl
  have hvalid : s.outValid u = true := by simp [State.outValid_iff, hr, hlen, h]
  simp [doMove, hvalid]

end

/-- Settles O14: a Drain takes a list of one item, the head of the queue. -/
theorem handshakesMoveOneWordOrItem : Obligations.HandshakesMoveOneWordOrItem := by
  refine ⟨fun s u => ⟨s.acceptEnabled_iff u, doMove_accept_of_not_enabled, fun w ws hen hoff => ?_, fun hoff => ?_⟩,
    fun s x xs hr hq => ?_, fun s x xs hr hq => ?_, fun s x xs hr hq => ?_, fun s x xs hr hq => ?_⟩
  · rw [doMove_accept_of_enabled hen, State.acceptWord_of_offered hoff]
    rfl
  · refine doMove_drain_of_not_outValid (Bool.eq_false_iff.mpr fun hvalid => ?_)
    obtain ⟨hr, hlen⟩ := (s.outValid_iff u).mp hvalid
    rcases hoff with hlow | hempty
    · simp [hlow] at hr
    · omega
  · rw [doMove_drain_of_oq_cons (u := .enc) hr hq, State.take, hq]
    rfl
  · rw [doMove_drain_of_oq_cons (u := .dec) hr hq, State.take, hq]
    rfl
  · rw [doMove_drain_of_oq_cons (u := .pack) hr hq, State.take, hq]
    rfl
  · rw [doMove_drain_of_oq_cons (u := .unpk) hr hq, State.take, hq]
    rfl

/-! ### START and the words dropped in FAULT -/

section
variable {u : UnitId} {w : Word} {s : State}

/-- A word that decodes to its unit's START is its well-formed START word. -/
theorem startWord_of_decodeCmd {i : Instr} (hi : i.unit? = some u) (hstart : isStart i = true)
    (h : decodeCmd u w = .cmd i) : startWord u w := by
  obtain ⟨hop, ho⟩ := fields_of_decodeCmd h
  obtain rfl : encode i = w := encode_eq_of_fields hop ho
  cases i with
  | encStart | decStart | packStart => cases hi; rfl
  | unpkStart n => cases hi; exact opcodeOf_encode (.unpkStart n)
  | _ => cases hstart

/-- A START that executes restarts its unit's common fields and keeps its output queue (10_state.md R45). -/
theorem exec_start_of_canStart {i : Instr} (hi : i.unit? = some u) (hstart : isStart i = true)
    (hc : (s.ctl u).canStart = true) :
    ∃ t, exec i s = .next t ∧ t.ctl u = (s.ctl u).restart (startPhase u) ∧ t.oqLen u = s.oqLen u := by
  cases i with
  | encStart =>
    cases hi
    exact ⟨{ s with enc := s.enc.start }, by rw [exec_encStart, EncUnit.onStart_of_canStart hc], rfl, rfl⟩
  | decStart =>
    cases hi
    exact ⟨{ s with dec := s.dec.start }, by rw [exec_decStart, DecUnit.onStart_of_canStart hc], rfl, rfl⟩
  | packStart =>
    cases hi
    exact ⟨{ s with pack := s.pack.start }, by rw [exec_packStart, PackUnit.onStart_of_canStart hc], rfl, rfl⟩
  | unpkStart n =>
    cases hi
    exact ⟨{ s with unpk := s.unpk.start n }, by rw [exec_unpkStart, UnpkUnit.onStart_of_canStart hc], rfl, rfl⟩
  | _ => cases hstart

theorem execWord_of_illegal_of_fault {e : DecodeError} (hdec : decodeCmd u w = .illegal e)
    (hph : (s.ctl u).phase = .fault) : execWord u w s = .next s := by
  rw [execWord_eq_takeIllegal hdec, State.takeIllegal, Ctl.takeIllegal, if_pos hph, State.setCtl_ctl]

/-- Everything a word can do in FAULT: it is dropped, or it is the unit's START and restarts the unit. -/
theorem execWord_cases_of_fault (w : Word) (hph : (s.ctl u).phase = .fault) :
    execWord u w s = .next s ∨
    (startWord u w ∧ (s.ctl u).cause ≠ 3#4 ∧
      ∃ t, execWord u w s = .next t ∧ t.ctl u = (s.ctl u).restart (startPhase u) ∧ t.oqLen u = s.oqLen u) := by
  cases hdec : decodeCmd u w with
  | illegal e => exact .inl (execWord_of_illegal_of_fault hdec hph)
  | cmd i =>
    rw [execWord_of_cmd hdec]
    rcases (wellFormed_cmd_iff u i).mp (wellFormed_of_decodeCmd hdec) with rfl | hi
    · exact .inl (exec_nop s)
    · cases hstart : isStart i with
      | false => exact .inl (exec_of_fault hi hstart hph)
      | true =>
        cases hc : (s.ctl u).canStart with
        | false => exact .inl (exec_start_of_not_canStart hstart hi hc)
        | true =>
          have hcause : (s.ctl u).cause ≠ 3#4 := fun h3 => (Ctl.canStart_iff _).mp hc ⟨hph, h3⟩
          exact .inr ⟨startWord_of_decodeCmd hi hstart hdec, hcause, exec_start_of_canStart hi hstart hc⟩

end

/-- Settles O12: what is not dropped is a START whose unit has another cause. -/
theorem faultPhaseDropsEveryWordButStart : Obligations.FaultPhaseDropsEveryWordButStart := by
  intro u w s hph h
  rcases execWord_cases_of_fault w hph with hdropped | ⟨hstart, hcause, -⟩
  · exact hdropped
  · exact (h.elim (· hstart) hcause).elim

/-! ### Leaving FAULT -/

namespace State

/-- From `s` to `t` a START at the head of u's command queue takes `u` out of FAULT (60_exceptions.md R210). -/
def Restarts (u : UnitId) (s t : State) : Prop :=
  (s.ctl u).cause ≠ 3#4 ∧ t.oqLen u = s.oqLen u ∧ ∃ w ws, (s.ctl u).cmdq = w :: ws ∧ startWord u w ∧
    t.ctl u = { s.ctl u with cmdq := ws }.restart (startPhase u)

/-- From `s` to `t` at most the command queue changes among u's common fields. -/
def KeepsRecord (u : UnitId) (s t : State) : Prop := ∃ q, t.ctl u = { s.ctl u with cmdq := q }

theorem keepsRecord_of_ctl_eq {u : UnitId} {s t : State} (h : t.ctl u = s.ctl u) : KeepsRecord u s t :=
  ⟨(s.ctl u).cmdq, h⟩

theorem keepsRecord_acceptWord (u v : UnitId) (s : State) : KeepsRecord u s (s.acceptWord v) := by
  unfold acceptWord
  split
  · exact keepsRecord_of_ctl_eq rfl
  · by_cases huv : u = v
    · subst huv
      exact ⟨_, by rw [ctl_setOffered, ctl_setCmdq_self]⟩
    · exact keepsRecord_of_ctl_eq (by rw [ctl_setOffered, ctl_setCmdq_ne s _ huv])

end State

section
variable {u : UnitId} {s t : State}

/-- A unit step of a unit in FAULT restarts it or leaves the record as it is. -/
theorem runUnit_of_fault (h : runUnit u s = .next t) (hph : (s.ctl u).phase = .fault) :
    s.Restarts u t ∨ s.KeepsRecord u t := by
  rcases runUnit_cases u s with ⟨-, heq⟩ | ⟨w, ws, hq, -, -, heq⟩ <;> rw [heq] at h
  · cases h
    exact .inr (State.keepsRecord_of_ctl_eq rfl)
  · have hph' : ((s.setCmdq u ws).ctl u).phase = .fault := by rwa [State.ctl_setCmdq_self]
    rcases execWord_cases_of_fault w hph' with hdropped | ⟨hstart, hcause, t', ht', hctl, hoq⟩
    · rw [hdropped] at h
      cases h
      exact .inr ⟨ws, s.ctl_setCmdq_self u ws⟩
    · rw [ht'] at h
      cases h
      rw [State.ctl_setCmdq_self] at hcause hctl
      rw [State.oqLen_setCmdq] at hoq
      exact .inl ⟨hcause, hoq, w, ws, hq, hstart, hctl⟩

theorem ctl_of_runUnit_ne {v : UnitId} (h : runUnit v s = .next t) (huv : u ≠ v) : t.ctl u = s.ctl u := by
  obtain ⟨x, rfl⟩ := runUnit_eq_setUnit h
  exact State.ctl_congr (s.unit_setUnit_ne x huv)

/-- Of the moves other than hardware reset only the unit's own step can take it out of FAULT. -/
theorem doMove_of_fault {m : Move} (h : doMove m s = .next t) (hm : m ≠ .assertReset)
    (hph : (s.ctl u).phase = .fault) : s.Restarts u t ∨ s.KeepsRecord u t := by
  cases m with
  | assertReset => exact absurd rfl hm
  | accept v =>
    cases h
    split
    · exact .inr (State.keepsRecord_acceptWord u v s)
    · exact .inr (State.keepsRecord_of_ctl_eq rfl)
  | drain v =>
    cases h
    split
    · exact .inr (State.keepsRecord_of_ctl_eq (s.ctl_take v u 1))
    · exact .inr (State.keepsRecord_of_ctl_eq rfl)
  | csrRead a => cases h; exact .inr (State.keepsRecord_of_ctl_eq (s.ctl_recordCsr u a _))
  | deassertReset => cases h; exact .inr (State.keepsRecord_of_ctl_eq (by cases u <;> rfl))
  | unitStep v =>
    by_cases huv : u = v
    · subst huv
      exact runUnit_of_fault h hph
    · exact .inr (State.keepsRecord_of_ctl_eq (ctl_of_runUnit_ne h huv))

/-- A step of the machine, for a unit in FAULT: hardware reset, or a restart, or the record stays. -/
theorem step_of_fault (h : step s = .next t) (hph : (s.ctl u).phase = .fault) :
    (s.host.schedule.head? = some .assertReset ∧ t.ctl u = Ctl.reset) ∨ s.Restarts u t ∨ s.KeepsRecord u t := by
  by_cases hr : s.host.schedule.head? = some .assertReset
  · obtain ⟨rest, hs⟩ := List.head?_eq_some_iff.mp hr
    rw [step_of_scheduled hs] at h
    cases h
    exact .inl ⟨hr, State.ctl_hardwareReset _ u⟩
  · right
    rcases step_eq_doMove h hr with ⟨l, m, hm, hmove⟩ | rfl
    · have hcases := doMove_of_fault (u := u) hmove hm (by rwa [State.ctl_setSchedule])
      simpa only [State.Restarts, State.KeepsRecord, State.ctl_setSchedule, State.oqLen_setSchedule] using hcases
    · exact .inr (State.keepsRecord_of_ctl_eq rfl)

end

theorem startPhase_ne_fault (u : UnitId) : startPhase u ≠ .fault := by cases u <;> decide

/-- Settles O13: after a reset or a restart the unit is not in FAULT, and otherwise its record is as before. -/
theorem onlyStartOrResetLeavesFault : Obligations.OnlyStartOrResetLeavesFault := by
  intro s t u h hph
  rcases step_of_fault h hph with ⟨hreset, hctl⟩ | ⟨hcause, hoq, w, ws, hq, hstart, hctl⟩ | ⟨q, hctl⟩ <;> rw [hctl]
  · exact ⟨fun _ => .inl hreset, fun hidle => nomatch hidle⟩
  · exact ⟨fun _ => .inr ⟨hcause, hoq, w, ws, hq, hstart, rfl⟩, fun hfault => absurd hfault (startPhase_ne_fault u)⟩
  · exact ⟨fun hleft => absurd hph hleft, fun _ => ⟨rfl, rfl, rfl⟩⟩

/-! ### `nop` -/

/-- The word of `nop` is legal on every port (30_encoding.md R81). -/
theorem decodeCmd_nop (u : UnitId) : decodeCmd u 0#32 = .cmd .nop := decodeCmd_encode (i := .nop) rfl

/-- No operand bit of opcode 0 may be set (30_encoding.md R83). -/
theorem decodeCmd_of_nop_operand {u : UnitId} {w : Word} (hop : opcodeOf w = 0x00#8) (ho : operandOf w ≠ 0#24) :
    decodeCmd u w = .illegal .operand := by
  obtain ⟨-, hdecode⟩ := everyWordDecodesInTheSpecsOrder
  obtain ⟨-, -, hoperand, -, -⟩ := hdecode u w
  have hmask : operandOf w &&& mbzMask 0x00#8 = operandOf w := BitVec.and_allOnes
  exact hoperand.mpr ⟨by rw [hop]; decide, .inl hop, by rwa [hop, hmask]⟩

/-- Settles O33: the word of `nop` is legal on every port, and any other word of its opcode is illegal. -/
theorem nopOnlyLeavesItsQueue : Obligations.NopOnlyLeavesItsQueue := by
  refine ⟨exec_nop, fun u ws s hq hen => ?_, fun u w s hop ho => ?_⟩
  · rw [runUnit_of_stepEnabled hen hq, execWord_of_cmd (decodeCmd_nop u), exec_nop]
  · have hdec : decodeCmd u w = .illegal .operand := decodeCmd_of_nop_operand hop ho
    exact ⟨execWord_of_illegal hdec, execWord_of_illegal_of_fault hdec⟩

end Sys2Proof.Machine
end

section
/-! Proofs about faults: what a unit step writes when it takes its unit into FAULT, and that it leaves the other units
as they are (60_exceptions.md R204, R214). -/

namespace Sys2Proof.Machine

/-! ### Fault entry of one unit -/

section
variable {i : Instr}

theorem EncUnit.Reacts.eq_fault {e e' : EncUnit} (h : e.Reacts i e') (hph : e.ctl.phase ≠ .fault)
    (hfault : e'.ctl.phase = .fault) : ∃ k, e' = e.fault k (encode i) := by
  cases h with
  | outOfSequence | overflowed => exact ⟨_, rfl⟩
  | other | refused | dropped | extended | emitted => exact absurd hfault hph
  | started | firstByte | endedEmpty | ended => cases hfault

theorem DecUnit.Reacts.eq_fault {d d' : DecUnit} (h : d.Reacts i d') (hph : d.ctl.phase ≠ .fault)
    (hfault : d'.ctl.phase = .fault) : ∃ k, d' = d.fault k (encode i) := by
  cases h with
  | outOfSequence | outOfRange | firstUnbound | staled | overflowed | endedEmpty => exact ⟨_, rfl⟩
  | other | refused | dropped | decoded => exact absurd hfault hph
  | started | firstCode | ended => cases hfault

theorem PackUnit.Reacts.eq_fault {p p' : PackUnit} (h : p.Reacts i p') (hph : p.ctl.phase ≠ .fault)
    (hfault : p'.ctl.phase = .fault) : ∃ k, p' = p.fault k (encode i) := by
  cases h with
  | outOfSequence => exact ⟨_, rfl⟩
  | other | refused | dropped | evenCode | oddCode => exact absurd hfault hph
  | started | endedEven | endedOdd => cases hfault

theorem UnpkUnit.Reacts.eq_fault {p p' : UnpkUnit} (h : p.Reacts i p') (hph : p.ctl.phase ≠ .fault)
    (hfault : p'.ctl.phase = .fault) : ∃ k, p' = p.fault k (encode i) := by
  cases h with
  | outOfSequence | exceeded | truncated => exact ⟨_, rfl⟩
  | other | refused | dropped | byte0 | byte1 | byte2 => exact absurd hfault hph
  | started | ended => cases hfault

end

/-! ### Fault entry in the state -/

section
variable {u : UnitId} {s t : State}

/-- A command that takes its unit into FAULT writes the fault record and nothing else (60_exceptions.md R204). -/
theorem exec_eq_raise {i : Instr} (hi : i.wellFormed (.cmd u) = true) (h : exec i s = .next t)
    (hph : (s.ctl u).phase ≠ .fault) (hfault : (t.ctl u).phase = .fault) :
    ∃ k, t = s.setCtl u ((s.ctl u).raise k (encode i)) := by
  obtain ⟨f, hf⟩ := exec_local hi
  obtain rfl : s.setUnit u (f (s.unit u)) = t := by simpa [hf] using h
  cases u with
  | enc =>
    obtain ⟨k, hk⟩ := (exec_enc_reacts h).eq_fault hph hfault
    exact ⟨k, congrArg (s.setUnit .enc) hk⟩
  | dec =>
    obtain ⟨k, hk⟩ := (exec_dec_reacts h).eq_fault hph hfault
    exact ⟨k, congrArg (s.setUnit .dec) hk⟩
  | pack =>
    obtain ⟨k, hk⟩ := (exec_pack_reacts h).eq_fault hph hfault
    exact ⟨k, congrArg (s.setUnit .pack) hk⟩
  | unpk =>
    obtain ⟨k, hk⟩ := (exec_unpk_reacts h).eq_fault hph hfault
    exact ⟨k, congrArg (s.setUnit .unpk) hk⟩

/-- So does every word, and fault_cmd is the whole word. -/
theorem execWord_eq_raise {w : Word} (h : execWord u w s = .next t) (hph : (s.ctl u).phase ≠ .fault)
    (hfault : (t.ctl u).phase = .fault) : ∃ k, t = s.setCtl u ((s.ctl u).raise k w) := by
  cases hdec : decodeCmd u w with
  | illegal e =>
    rw [execWord_of_illegal hdec hph] at h
    cases h
    exact ⟨illegalKind e, rfl⟩
  | cmd i =>
    rw [execWord_of_cmd hdec] at h
    obtain ⟨hop, ho⟩ := fields_of_decodeCmd hdec
    rw [← encode_eq_of_fields hop ho]
    exact exec_eq_raise (wellFormed_of_decodeCmd hdec) h hph hfault

end

theorem State.faultO_iff (s : State) (u : UnitId) : s.faultO u = true ↔ (s.ctl u).phase = .fault := by
  simp [faultO, faultOut]

/-- Settles O10: the step is the removal of the word and then the word's fault entry. -/
theorem faultEntryWritesOnlyTheRecord : Obligations.FaultEntryWritesOnlyTheRecord := by
  intro u w ws s t hq hen h hph hfault
  have hlow : s.faultO u = false := by rwa [← Bool.not_eq_true, State.faultO_iff]
  refine ⟨?_, hlow, (t.faultO_iff u).mpr hfault⟩
  rw [runUnit_of_stepEnabled hen hq] at h
  obtain ⟨k, rfl⟩ := execWord_eq_raise h (by rwa [State.ctl_setCmdq_self]) hfault
  exact ⟨k, by rw [State.ctl_setCmdq_self, State.setCmdq, State.setCtl_setCtl, Ctl.raise]⟩

/-! ### The other units -/

/-- Settles O42: a unit step writes its own unit only. -/
theorem unitStepLeavesTheOtherUnits : Obligations.UnitStepLeavesTheOtherUnits := by
  intro u s t h
  obtain ⟨x, rfl⟩ := runUnit_eq_setUnit h
  have hother (v : UnitId) (huv : u ≠ v) : (s.setUnit u x).unit v = s.unit v := s.unit_setUnit_ne x huv.symm
  exact ⟨hother .enc, hother .dec, hother .pack, hother .unpk, s.rstN_setUnit u x, s.params_setUnit u x,
    s.host_setUnit u x⟩

end Sys2Proof.Machine
end

section
/-! Proofs about steps with the schedule empty: a move that comes of itself uses up a command word, and one comes as
long as any is enabled (70_reset_and_hazards.md R239; log 3). -/

namespace Sys2Proof.Machine

/-! ### The moves that come of themselves -/

section
variable {s : State}

theorem State.enabled_of_autoMove {m : Move} (h : s.autoMove = some m) :
    ∃ u, (m = .unitStep u ∧ s.stepEnabled u = true) ∨ (m = .accept u ∧ s.acceptEnabled u = true) := by
  have hready : s.ready m = true := List.find?_some h
  cases m with
  | unitStep u => exact ⟨u, .inl ⟨rfl, hready⟩⟩
  | accept u => exact ⟨u, .inr ⟨rfl, hready⟩⟩
  | drain | csrRead | assertReset | deassertReset => cases hready

theorem mem_autoMoves (u : UnitId) : .unitStep u ∈ autoMoves ∧ .accept u ∈ autoMoves := by cases u <;> decide

theorem State.not_enabled_of_no_autoMove (h : s.autoMove = none) (u : UnitId) :
    s.stepEnabled u = false ∧ s.acceptEnabled u = false := by
  obtain ⟨hstep, haccept⟩ := mem_autoMoves u
  have hnone : ∀ m ∈ autoMoves, ¬s.ready m = true := List.find?_eq_none.mp h
  exact ⟨Bool.eq_false_iff.mpr (hnone _ hstep), Bool.eq_false_iff.mpr (hnone _ haccept)⟩

end

/-! ### The moves that the command words need -/

namespace State

/-- The moves that u's command words still need: a queued word its unit step, an offered word an Accept as well. -/
def wordMoves (s : State) (u : UnitId) : Nat := (s.ctl u).cmdq.length + 2 * (s.host.offered.get u).length

/-- The moves that all command words still need: the measure that falls. -/
def totalWordMoves (s : State) : Nat :=
  s.enc.ctl.cmdq.length + s.dec.ctl.cmdq.length + s.pack.ctl.cmdq.length + s.unpk.ctl.cmdq.length +
    2 * (s.host.offered.enc.length + s.host.offered.dec.length + s.host.offered.pack.length +
      s.host.offered.unpk.length)

theorem totalWordMoves_eq_sum (s : State) :
    s.totalWordMoves = s.wordMoves .enc + s.wordMoves .dec + s.wordMoves .pack + s.wordMoves .unpk := by
  simp only [totalWordMoves, wordMoves, ctl, PerUnit.get]
  omega

/-- From `s` to `t` a word of `u` has made one of its moves, and no other unit's word has moved. -/
def MovesOneWord (u : UnitId) (s t : State) : Prop :=
  t.wordMoves u + 1 = s.wordMoves u ∧ ∀ v, v ≠ u → t.wordMoves v = s.wordMoves v

theorem MovesOneWord.total {u : UnitId} {s t : State} (h : s.MovesOneWord u t) :
    t.totalWordMoves + 1 = s.totalWordMoves := by
  obtain ⟨hself, hother⟩ := h
  rw [totalWordMoves_eq_sum, totalWordMoves_eq_sum]
  cases u with
  | enc => rw [hother .dec nofun, hother .pack nofun, hother .unpk nofun]; omega
  | dec => rw [hother .enc nofun, hother .pack nofun, hother .unpk nofun]; omega
  | pack => rw [hother .enc nofun, hother .dec nofun, hother .unpk nofun]; omega
  | unpk => rw [hother .enc nofun, hother .dec nofun, hother .pack nofun]; omega

end State

section
variable {u : UnitId} {s t : State}

/-- An enabled Accept makes an offered word a queued one. -/
theorem State.movesOneWord_acceptWord (h : s.acceptEnabled u = true) : s.MovesOneWord u (s.acceptWord u) := by
  obtain ⟨-, -, hne⟩ := (s.acceptEnabled_iff u).mp h
  obtain ⟨w, ws, hoffered⟩ := List.exists_cons_of_ne_nil hne
  rw [acceptWord_of_offered hoffered]
  constructor
  · simp only [wordMoves, ctl_setOffered, ctl_setCmdq_self, offered_setOffered, host_setCmdq, PerUnit.get_set_self,
      hoffered, List.length_append, List.length_cons, List.length_nil]
    omega
  · intro v hv
    simp [wordMoves, ctl_setCmdq_ne s _ hv, PerUnit.get_set_ne _ _ hv]

/-- An enabled unit step takes a queued word off. -/
theorem movesOneWord_of_runUnit (hen : s.stepEnabled u = true) (h : runUnit u s = .next t) : s.MovesOneWord u t := by
  obtain ⟨-, w, ws, hq, -⟩ := (s.stepEnabled_iff u).mp hen
  have hoffered : t.host.offered = s.host.offered := by rw [runUnit_host h]
  rw [runUnit_of_stepEnabled hen hq] at h
  constructor
  · simp [State.wordMoves, execWord_cmdq h, hq, hoffered, Nat.add_right_comm]
  · intro v hv
    simp [State.wordMoves, execWord_cmdq h, State.ctl_setCmdq_ne s _ hv, hoffered]

theorem movesOneWord_of_autoMove {m : Move} (hm : s.autoMove = some m) (h : doMove m s = .next t) :
    ∃ u, s.MovesOneWord u t := by
  obtain ⟨u, ⟨rfl, hen⟩ | ⟨rfl, hen⟩⟩ := State.enabled_of_autoMove hm
  · exact ⟨u, movesOneWord_of_runUnit hen h⟩
  · rw [doMove_accept_of_enabled hen] at h
    cases h
    exact ⟨u, State.movesOneWord_acceptWord hen⟩

end

/-- Settles O52: the move that comes of itself moves one word, and none comes only when none is enabled. -/
theorem unscheduledStepsUseUpTheWords : Obligations.UnscheduledStepsUseUpTheWords := by
  intro s t hs h
  cases hm : s.autoMove with
  | none =>
    rw [step_of_no_move hs hm] at h
    cases h
    exact .inl ⟨rfl, State.not_enabled_of_no_autoMove hm⟩
  | some m =>
    rw [step_of_autoMove hs hm] at h
    obtain ⟨u, hmoves⟩ := movesOneWord_of_autoMove hm h
    have htotal : t.totalWordMoves + 1 = s.totalWordMoves := hmoves.total
    exact .inr (Nat.lt_of_succ_le htotal.le)

end Sys2Proof.Machine
end
